-- ==== Sys2Proof/Word.lean ====
section
/-! DEFINITION. The machine's word types (00_scope.md R11, 10_state.md R18). -/

namespace Sys2Proof

/-- `u8`: a data byte, a register, an opcode, an argument byte (R11, R18). -/
abbrev Byte := BitVec 8

/-- `u16`: the 2-byte absolute operand of an instruction (R11, R59). -/
abbrev Addr := BitVec 16

end Sys2Proof
end

