-- ==== Sys2Proof/Syntax.lean ====
section
/-! DEFINITION. The instructions: one constructor per row of spec/opcode_table.json (30_encoding.md R60). -/

namespace Sys2Proof

/-- The 14 instructions of the opcode map R60 with their operands assembled: `imm8` (R57), `rel8` (R58) or
`addr = hi * 256 + lo` (R59). -/
inductive Instr where
  /-- `BRK`, 0x00 (43_control.md R96). -/
  | brk
  /-- `ADC $hhll`, 0x6D (42_arith_compare.md R89). -/
  | adc (addr : Addr)
  /-- `STA $hhll`, 0x8D (41_load_store.md R83). -/
  | sta (addr : Addr)
  /-- `LDY #$ii`, 0xA0 (R86). -/
  | ldyImm (imm : Byte)
  /-- `LDX #$ii`, 0xA2 (R84). -/
  | ldxImm (imm : Byte)
  /-- `LDA #$ii`, 0xA9 (R81). -/
  | ldaImm (imm : Byte)
  /-- `LDY $hhll`, 0xAC (R87). -/
  | ldyAbs (addr : Addr)
  /-- `LDA $hhll`, 0xAD (R82). -/
  | ldaAbs (addr : Addr)
  /-- `LDX $hhll`, 0xAE (R85). -/
  | ldxAbs (addr : Addr)
  /-- `BNE $rr`, 0xD0 (43_control.md R94). -/
  | bne (rel : Byte)
  /-- `NOP`, 0xEA (R95). -/
  | nop
  /-- `CPX $hhll`, 0xEC (R91). -/
  | cpx (addr : Addr)
  /-- `INC $hhll`, 0xEE (R90). -/
  | inc (addr : Addr)
  /-- `SYS`, 0xFF (44_system.md R98). -/
  | sys
deriving DecidableEq, Repr

end Sys2Proof
end

