-- ==== Sys2Proof/Decode.lean ====
section
/-! DEFINITION. The opcode map, the decoder and the encoder (30_encoding.md). -/

namespace Sys2Proof

/-- The four formats of 30_encoding.md R56. -/
inductive Format where
  /-- Implied, 1 byte. -/
  | imp
  /-- Immediate, 2 bytes. -/
  | imm
  /-- Relative, 2 bytes. -/
  | rel
  /-- Absolute, 3 bytes, low address byte first. -/
  | abs
deriving DecidableEq, Repr

/-- How many argument bytes follow the opcode byte (R55, R56). -/
def Format.argCount : Format → Nat
  | .imp => 0
  | .imm => 1
  | .rel => 1
  | .abs => 2

/-- The rows of the opcode map R60, by name. -/
inductive Opcode where
  | brk | adc | sta | ldyImm | ldxImm | ldaImm | ldyAbs | ldaAbs | ldxAbs | bne | nop | cpx | inc | sys
deriving DecidableEq, Repr

/-- The opcode byte of a row of R60. -/
def Opcode.code : Opcode → Byte
  | .brk => 0x00#8
  | .adc => 0x6D#8
  | .sta => 0x8D#8
  | .ldyImm => 0xA0#8
  | .ldxImm => 0xA2#8
  | .ldaImm => 0xA9#8
  | .ldyAbs => 0xAC#8
  | .ldaAbs => 0xAD#8
  | .ldxAbs => 0xAE#8
  | .bne => 0xD0#8
  | .nop => 0xEA#8
  | .cpx => 0xEC#8
  | .inc => 0xEE#8
  | .sys => 0xFF#8

/-- The format column of R60. -/
def Opcode.format : Opcode → Format
  | .brk => .imp
  | .adc => .abs
  | .sta => .abs
  | .ldyImm => .imm
  | .ldxImm => .imm
  | .ldaImm => .imm
  | .ldyAbs => .abs
  | .ldaAbs => .abs
  | .ldxAbs => .abs
  | .bne => .rel
  | .nop => .imp
  | .cpx => .abs
  | .inc => .abs
  | .sys => .imp

/-- The args column of R60: "the argument count is fixed by the opcode" (R55). -/
def Opcode.argCount (o : Opcode) : Nat := o.format.argCount

/-- The rows of R60 in the table's order. -/
def opcodeMap : List Opcode :=
  [.brk, .adc, .sta, .ldyImm, .ldxImm, .ldaImm, .ldyAbs, .ldaAbs, .ldxAbs, .bne, .nop, .cpx, .inc, .sys]

/-- `decode(op)` of R61: the row whose opcode byte equals `op`, matched in full; `none` is `ILLEGAL` (R62). -/
def decodeOpcode (op : Byte) : Option Opcode := opcodeMap.find? fun o => o.code == op

/-- The ABS operand: `addr = hi * 256 + lo`, the first argument byte is the low byte (R59). -/
def absAddress (lo hi : Byte) : Addr := hi ++ lo

/-- The low byte of an address, the first argument byte (R56, R59). -/
def addressLo (a : Addr) : Byte := a.extractLsb' 0 8

/-- The high byte of an address, the second argument byte (R56, R59). -/
def addressHi (a : Addr) : Byte := a.extractLsb' 8 8

/-- The instruction of a row with its argument bytes `arg[1]`, `arg[2]`; a format reads only the bytes it has. -/
def Opcode.instr (o : Opcode) (arg1 arg2 : Byte) : Instr :=
  match o with
  | .brk => .brk
  | .adc => .adc (absAddress arg1 arg2)
  | .sta => .sta (absAddress arg1 arg2)
  | .ldyImm => .ldyImm arg1
  | .ldxImm => .ldxImm arg1
  | .ldaImm => .ldaImm arg1
  | .ldyAbs => .ldyAbs (absAddress arg1 arg2)
  | .ldaAbs => .ldaAbs (absAddress arg1 arg2)
  | .ldxAbs => .ldxAbs (absAddress arg1 arg2)
  | .bne => .bne arg1
  | .nop => .nop
  | .cpx => .cpx (absAddress arg1 arg2)
  | .inc => .inc (absAddress arg1 arg2)
  | .sys => .sys

/-- `Opcode.instr` on the argument bytes as a list, in fetch order. -/
def Opcode.instrOfArgs (o : Opcode) (args : List Byte) : Instr :=
  o.instr (args.getD 0 0#8) (args.getD 1 0#8)

/-- Why a byte string is no instruction. -/
inductive DecodeError where
  /-- There is no opcode byte. -/
  | empty
  /-- The opcode byte is one of the 242 values outside R60 (R62). -/
  | illegalOpcode (op : Byte)
  /-- The argument bytes of the opcode are not all there. -/
  | truncated (op : Byte)
deriving DecidableEq, Repr

/-- The decoder, total on byte strings: the first instruction and the bytes after it. -/
def decode : List Byte → Except DecodeError (Instr × List Byte)
  | [] => .error .empty
  | op :: rest =>
    match decodeOpcode op with
    | none => .error (.illegalOpcode op)
    | some o =>
      if rest.length < o.argCount then .error (.truncated op)
      else .ok (o.instrOfArgs (rest.take o.argCount), rest.drop o.argCount)

/-- The row of an instruction. -/
def Instr.opcode : Instr → Opcode
  | .brk => .brk
  | .adc _ => .adc
  | .sta _ => .sta
  | .ldyImm _ => .ldyImm
  | .ldxImm _ => .ldxImm
  | .ldaImm _ => .ldaImm
  | .ldyAbs _ => .ldyAbs
  | .ldaAbs _ => .ldaAbs
  | .ldxAbs _ => .ldxAbs
  | .bne _ => .bne
  | .nop => .nop
  | .cpx _ => .cpx
  | .inc _ => .inc
  | .sys => .sys

/-- The argument bytes of an instruction in fetch order (R56). -/
def Instr.argBytes : Instr → List Byte
  | .brk | .nop | .sys => []
  | .ldyImm v | .ldxImm v | .ldaImm v | .bne v => [v]
  | .adc a | .sta a | .ldyAbs a | .ldaAbs a | .ldxAbs a | .cpx a | .inc a => [addressLo a, addressHi a]

/-- The encoder: the bytes of an instruction in fetch order (R56, R60). -/
def encode (i : Instr) : List Byte := i.opcode.code :: i.argBytes

/-- The instruction's length in bytes (R55). -/
def Instr.length (i : Instr) : Nat := 1 + i.opcode.argCount

/-- The longest instruction's length (R55). -/
def maxInstrBytes : Nat := 3

/-- The `n` low bytes of a number, least significant first: the table's bit numbering as bytes in fetch order. -/
def bytesOfNat : Nat → Nat → List Byte
  | 0, _ => []
  | n + 1, w => BitVec.ofNat 8 w :: bytesOfNat n (w / 256)

/-- The bytes of a table word: `nbits` bits of `w`, and zero bytes above up to the longest instruction. -/
def tableWordBytes (nbits w : Nat) : List Byte := bytesOfNat maxInstrBytes (w % 2 ^ nbits)

/-- What the decoder reads from the instruction whose bits are `w`, numbered as spec/opcode_table.json numbers
them. -/
def decodeTableWord (nbits w : Nat) : Option Instr :=
  match decode (tableWordBytes nbits w) with
  | .ok (i, _) => some i
  | .error _ => none

end Sys2Proof
end

