-- ==== Sys2Proof/Machine/Flags.lean ====
section
/-! DEFINITION. The ALU's three operations and the one flag (42_arith_compare.md R88). -/

namespace Sys2Proof.Machine

/-- The 8-bit add of ADC: `(a + b) mod 256`, no carry in or out (R88, R89). -/
def aluAdd (a b : Byte) : Byte := a + b

/-- The 8-bit increment of INC: `(v + 1) mod 256` (R88, R90). -/
def aluInc (v : Byte) : Byte := v + 1

/-- The 8-bit equality compare of CPX, the only computation of `Z`: 1 if the memory byte equals `X`, else 0 (R91,
10_state.md R23). -/
def compareFlag (v x : Byte) : Bool := v == x

/-- BNE's condition: the branch is taken iff `Z = 0` (R23, 43_control.md R94). -/
def branchTaken (z : Bool) : Bool := !z

end Sys2Proof.Machine
end

