-- ==== Sys2Proof/Config.lean ====
section
/-! DEFINITION. The implementation parameters of 00_scope.md R9. -/

namespace Sys2Proof

/-- The scheduling policies (R9, 45_context_switch.md R105, R112, R113). -/
inductive Policy where
  | rr
  | fcfs
  | priority
deriving DecidableEq, Repr

/-- The named parameters of R9. They are fixed when the machine is built and no rule writes them. -/
structure Config where
  /-- `MEM_SIZE`, bytes in the byte store. -/
  memSize : Nat
  /-- `NUM_SEGMENTS`, segments in the segment table. -/
  numSegments : Nat
  /-- `ARG_FETCH_WRAP`, whether the argument-fetch PC increment wraps mod 256. -/
  argFetchWrap : Bool
  /-- `POLICY`. -/
  policy : Policy
  /-- `QUANTUM`, the round-robin quantum in executed ticks. -/
  quantum : Nat
  /-- `NUM_TRACKS`. -/
  numTracks : Nat
  /-- `NUM_SECTORS`, sectors per track. -/
  numSectors : Nat
  /-- `NUM_BLOCKS`, blocks per sector. -/
  numBlocks : Nat
deriving DecidableEq, Repr

namespace Config

/-- The defaults R9 gives (decisions D2, D3, D16, D22 of 92_eei_decisions.md). -/
def default : Config where
  memSize := 768
  numSegments := 3
  argFetchWrap := true
  policy := .rr
  quantum := 6
  numTracks := 4
  numSectors := 8
  numBlocks := 8

/-- `SEG_SIZE = MEM_SIZE / NUM_SEGMENTS` (R9, R37). -/
def segSize (c : Config) : Nat := c.memSize / c.numSegments

/-- How many blocks the disk grid has; also the hop bound of a chain walk (R118, R126). -/
def gridBlocks (c : Config) : Nat := c.numTracks * c.numSectors * c.numBlocks

/-- `BLOCK_PAYLOAD`, content bytes per disk block (R9, R10). -/
def blockPayload : Nat := 60

/-- `BLOCK_SIZE`, bytes per stored disk block (R9, R10, R120). -/
def blockSize : Nat := 64

end Config

end Sys2Proof
end

