-- ==== Sys2Proof/Machine/Geometry.lean ====
section
/-! DEFINITION. The segment table and the disk grid, fixed by the parameters (20_memory.md R37, 46_disk_fs.md R118). -/

namespace Sys2Proof.Machine

/-- An entry of the segment table: inclusive physical bounds (20_memory.md R37). -/
structure Segment where
  base : Nat
  limit : Nat
deriving DecidableEq, Repr

/-- How many bytes a segment has; both its bounds are inclusive. -/
def Segment.size (g : Segment) : Nat := g.limit - g.base + 1

/-- Segment `i` is `[i * SEG_SIZE, i * SEG_SIZE + SEG_SIZE - 1]` (R37). -/
def segmentAt (c : Config) (i : Nat) : Segment where
  base := i * c.segSize
  limit := i * c.segSize + c.segSize - 1

/-- The segment table in table order (R37). -/
def segmentTable (c : Config) : List Segment := (List.range c.numSegments).map (segmentAt c)

/-- A DiskLocation `(t, s, b)` (46_disk_fs.md R118). -/
structure DiskLoc where
  t : Nat
  s : Nat
  b : Nat
deriving DecidableEq, Repr

/-- The location is on the grid (R118). -/
def DiskLoc.onGrid (c : Config) (l : DiskLoc) : Bool :=
  decide (l.t < c.numTracks) && decide (l.s < c.numSectors) && decide (l.b < c.numBlocks)

/-- The location as one number, its three coordinates as the three bytes of a stored pointer; on the grid the order
of these numbers is the lexicographic order of R118. -/
def DiskLoc.key (l : DiskLoc) : Nat := l.t * 65536 + l.s * 256 + l.b

/-- The location of a key. -/
def DiskLoc.ofKey (k : Nat) : DiskLoc := ⟨k / 65536, k / 256 % 256, k % 256⟩

/-- The locations of track `t` in the order of R118. -/
def trackLocs (c : Config) (t : Nat) : List DiskLoc :=
  (List.range c.numSectors).flatMap fun s => (List.range c.numBlocks).map fun b => ⟨t, s, b⟩

/-- The boot record `(0,0,0)`, reserved (R118). -/
def bootLoc : DiskLoc := ⟨0, 0, 0⟩

/-- The directory region: track 0 without the boot record, in order (R118). -/
def directoryRegion (c : Config) : List DiskLoc := (trackLocs c 0).filter fun l => l != bootLoc

/-- The content region: every location with `t >= 1`, in order (R118). -/
def contentRegion (c : Config) : List DiskLoc :=
  (List.range (c.numTracks - 1)).flatMap fun t => trackLocs c (t + 1)

end Sys2Proof.Machine
end

