-- ==== Sys2Proof/Machine/ProgramText.lean ====
section
/-! DEFINITION. Program text (30_encoding.md R64) and the rendering of bytes (R65). -/

namespace Sys2Proof.Machine

/-- A malformed token: "wrong length, non-hex" (R64). -/
inductive ParseError where
  | malformedToken (token : List Char)
deriving DecidableEq, Repr

/-- Whitespace characters that separate tokens. -/
def isSpace (c : Char) : Bool := c == ' ' || c == '\t' || c == '\n' || c == '\r'

/-- The value of a hexadecimal digit, either case (R64). -/
def hexDigit (c : Char) : Option Nat :=
  if '0' ≤ c ∧ c ≤ '9' then some (c.toNat - 48)
  else if 'a' ≤ c ∧ c ≤ 'f' then some (c.toNat - 87)
  else if 'A' ≤ c ∧ c ≤ 'F' then some (c.toNat - 55)
  else none

/-- Split at runs of whitespace, dropping empty tokens; `current` is the token read so far. -/
def splitTokens : List Char → List Char → List (List Char)
  | [], current => if current.isEmpty then [] else [current]
  | c :: cs, current =>
    if isSpace c then
      (if current.isEmpty then splitTokens cs [] else current :: splitTokens cs [])
    else splitTokens cs (current ++ [c])

/-- The byte of a token: exactly two hexadecimal digits (R64). -/
def tokenByte (token : List Char) : Except ParseError Byte :=
  match token with
  | [hi, lo] =>
    match hexDigit hi, hexDigit lo with
    | some h, some l => .ok (BitVec.ofNat 8 (h * 16 + l))
    | _, _ => .error (.malformedToken token)
  | _ => .error (.malformedToken token)

/-- The bytes of the tokens, or the error of the first malformed one. -/
def tokensBytes : List (List Char) → Except ParseError (List Byte)
  | [] => .ok []
  | t :: ts =>
    match tokenByte t with
    | .error e => .error e
    | .ok b =>
      match tokensBytes ts with
      | .error e => .error e
      | .ok bs => .ok (b :: bs)

/-- `parseProgram(text)` (R64); the text is its list of characters. -/
def parseProgram (text : List Char) : Except ParseError (List Byte) := tokensBytes (splitTokens text [])

/-- The character of a hexadecimal digit, upper case (the case is not fixed, R65). -/
def hexChar (n : Nat) : Char := if n < 10 then Char.ofNat (48 + n) else Char.ofNat (55 + n)

/-- A byte as two hexadecimal digits (R65). -/
def renderByte (b : Byte) : List Char := [hexChar (b.toNat / 16), hexChar (b.toNat % 16)]

end Sys2Proof.Machine
end

