-- ==== Sys2Proof/Machine/Sparse.lean ====
section
/-! DEFINITION. Sparse stores in one canonical form: a list of (key, value) pairs, keys strictly rising, no entry
equal to what an unlisted key reads as. The byte store and the disk are both kept this way. -/

namespace Sys2Proof.Machine

/-- What key `k` holds: its listed value, or `dflt k` when it is not listed. -/
def Sparse.read {α : Type} (dflt : Nat → α) : List (Nat × α) → Nat → α
  | [], k => dflt k
  | (a, v) :: rest, k => if a = k then v else Sparse.read dflt rest k

/-- Store `v` at `k`, keeping the canonical form: storing the unlisted value removes the entry. -/
def Sparse.write {α : Type} [DecidableEq α] (dflt : Nat → α) : List (Nat × α) → Nat → α → List (Nat × α)
  | [], k, v => if v = dflt k then [] else [(k, v)]
  | (a, w) :: rest, k, v =>
    if k < a then (if v = dflt k then (a, w) :: rest else (k, v) :: (a, w) :: rest)
    else if k = a then (if v = dflt k then rest else (k, v) :: rest)
    else (a, w) :: Sparse.write dflt rest k v

/-- Return the keys `lo .. lo + n - 1` to what an unlisted key reads as. -/
def Sparse.clearRange {α : Type} (m : List (Nat × α)) (lo n : Nat) : List (Nat × α) :=
  m.filter fun e => !(decide (lo ≤ e.1) && decide (e.1 < lo + n))

/-- The canonical form holds. -/
def Sparse.wf {α : Type} [DecidableEq α] (dflt : Nat → α) : List (Nat × α) → Bool
  | [] => true
  | (a, v) :: rest => decide (v ≠ dflt a) && rest.all (fun e => decide (a < e.1)) && Sparse.wf dflt rest

/-- The byte store `MEM` as the list of its bytes that are not the zero byte (20_memory.md R34, R35). -/
abbrev Memory := List Host.Cell

/-- What an unlisted address reads as: construction fills every byte with the canonical zero byte (R35). -/
def Memory.unlisted (_a : Nat) : Byte := 0x00#8

/-- The byte at a physical address. -/
def Memory.read (m : Memory) (a : Nat) : Byte := Sparse.read Memory.unlisted m a

/-- The byte store after one byte is stored. -/
def Memory.write (m : Memory) (a : Nat) (v : Byte) : Memory := Sparse.write Memory.unlisted m a v

/-- The byte store after the bytes `bs` are stored at `a`, `a + 1`, ... in rising order. -/
def Memory.writeBytes : Memory → Nat → List Byte → Memory
  | m, _, [] => m
  | m, a, b :: bs => Memory.writeBytes (Memory.write m a b) (a + 1) bs

/-- The byte store after every byte of `lo .. lo + n - 1` is set to 0x00. -/
def Memory.zeroRange (m : Memory) (lo n : Nat) : Memory := Sparse.clearRange m lo n

/-- The `n` bytes from `a` on, in rising order. -/
def Memory.readBytes (m : Memory) (a n : Nat) : List Byte := (List.range n).map fun j => Memory.read m (a + j)

/-- The byte store is in its canonical form. -/
def Memory.wf (m : Memory) : Bool := Sparse.wf Memory.unlisted m

end Sys2Proof.Machine
end

