-- ==== Sys2Proof/WellFormed.lean ====
section
/-! DEFINITION. Well-formedness checks: instructions, configurations, file names. -/

namespace Sys2Proof

/-- Every instruction the constructors can hold is well formed: "every value 0..255 of every argument byte is
legal" (30_encoding.md R61), and the operand types hold exactly those values. The match names every constructor so
that a new one cannot slip past. -/
def Instr.wellFormed : Instr → Bool
  | .brk | .nop | .sys => true
  | .ldyImm _ | .ldxImm _ | .ldaImm _ | .bne _ => true
  | .adc _ | .sta _ | .ldyAbs _ | .ldaAbs _ | .ldxAbs _ | .cpx _ | .inc _ => true

/-- `MEM_SIZE` is a positive multiple of a positive `NUM_SEGMENTS` (00_scope.md R9, R37). -/
def Config.segmentsOk (c : Config) : Bool :=
  decide (1 ≤ c.memSize) && decide (1 ≤ c.numSegments) && decide (c.memSize % c.numSegments = 0)

/-- `QUANTUM >= 1` (R9). -/
def Config.quantumOk (c : Config) : Bool := decide (1 ≤ c.quantum)

/-- Tracks 2..10, sectors and blocks 1..10, at least two blocks on track 0 (R9, R120). -/
def Config.diskOk (c : Config) : Bool :=
  decide (2 ≤ c.numTracks) && decide (c.numTracks ≤ 10) &&
  decide (1 ≤ c.numSectors) && decide (c.numSectors ≤ 10) &&
  decide (1 ≤ c.numBlocks) && decide (c.numBlocks ≤ 10) &&
  decide (2 ≤ c.numSectors * c.numBlocks)

/-- The constraints of R9; a configuration that violates one is refused. -/
def Config.legal (c : Config) : Bool := c.segmentsOk && c.quantumOk && c.diskOk

/-- A legal file name: 1 to 60 bytes, none of them 0x00 (46_disk_fs.md R125). -/
def validFileName (name : List Byte) : Bool :=
  decide (1 ≤ name.length) && decide (name.length ≤ Config.blockPayload) && name.all (fun b => b != 0#8)

end Sys2Proof
end

