-- ==== Sys2Proof/Machine/State.lean ====
section
/-! DEFINITION. The machine's state as plain data, its reasons to stop, and the machine after reset
(10_state.md). -/

namespace Sys2Proof.Machine

/-! ## Faults of instructions and errors of components -/

/-- The six causes of an execution fault (60_exceptions.md R140). They are no stop of the model: the fault path of
40_cycle.md R75 gives a next state. -/
inductive FaultCause where
  /-- Opcode fetch outside the segment. -/
  | fetchSegFault
  /-- One of the 242 unlisted opcode values. -/
  | illegalOpcode
  /-- Argument fetch outside the segment. -/
  | argSegFault
  /-- Data access outside the segment. -/
  | operandSegFault
  /-- SYS with `X` neither 1 nor 2. -/
  | invalidSysArg
  /-- SYS string that runs out of the segment. -/
  | sysStringSegFault
deriving DecidableEq, Repr

/-- What a cycle returns: `OK`, `BREAK` or `FAULT(c)` (40_cycle.md R79). -/
inductive CycleResult where
  | ok
  | brk
  | fault (c : FaultCause)
deriving DecidableEq, Repr

/-- `SegmentationFault(k)`: the logical address `k` is outside the executing process's segment (20_memory.md R39). -/
inductive AccessError where
  | segmentationFault (k : Nat)
deriving DecidableEq, Repr

/-- Errors of the memory manager's operations (20_memory.md R42, R43, R45). -/
inductive MmError where
  /-- No segment is free. -/
  | outOfMemory
  /-- The PCB is not in the registry. -/
  | notResident (pid : Nat)
deriving DecidableEq, Repr

/-- Errors of the file-system controller (46_disk_fs.md R123). -/
inductive FsError where
  | notFormatted
  | fileNotFound (name : List Byte)
  | fileExists (name : List Byte)
  | noSpace
  | invalidName (name : List Byte)
  | corruptChain
  | noActiveSwap (pid : Nat)
deriving DecidableEq, Repr

/-- An error of a component that the scheduler or the kernel meets (60_exceptions.md R163). -/
inductive ComponentError where
  | mm (e : MmError)
  | fs (e : FsError)
deriving DecidableEq, Repr

/-- Why a roll-in could not be done (45_context_switch.md R110). -/
inductive RollError where
  /-- The swap image is gone. -/
  | imageLost
  /-- Memory is full and no ready process is in memory. -/
  | noVictim
  /-- The roll-out or the read-back failed. -/
  | component (e : ComponentError)
deriving DecidableEq, Repr

/-! ## Processes -/

/-- Where a process image is (10_state.md R26). -/
inductive Location where
  | memory
  | disk
  | undefined
deriving DecidableEq, Repr

/-- The lifecycle states of a PCB (R26). -/
inductive Status where
  | uninitialized
  | resident
  | ready
  | running
  | terminated
deriving DecidableEq, Repr

/-- A priority: an integer, lower is more urgent, or `+inf` (R26). -/
inductive Priority where
  | finite (n : Int)
  | inf
deriving DecidableEq, Repr

/-- The Process Control Block (R26). -/
structure Pcb where
  pid : Nat
  /-- `none` is the spec's `null`. -/
  occupiedSegment : Option Nat
  location : Location
  status : Status
  priority : Priority
  programCounter : Byte
  accumulator : Byte
  xReg : Byte
  yReg : Byte
  zFlag : Bool
  lastInstruction : Byte
  fresh : Bool
  cyclesInReady : Nat
  cyclesExecuting : Nat
deriving DecidableEq, Repr

/-! ## The CPU, the disk, interrupt records, the ports -/

/-- The CPU's state (R17, R18). -/
structure Cpu where
  pc : Byte
  acc : Byte
  x : Byte
  y : Byte
  z : Bool
  ir : Byte
  isExecuting : Bool
deriving DecidableEq, Repr

/-- The disk controller's state (R30). `blocks` lists the stored 64-byte form (46_disk_fs.md R120) of the blocks that
are not fresh, by `DiskLoc.key`; an unlisted block is `freshBlock` (R121). -/
structure Disk where
  blocks : List (Nat × List Byte)
  formatted : Bool
  swaps : List Nat
deriving DecidableEq, Repr

/-- A `FILE_SYSTEM` request with its sub-kind (60_exceptions.md R143). -/
inductive FsRequest where
  | format
  | create (filename : List Byte)
  | write (filename data : List Byte)
  | read (filename : List Byte)
  | delete (filename : List Byte)
  /-- A sub-kind outside the list of R143, by its number. -/
  | unrecognized (code : Nat)
deriving DecidableEq, Repr

/-- An interrupt record (R143). -/
inductive Interrupt where
  | timer
  | keyboard (data : List Byte)
  | loadProgram (program : List Byte) (priority : Option Int)
  | runProgram (pid : Nat)
  | breakProgram (pid : Nat)
  | errProgram (pid : Nat)
  | requestClearMemory
  | contextSwitch
  | runAllPrograms
  | killProgram (pid : Nat)
  | fileSystem (request : FsRequest)
  /-- A kind outside the list of R143, by its number. -/
  | unrecognized (code : Nat)
deriving DecidableEq, Repr

/-- What the host may send between two ticks (R145): a record, or the text of a program to load (30_encoding.md R64;
assumption log 30). -/
inductive HostInput where
  | record (r : Interrupt)
  | programText (text : List Char) (priority : Option Int)
deriving DecidableEq, Repr

/-- What a `report(text)` carries; the wording is abstract (92_eei_decisions.md D38, 93_implementation_defined.md
I5). -/
inductive Report where
  /-- The error text of the fault path (40_cycle.md R75). -/
  | executionFault (cause : FaultCause) (pid : Option Nat)
  /-- The trace text of a context switch with an empty ready queue (45_context_switch.md R107). -/
  | switchNoop
  /-- The error text of a roll-in that failed (R110). -/
  | rollInFailed (pid : Nat) (why : RollError)
  /-- The termination text (R116). -/
  | terminated (pid wait turnaround : Nat)
  /-- The error met while the swap file of a terminated process was reclaimed (60_exceptions.md R151). -/
  | reclaimFailed (pid : Nat) (why : FsError)
  /-- The new pid of a load (60_exceptions.md R153). -/
  | loaded (pid : Nat)
  /-- The error of a load (R153). -/
  | loadFailed (why : ComponentError)
  /-- The program text of a load is malformed (30_encoding.md R64, 60_exceptions.md R163). -/
  | malformedProgram (why : ParseError)
  /-- The pid was not found (R154, R155, R160). -/
  | pidNotFound (pid : Nat)
  /-- A file-system request succeeded (R161). -/
  | fsDone (request : FsRequest)
  /-- A file-system request failed (R161). -/
  | fsFailed (request : FsRequest) (why : FsError)
  /-- The text a `READ` returns (R161). -/
  | fileText (filename text : List Byte)
  /-- The fatal trap of an unrecognized kind or sub-kind (R162). -/
  | fatalTrap (record : Interrupt)
deriving DecidableEq, Repr

/-- A transaction of the console output port (60_exceptions.md R167). No rule of the engine sends `advanceLine` or
`clearScreen`. -/
inductive ConsoleMsg where
  /-- `putText`: the character codes of the text. -/
  | putText (text : List Byte)
  | putSystemText (report : Report)
  | advanceLine
  | clearScreen
deriving DecidableEq, Repr

/-- A snapshot sent to the display port (40_cycle.md R74, 60_exceptions.md R168). -/
structure Snapshot where
  cpu : Cpu
  pcb : Option Pcb
deriving DecidableEq, Repr

/-! ## The whole machine -/

/-- The machine's state (10_state.md R17 to R31). The last three fields are the model's own (assumption log 3 and
4): what the two output ports have been sent, oldest first, and what the last cycle returned. -/
structure State where
  /-- The parameters of 00_scope.md R9; no step writes them. -/
  cfg : Config
  cpu : Cpu
  /-- `MEM`. -/
  mem : Memory
  /-- `SEG`. -/
  seg : List Segment
  /-- `OCC`. -/
  occ : List Bool
  /-- `REG`, the pids of the processes resident in memory. -/
  reg : List Nat
  /-- `READY`, head first. -/
  ready : List Pcb
  /-- `RESIDENT`, by rising pid. -/
  resident : List Pcb
  /-- `TERMINATED`, oldest first. -/
  terminated : List Pcb
  /-- `EXEC`. -/
  executing : Option Pcb
  /-- `NEXT_PID`. -/
  nextPid : Nat
  qPid : Option Nat
  qCount : Nat
  disk : Disk
  /-- `INTQ`, head first. -/
  intq : List Interrupt
  halted : Bool
  console : List ConsoleMsg
  display : List Snapshot
  cycleResult : Option CycleResult
deriving DecidableEq, Repr

/-- Why a raw access of the byte store fails. No step answers one: "`OutOfRange` is never raised through
`MemRead`/`MemWrite`" (20_memory.md R41). -/
inductive Fault where
  /-- `OutOfRange(a)`: raised by `PhysRead` and `PhysWrite` when `a` is outside `[0, MEM_SIZE)` (R34). Safe. -/
  | outOfRange (a : Nat)
deriving DecidableEq, Repr

/-- Why the model gives no machine or no meaning. No step answers one. -/
inductive Refusal where
  /-- An instruction without a meaning; no arm of `exec` answers it. Safe. -/
  | notModelled (mnemonic : String)
  /-- `State.construct` was given a configuration that violates a constraint of 00_scope.md R9. Safe. -/
  | badConfiguration
deriving DecidableEq, Repr

/-- `init()`: the CPU after construction, and after `reset()` (40_cycle.md R77, R78; 10_state.md R33). -/
def Cpu.initial : Cpu where
  pc := 0x00#8
  acc := 0x00#8
  x := 0x00#8
  y := 0x00#8
  z := false
  ir := 0x00#8
  isExecuting := false

/-- The machine right after its construction with the parameters `c` (10_state.md R33, 70_reset_and_hazards.md
R173). The raw disk is fresh: assumption log 2. -/
def State.powerOn (c : Config) : State where
  cfg := c
  cpu := Cpu.initial
  mem := []
  seg := segmentTable c
  occ := List.replicate c.numSegments false
  reg := []
  ready := []
  resident := []
  terminated := []
  executing := none
  nextPid := 0
  qPid := none
  qCount := 0
  disk := { blocks := [], formatted := false, swaps := [] }
  intq := []
  halted := false
  console := []
  display := []
  cycleResult := none

/-- Build the machine, or refuse: "A configuration violating a constraint is refused (no machine is built)"
(00_scope.md R9). -/
def State.construct (c : Config) : Except Refusal State :=
  if c.legal then .ok (State.powerOn c) else .error .badConfiguration

/-- The machine right after reset with the default parameters (10_state.md R33; assumption log 1). -/
def State.reset : State := State.powerOn Config.default

end Sys2Proof.Machine
end

