-- ==== Sys2Proof/Machine/Ops.lean ====
section
/-! DEFINITION. The named operations over registers, memory and the ports, and the one trap entry. -/

namespace Sys2Proof.Machine

/-! ## Plain updates -/

/-- Write the CPU's registers. -/
def State.setCpu (s : State) (c : Cpu) : State := { s with cpu := c }

/-- Write the byte store. -/
def State.setMem (s : State) (m : Memory) : State := { s with mem := m }

/-- Write the executing reference. -/
def State.setExecuting (s : State) (p : Option Pcb) : State := { s with executing := p }

/-- Record what the cycle returns (40_cycle.md R79). -/
def State.setResult (s : State) (r : CycleResult) : State := { s with cycleResult := some r }

/-- `enqueue(kind, params)`: append at the tail of `INTQ` (60_exceptions.md R144). -/
def State.enqueue (s : State) (r : Interrupt) : State := { s with intq := s.intq ++ [r] }

/-- One transaction of the console port (60_exceptions.md R167). -/
def State.emit (s : State) (m : ConsoleMsg) : State := { s with console := s.console ++ [m] }

/-- `report(text)` of errors, traces and terminations: `putSystemText` (R167, decision D38). -/
def State.report (s : State) (r : Report) : State := s.emit (.putSystemText r)

/-- `report(text)` of SYS: `putText` (44_system.md R99). -/
def State.putText (s : State) (text : List Byte) : State := s.emit (.putText text)

/-- One `display_out` snapshot of the registers and the executing PCB (40_cycle.md R74). -/
def State.emitSnapshot (s : State) : State :=
  { s with display := s.display ++ [{ cpu := s.cpu, pcb := s.executing }] }

/-! ## Registers -/

/-- `ACC <- v`. -/
def State.setAcc (s : State) (v : Byte) : State := s.setCpu { s.cpu with acc := v }

/-- `X <- v`. -/
def State.setX (s : State) (v : Byte) : State := s.setCpu { s.cpu with x := v }

/-- `Y <- v`. -/
def State.setY (s : State) (v : Byte) : State := s.setCpu { s.cpu with y := v }

/-- `Z <- b`. -/
def State.setZ (s : State) (b : Bool) : State := s.setCpu { s.cpu with z := b }

/-- `PC <- v`. -/
def State.setPc (s : State) (v : Byte) : State := s.setCpu { s.cpu with pc := v }

/-! ## Memory -/

/-- `PhysRead(a)` (20_memory.md R34). -/
def State.physRead (s : State) (a : Nat) : Except Fault Byte :=
  if a < s.cfg.memSize then .ok (Memory.read s.mem a) else .error (.outOfRange a)

/-- `PhysWrite(a, v)` (R34): the byte it returns, which is `v`, and the state after the write; nothing changes on
failure. -/
def State.physWrite (s : State) (a : Nat) (v : Byte) : Except Fault (Byte × State) :=
  if a < s.cfg.memSize then .ok (v, s.setMem (Memory.write s.mem a v)) else .error (.outOfRange a)

/-- The segment the translator uses: that of the executing PCB (10_state.md R25). -/
def State.execSegment (s : State) : Option Segment :=
  match s.executing with
  | none => none
  | some p =>
    match p.occupiedSegment with
    | none => none
    | some i => s.seg[i]?

/-- The physical address of a logical one, "relative to the currently executing PCB's segment base and
bounds-check[ed] against that segment" (R39, decisions D45 and D47). -/
def State.translate (s : State) (k : Nat) : Except AccessError Nat :=
  match s.execSegment with
  | none => .error (.segmentationFault k)
  | some g => if k ≤ g.limit - g.base then .ok (g.base + k) else .error (.segmentationFault k)

/-- `MemRead(k, 1)` (R39). A translated address is always inside the store (R41); were it not, the access is
refused as a `SegmentationFault` (assumption log 8). -/
def State.memRead (s : State) (k : Nat) : Except AccessError Byte :=
  match s.translate k with
  | .error e => .error e
  | .ok a =>
    match s.physRead a with
    | .error _ => .error (.segmentationFault k)
    | .ok v => .ok v

/-- `MemWrite(k, 1, v)`: "translates and checks exactly as `MemRead`", then performs `PhysWrite` (R40). The rule
names no result; the state is what its callers need. -/
def State.memWrite (s : State) (k : Nat) (v : Byte) : Except AccessError State :=
  match s.translate k with
  | .error e => .error e
  | .ok a =>
    match s.physWrite a v with
    | .error _ => .error (.segmentationFault k)
    | .ok (_, t) => .ok t

/-! ## The register snapshot (45_context_switch.md R100) -/

/-- The snapshot fields of `p` written from the registers `c`. -/
def Pcb.withRegisters (p : Pcb) (c : Cpu) : Pcb :=
  { p with
    programCounter := c.pc
    accumulator := c.acc
    xReg := c.x
    yReg := c.y
    zFlag := c.z
    lastInstruction := c.ir }

/-- The registers `c` loaded from the snapshot of `p`; `isExecuting` is not part of it. -/
def Cpu.loadedFrom (c : Cpu) (p : Pcb) : Cpu :=
  { c with
    pc := p.programCounter
    acc := p.accumulator
    x := p.xReg
    y := p.yReg
    z := p.zFlag
    ir := p.lastInstruction }

/-- `serialize(c)`: the PCB after its snapshot is written, `fresh` and ready (R101). -/
def Pcb.serialized (p : Pcb) (c : Cpu) : Pcb := { p.withRegisters c with fresh := true, status := .ready }

/-- `deserialize(h)` on the PCB's side: `fresh <- 0` (R102). -/
def Pcb.deserialized (p : Pcb) : Pcb := { p with fresh := false }

/-- The snapshot as the fixed-width record of R100: six bytes, `zFlag` as 0x00 or 0x01. -/
def Pcb.snapshotBytes (p : Pcb) : List Byte :=
  [p.programCounter, p.accumulator, p.xReg, p.yReg, if p.zFlag then 0x01#8 else 0x00#8, p.lastInstruction]

/-- A PCB with its snapshot read back from the six bytes of R100. DESIGN CHOICE (assumption log 28, unsafe for a
claim about such a byte; no step reads a snapshot back): R100 stores `zFlag` as 0x00 or 0x01 and says nothing of any
other byte there; the model reads 0x02 to 0xFF as `Z = 1`. -/
def Pcb.withSnapshotBytes (p : Pcb) : List Byte → Option Pcb
  | [pc, acc, x, y, z, ir] =>
    some { p with
      programCounter := pc
      accumulator := acc
      xReg := x
      yReg := y
      zFlag := z != 0x00#8
      lastInstruction := ir }
  | _ => none

/-! ## CPU reset, trap entry, and the restore -/

/-- `reset()`: every register zero, `isExecuting` clear, one display snapshot; no PCB, memory, queue or disk changes
(40_cycle.md R77, 70_reset_and_hazards.md R175). -/
def State.cpuReset (s : State) : State := (s.setCpu Cpu.initial).emitSnapshot

/-- The executing process's pid. -/
def State.executingPid (s : State) : Option Nat := s.executing.map (·.pid)

/-- Trap entry, the ONE way an instruction is aborted or ended: "for a fault or BRK the CPU enqueues the record and
resets"; nothing is saved and no mode is switched (60_exceptions.md R150). With no executing process there is no pid
to name and no record is enqueued (assumption log 7; no cycle runs then, R66). -/
def State.takeTrap (s : State) (record : Nat → Interrupt) (r : CycleResult) : State :=
  ((match s.executingPid with
    | some pid => s.enqueue (record pid)
    | none => s).cpuReset).setResult r

/-- The fault path (40_cycle.md R75): report the error text, enqueue `ERR_PROGRAM(pid)`, reset. -/
def State.takeFault (s : State) (c : FaultCause) : State :=
  (s.report (.executionFault c s.executingPid)).takeTrap .errProgram (.fault c)

/-- The break path (43_control.md R96): enqueue `BREAK_PROGRAM(pid)`, reset; no text. -/
def State.takeBreak (s : State) : State := s.takeTrap .breakProgram .brk

/-- The restore at the start of a cycle (40_cycle.md R67). It is the machine's only resumption: there is no
return-from-trap (60_exceptions.md R164). -/
def State.restoreIfFresh (s : State) : State :=
  match s.executing with
  | none => s
  | some p =>
    if p.fresh then (s.setCpu (s.cpu.loadedFrom p)).setExecuting (some p.deserialized) else s

/-! ## Completion of a successful instruction -/

/-- The end-of-instruction increment, mod 256 (R72). -/
def State.incrementPc (s : State) : State := s.setPc (s.cpu.pc + 1)

/-- The mirror of the live registers into the executing PCB; `fresh` is left as it is (R73). -/
def State.mirror (s : State) : State := s.setExecuting (s.executing.map (·.withRegisters s.cpu))

/-- What every instruction does once it has succeeded: PC increment, mirror, display snapshot (R72 to R74). -/
def State.complete (s : State) : State := (s.incrementPc.mirror.emitSnapshot).setResult .ok

end Sys2Proof.Machine
end

