-- ==== Sys2Proof/Machine/Operands.lean ====
section
/-! DEFINITION. Every operand form: immediate, relative, absolute (read, write), and the implicit operands of SYS. -/

namespace Sys2Proof.Machine

/-- `IMM`: the operand is the byte itself, "no extension or scaling applies" (30_encoding.md R57). -/
def immOperand (imm8 : Byte) : Byte := imm8

/-- `REL`: the offset is added to `PC` modulo 256 (R58, 43_control.md R94). -/
def relTarget (pc rel8 : Byte) : Byte := pc + rel8

/-- The logical address of an `ABS` operand, used unchanged as the `k` of `MemRead`/`MemWrite` (R59). -/
def absLogical (addr : Addr) : Nat := addr.toNat

/-- Read the `ABS` operand `mem[arg]`; outside the segment it is an operand fault (60_exceptions.md R140). -/
def State.readOperand (s : State) (addr : Addr) : Except FaultCause Byte :=
  match s.memRead (absLogical addr) with
  | .error _ => .error .operandSegFault
  | .ok v => .ok v

/-- Write the `ABS` operand; on a fault nothing is written (20_memory.md R40). -/
def State.writeOperand (s : State) (addr : Addr) (v : Byte) : Except FaultCause State :=
  match s.memWrite (absLogical addr) v with
  | .error _ => .error .operandSegFault
  | .ok t => .ok t

/-- An execute step that ends in a cause takes the fault path; one that succeeds completes (40_cycle.md R71). -/
def finish (s : State) : Except FaultCause State → Host.Outcome State Fault Refusal
  | .error c => .next (s.takeFault c)
  | .ok t => .next t.complete

/-- The ASCII code of a decimal digit. -/
def digitByte (d : Nat) : Byte := BitVec.ofNat 8 (0x30 + d)

/-- The decimal digits of `n` before the digits `acc`; `fuel` bounds how many. -/
def decimalDigits : Nat → Nat → List Byte → List Byte
  | 0, _, acc => acc
  | fuel + 1, n, acc =>
    if n < 10 then digitByte n :: acc else decimalDigits fuel (n / 10) (digitByte (n % 10) :: acc)

/-- `decimalText(n)`: unsigned, no leading zeros (44_system.md R98; also the digits of a swap name, 46_disk_fs.md
R134). -/
def decimalText (n : Nat) : List Byte := decimalDigits (n + 1) n []

/-- The string read of SYS: the bytes from logical `k` up to the first 0x00; `k` is not reduced mod 256 (R98). The
loop ends within `MEM_SIZE + 1` reads, so that fuel is never used up (assumption log 21). -/
def State.readStringFrom (s : State) : Nat → Nat → Except FaultCause (List Byte)
  | 0, _ => .error .sysStringSegFault
  | fuel + 1, k =>
    match s.memRead k with
    | .error _ => .error .sysStringSegFault
    | .ok b =>
      if b = 0x00#8 then .ok []
      else (s.readStringFrom fuel (k + 1)).map fun rest => b :: rest

/-- The null-terminated string that starts at logical `k` (R98). -/
def State.readString (s : State) (k : Nat) : Except FaultCause (List Byte) :=
  s.readStringFrom (s.cfg.memSize + 1) k

end Sys2Proof.Machine
end

