-- ==== Sys2Proof/Machine/Arith.lean ====
section
/-! DEFINITION. Arithmetic and compare (42_arith_compare.md). -/

namespace Sys2Proof.Machine

/-- ADC absolute: `ACC <- (ACC + mem[addr]) mod 256`, no flag (R89). -/
def execAdc (addr : Addr) (s : State) : Host.Outcome State Fault Refusal :=
  finish s ((s.readOperand addr).map fun v => s.setAcc (aluAdd s.cpu.acc v))

/-- INC absolute: `mem[addr] <- (mem[addr] + 1) mod 256`; a fault is raised by the read, before the write (R90). -/
def execInc (addr : Addr) (s : State) : Host.Outcome State Fault Refusal :=
  finish s ((s.readOperand addr).bind fun v => s.writeOperand addr (aluInc v))

/-- CPX absolute: `Z <- (mem[addr] = X)`; the only instruction that writes `Z` (R91). -/
def execCpx (addr : Addr) (s : State) : Host.Outcome State Fault Refusal :=
  finish s ((s.readOperand addr).map fun v => s.setZ (compareFlag v s.cpu.x))

end Sys2Proof.Machine
end

