-- ==== Sys2Proof/Machine/Control.lean ====
section
/-! DEFINITION. Control transfer (43_control.md). -/

namespace Sys2Proof.Machine

/-- BNE relative: if `Z = 0` then `PC <- (PC + rel8) mod 256`, `PC` being the offset byte's address; the cycle's
increment follows (R94). -/
def execBne (rel : Byte) (s : State) : Host.Outcome State Fault Refusal :=
  finish s (.ok (if branchTaken s.cpu.z then s.setPc (relTarget s.cpu.pc rel) else s))

/-- NOP: nothing; the cycle then increments `PC` (R95). -/
def execNop (s : State) : Host.Outcome State Fault Refusal := finish s (.ok s)

/-- BRK: the break path; no PC increment, no mirror (R96). -/
def execBrk (s : State) : Host.Outcome State Fault Refusal := .next s.takeBreak

end Sys2Proof.Machine
end

