-- ==== Sys2Proof/Machine/LoadStore.lean ====
section
/-! DEFINITION. Loads and stores (41_load_store.md). -/

namespace Sys2Proof.Machine

/-- LDA immediate: `ACC <- imm8` (R81). -/
def execLdaImm (imm : Byte) (s : State) : Host.Outcome State Fault Refusal :=
  finish s (.ok (s.setAcc (immOperand imm)))

/-- LDA absolute: `ACC <- mem[addr]` (R82). -/
def execLdaAbs (addr : Addr) (s : State) : Host.Outcome State Fault Refusal :=
  finish s ((s.readOperand addr).map fun v => s.setAcc v)

/-- STA absolute: `mem[addr] <- ACC` (R83). -/
def execSta (addr : Addr) (s : State) : Host.Outcome State Fault Refusal :=
  finish s (s.writeOperand addr s.cpu.acc)

/-- LDX immediate: `X <- imm8` (R84). -/
def execLdxImm (imm : Byte) (s : State) : Host.Outcome State Fault Refusal :=
  finish s (.ok (s.setX (immOperand imm)))

/-- LDX absolute: `X <- mem[addr]` (R85). -/
def execLdxAbs (addr : Addr) (s : State) : Host.Outcome State Fault Refusal :=
  finish s ((s.readOperand addr).map fun v => s.setX v)

/-- LDY immediate: `Y <- imm8` (R86). -/
def execLdyImm (imm : Byte) (s : State) : Host.Outcome State Fault Refusal :=
  finish s (.ok (s.setY (immOperand imm)))

/-- LDY absolute: `Y <- mem[addr]` (R87). -/
def execLdyAbs (addr : Addr) (s : State) : Host.Outcome State Fault Refusal :=
  finish s ((s.readOperand addr).map fun v => s.setY v)

end Sys2Proof.Machine
end

