-- ==== Sys2Proof/Machine/System.lean ====
section
/-! DEFINITION. The system instruction (44_system.md). -/

namespace Sys2Proof.Machine

/-- SYS: service 1 prints `Y` in decimal, service 2 prints the null-terminated string at logical `Y` in one report
after the whole string is read, any other selector is `InvalidSysArg` (R98); the output is `putText` (R99). -/
def execSys (s : State) : Host.Outcome State Fault Refusal :=
  if s.cpu.x = 0x01#8 then finish s (.ok (s.putText (decimalText s.cpu.y.toNat)))
  else if s.cpu.x = 0x02#8 then finish s ((s.readString s.cpu.y.toNat).map fun text => s.putText text)
  else finish s (.error .invalidSysArg)

end Sys2Proof.Machine
end

