-- ==== Sys2Proof/Machine/Dispatch.lean ====
section
/-! DEFINITION. The execute step: one arm per instruction (40_cycle.md R71). -/

namespace Sys2Proof.Machine

def exec (i : Instr) (s : State) : Host.Outcome State Fault Refusal :=
  match i with
  | .brk => Sys2Proof.Machine.execBrk s
  | .adc addr => Sys2Proof.Machine.execAdc addr s
  | .sta addr => Sys2Proof.Machine.execSta addr s
  | .ldyImm imm => Sys2Proof.Machine.execLdyImm imm s
  | .ldxImm imm => Sys2Proof.Machine.execLdxImm imm s
  | .ldaImm imm => Sys2Proof.Machine.execLdaImm imm s
  | .ldyAbs addr => Sys2Proof.Machine.execLdyAbs addr s
  | .ldaAbs addr => Sys2Proof.Machine.execLdaAbs addr s
  | .ldxAbs addr => Sys2Proof.Machine.execLdxAbs addr s
  | .bne rel => Sys2Proof.Machine.execBne rel s
  | .nop => Sys2Proof.Machine.execNop s
  | .cpx addr => Sys2Proof.Machine.execCpx addr s
  | .inc addr => Sys2Proof.Machine.execInc addr s
  | .sys => Sys2Proof.Machine.execSys s

end Sys2Proof.Machine
end

