-- ==== Sys2Proof/Machine/MemoryManager.lean ====
section
/-! DEFINITION. The memory manager's operations on segments (20_memory.md R38, R42 to R45). -/

namespace Sys2Proof.Machine

/-- A finite set of pids, kept as a strictly rising list: insertion. -/
def insertPid (pid : Nat) : List Nat → List Nat
  | [] => [pid]
  | q :: qs => if pid < q then pid :: q :: qs else if pid = q then q :: qs else q :: insertPid pid qs

/-- Removal of a pid from a set of pids. -/
def erasePid (pid : Nat) (ps : List Nat) : List Nat := ps.filter fun q => q != pid

/-- A new PCB (10_state.md R27): resident, registers zero, `fresh = 1`, counters zero, priority `+inf` unless given;
its place is still to be set. -/
def newPcb (pid : Nat) : Pcb where
  pid := pid
  occupiedSegment := none
  location := .undefined
  status := .resident
  priority := .inf
  programCounter := 0x00#8
  accumulator := 0x00#8
  xReg := 0x00#8
  yReg := 0x00#8
  zFlag := false
  lastInstruction := 0x00#8
  fresh := true
  cyclesInReady := 0
  cyclesExecuting := 0

/-- `isFull()`: "iff every segment is occupied" (R38). -/
def State.isFull (s : State) : Bool := s.occ.all fun o => o

/-- "the first unoccupied segment in table order": the least free index (R42). -/
def State.freeSegment (s : State) : Option Nat := s.occ.findIdx? fun o => !o

/-- The placement shared by `load` and `loadFromPCB`: take the first free segment, write the program there up to
the segment's end, mark it occupied (R42, R43). -/
def State.place (s : State) (program : List Byte) : Except MmError (Nat × State) :=
  match s.freeSegment with
  | none => .error .outOfMemory
  | some i =>
    match s.seg[i]? with
    | none => .error .outOfMemory
    | some g =>
      .ok (i, { s with
        mem := Memory.writeBytes s.mem g.base (program.take s.cfg.segSize)
        occ := s.occ.set i true })

/-- `load(program, pid)` (R42): the new PCB and the state; on `OutOfMemory` nothing is changed. -/
def State.load (s : State) (program : List Byte) (pid : Nat) : Except MmError (Pcb × State) :=
  match s.place program with
  | .error e => .error e
  | .ok (i, t) =>
    .ok ({ newPcb pid with occupiedSegment := some i, location := .memory },
      { t with reg := insertPid pid t.reg })

/-- `loadFromPCB(p, program)` (R43): the roll-in placement of an existing PCB. -/
def State.loadFromPcb (s : State) (p : Pcb) (program : List Byte) : Except MmError (Pcb × State) :=
  match s.place program with
  | .error e => .error e
  | .ok (i, t) =>
    .ok ({ p with occupiedSegment := some i, location := .memory },
      { t with reg := insertPid p.pid t.reg })

/-- Zero-fill segment `i` and mark it free (R44, R45). -/
def State.releaseSegment (s : State) (i : Nat) : State :=
  match s.seg[i]? with
  | none => s
  | some g => { s with mem := Memory.zeroRange s.mem g.base g.size, occ := s.occ.set i false }

/-- Free the segment of a PCB, whichever it is, and take its pid out of the registry (R44, R45). -/
def State.vacate (s : State) (p : Pcb) : State :=
  let t := match p.occupiedSegment with
    | none => s
    | some i => s.releaseSegment i
  { t with reg := erasePid p.pid t.reg }

/-- `evacuate(p)` (R44): "for a given PCB not in `REG` it changes nothing"; `location` is left as it was. -/
def State.evacuate (s : State) (p : Pcb) : Pcb × State :=
  if p.pid ∈ s.reg then ({ p with occupiedSegment := none }, s.vacate p) else (p, s)

/-- Every PCB the scheduler holds. -/
def State.allPcbs (s : State) : List Pcb := s.executing.toList ++ s.ready ++ s.resident ++ s.terminated

/-- `evacuate()` with no PCB given: every PCB in the registry (R44). -/
def State.evacuateAll (s : State) : State :=
  let clear (p : Pcb) : Pcb := if p.pid ∈ s.reg then { p with occupiedSegment := none } else p
  let t := (s.allPcbs.filter fun p => decide (p.pid ∈ s.reg)).foldl State.vacate s
  { t with
    executing := t.executing.map clear
    ready := t.ready.map clear
    resident := t.resident.map clear
    terminated := t.terminated.map clear }

/-- `dequeueDiskCandidate(p)` (R45): the homeless PCB, exactly `SEG_SIZE` image bytes, and the state with the segment
zero-filled and free. -/
def State.dequeueDiskCandidate (s : State) (p : Pcb) : Except MmError (Pcb × List Byte × State) :=
  if p.pid ∈ s.reg then
    match p.occupiedSegment with
    | none => .error (.notResident p.pid)
    | some i =>
      match s.seg[i]? with
      | none => .error (.notResident p.pid)
      | some g =>
        .ok ({ p with occupiedSegment := none, location := .undefined },
          Memory.readBytes s.mem g.base s.cfg.segSize, s.vacate p)
  else .error (.notResident p.pid)

end Sys2Proof.Machine
end

