-- ==== Sys2Proof/Machine/DiskController.lean ====
section
/-! DEFINITION. The disk and its block-addressed file-system controller (46_disk_fs.md). Every operation either
answers the new disk or an error that changes nothing (R123). -/

namespace Sys2Proof.Machine

/-! ## Blocks and their stored form -/

/-- The state of a block (R119). -/
inductive BlockState where
  | available
  | occupied
deriving DecidableEq, Repr

/-- A FileSystemBlock; its location is its address, not stored data (R119). -/
structure FsBlock where
  state : BlockState
  pointer : DiskLoc
  content : List Byte
deriving DecidableEq, Repr

/-- 60 zero bytes. -/
def zeroContent : List Byte := List.replicate Config.blockPayload 0x00#8

/-- `freshBlock(L)`: AVAILABLE, self-pointing, zero content (R121). -/
def freshBlock (l : DiskLoc) : FsBlock where
  state := .available
  pointer := l
  content := zeroContent

/-- The state byte: 0x00 AVAILABLE, 0x01 OCCUPIED (R120). -/
def BlockState.byte : BlockState → Byte
  | .available => 0x00#8
  | .occupied => 0x01#8

/-- The state of a state byte; any other byte is corrupt (R120). -/
def BlockState.ofByte (b : Byte) : Option BlockState :=
  if b = 0x00#8 then some .available else if b = 0x01#8 then some .occupied else none

/-- The stored form of a block: byte 0 the state, bytes 1 to 3 the pointer, bytes 4 to 63 the content (R120). -/
def FsBlock.encode (b : FsBlock) : List Byte :=
  b.state.byte :: BitVec.ofNat 8 b.pointer.t :: BitVec.ofNat 8 b.pointer.s :: BitVec.ofNat 8 b.pointer.b :: b.content

/-- The block of a stored form; "a state byte other than 0x00 or 0x01, or a pointer outside the grid, decodes as a
corrupt block" (R120), here `none`. -/
def FsBlock.decode (c : Config) : List Byte → Option FsBlock
  | st :: t :: s :: b :: content =>
    match BlockState.ofByte st with
    | none => none
    | some state =>
      if DiskLoc.onGrid c ⟨t.toNat, s.toNat, b.toNat⟩ then
        some { state := state, pointer := ⟨t.toNat, s.toNat, b.toNat⟩, content := content }
      else none
  | _ => none

/-- What an unlisted block of the disk reads as: `freshBlock` of its location in stored form (R121). -/
def unlistedBlock (key : Nat) : List Byte := (freshBlock (DiskLoc.ofKey key)).encode

/-- The stored bytes of the block at `l`. -/
def Disk.stored (d : Disk) (l : DiskLoc) : List Byte := Sparse.read unlistedBlock d.blocks l.key

/-- Read a block; a corrupt one is `CorruptChain` "wherever it is read" (R120; assumption log 9). -/
def Disk.readBlock (c : Config) (d : Disk) (l : DiskLoc) : Except FsError FsBlock :=
  match FsBlock.decode c (d.stored l) with
  | none => .error .corruptChain
  | some b => .ok b

/-- Write a block's stored form. -/
def Disk.writeBlock (d : Disk) (l : DiskLoc) (b : FsBlock) : Disk :=
  { d with blocks := Sparse.write unlistedBlock d.blocks l.key b.encode }

/-- Reset a block (R121). -/
def Disk.resetBlock (d : Disk) (l : DiskLoc) : Disk := d.writeBlock l (freshBlock l)

/-! ## Names, lookup, allocation -/

/-- The bytes before the first 0x00 byte. -/
def cutAtZero (bs : List Byte) : List Byte := bs.takeWhile fun b => b != 0x00#8

/-- `n` bytes: the bytes `bs`, then zeros. -/
def padTo (n : Nat) (bs : List Byte) : List Byte := bs ++ List.replicate (n - bs.length) 0x00#8

/-- The block is OCCUPIED. -/
def FsBlock.isOccupied (b : FsBlock) : Bool := b.state == .occupied

/-- The first location whose block satisfies `p`, reading blocks in order. -/
def Disk.findBlock (c : Config) (d : Disk) (p : FsBlock → Bool) : List DiskLoc → Except FsError (Option DiskLoc)
  | [] => .ok none
  | l :: rest =>
    match d.readBlock c l with
    | .error e => .error e
    | .ok b => if p b then .ok (some l) else d.findBlock c p rest

/-- The locations whose block satisfies `p`, in order. -/
def Disk.filterBlocks (c : Config) (d : Disk) (p : FsBlock → Bool) : List DiskLoc → Except FsError (List DiskLoc)
  | [] => .ok []
  | l :: rest =>
    match d.readBlock c l with
    | .error e => .error e
    | .ok b =>
      match d.filterBlocks c p rest with
      | .error e => .error e
      | .ok ls => .ok (if p b then l :: ls else ls)

/-- `lookup(name)`: the OCCUPIED directory-region block that stores `name` (R125). -/
def Disk.lookup (c : Config) (d : Disk) (name : List Byte) : Except FsError (Option DiskLoc) :=
  d.findBlock c (fun b => b.isOccupied && cutAtZero b.content == name) (directoryRegion c)

/-- `lookup(name) else FileNotFound`. -/
def Disk.lookupFile (c : Config) (d : Disk) (name : List Byte) : Except FsError DiskLoc :=
  match d.lookup c name with
  | .error e => .error e
  | .ok none => .error (.fileNotFound name)
  | .ok (some l) => .ok l

/-- `claimDir()`: the first AVAILABLE directory-region block (R124). -/
def Disk.claimDir (c : Config) (d : Disk) : Except FsError DiskLoc :=
  match d.findBlock c (fun b => !b.isOccupied) (directoryRegion c) with
  | .error e => .error e
  | .ok none => .error .noSpace
  | .ok (some l) => .ok l

/-- The AVAILABLE content-region blocks in order; `n` calls of `claimContent()` take its first `n` (R124). -/
def Disk.freeContent (c : Config) (d : Disk) : Except FsError (List DiskLoc) :=
  d.filterBlocks c (fun b => !b.isOccupied) (contentRegion c)

/-! ## The chain walk -/

/-- Follow pointers from the block `cur` at `l` until one points to itself, at most `hops` times: the content blocks
visited, in chain order (R126). A visited AVAILABLE block, or too many hops, is `CorruptChain`; a pointer off the
grid makes the block that holds it unreadable (R120). -/
def Disk.walkFrom (c : Config) (d : Disk) : Nat → DiskLoc → FsBlock → Except FsError (List DiskLoc)
  | hops, l, cur =>
    if cur.pointer = l then .ok []
    else
      match hops with
      | 0 => .error .corruptChain
      | hops + 1 =>
        match d.readBlock c cur.pointer with
        | .error e => .error e
        | .ok next =>
          if next.isOccupied then
            match d.walkFrom c hops cur.pointer next with
            | .error e => .error e
            | .ok ls => .ok (cur.pointer :: ls)
          else .error .corruptChain

/-- The content blocks of the file whose directory block is at `l`, in chain order; the terminus is the last of them,
or `l` itself for an empty file (R126). -/
def Disk.walk (c : Config) (d : Disk) (l : DiskLoc) : Except FsError (List DiskLoc) :=
  match d.readBlock c l with
  | .error e => .error e
  | .ok b => d.walkFrom c c.gridBlocks l b

/-- The concatenated contents of the blocks at the given locations. -/
def Disk.contents (c : Config) (d : Disk) : List DiskLoc → Except FsError (List Byte)
  | [] => .ok []
  | l :: rest =>
    match d.readBlock c l with
    | .error e => .error e
    | .ok b =>
      match d.contents c rest with
      | .error e => .error e
      | .ok bs => .ok (b.content ++ bs)

/-! ## The operations -/

/-- `format()` (R127): every block fresh, formatted, no swaps. It never fails. -/
def Disk.format (_d : Disk) : Disk := { blocks := [], formatted := true, swaps := [] }

/-- `createFile(name)` (R128). -/
def Disk.createFile (c : Config) (d : Disk) (name : List Byte) : Except FsError Disk :=
  if d.formatted then
    if validFileName name then
      match d.lookup c name with
      | .error e => .error e
      | .ok (some _) => .error (.fileExists name)
      | .ok none =>
        match d.claimDir c with
        | .error e => .error e
        | .ok l =>
          .ok (d.writeBlock l
            { state := .occupied, pointer := l, content := padTo Config.blockPayload name })
    else .error (.invalidName name)
  else .error .notFormatted

/-- Cut bytes into pieces of `BLOCK_PAYLOAD` bytes, the last one shorter; `fuel` bounds how many. -/
def chunksOf : Nat → List Byte → List (List Byte)
  | 0, _ => []
  | fuel + 1, bs =>
    if bs.isEmpty then []
    else bs.take Config.blockPayload :: chunksOf fuel (bs.drop Config.blockPayload)

/-- The payload pieces of `bs`. -/
def payloadChunks (bs : List Byte) : List (List Byte) := chunksOf bs.length bs

/-- Write the pieces into the claimed blocks as a chain whose last block points to itself (R129). -/
def Disk.writeChain (d : Disk) : List DiskLoc → List (List Byte) → Disk
  | l :: ls, piece :: pieces =>
    let pointer := match ls with
      | [] => l
      | l' :: _ => l'
    Disk.writeChain
      (d.writeBlock l { state := .occupied, pointer := pointer, content := padTo Config.blockPayload piece })
      ls pieces
  | _, _ => d

/-- Bytes written over `content` from offset `off` on. -/
def patchAt (content : List Byte) (off : Nat) (bs : List Byte) : List Byte :=
  content.take off ++ bs ++ content.drop (off + bs.length)

/-- Extend the chain at its terminus `t` (block `b`): `head` goes into the terminus from offset `off` on, each piece
into a newly claimed block; `NoSpace`, with nothing changed, when too few content blocks are AVAILABLE (R129). -/
def Disk.extend (c : Config) (d : Disk) (t : DiskLoc) (b : FsBlock) (off : Nat) (head : List Byte)
    (pieces : List (List Byte)) : Except FsError Disk :=
  match d.freeContent c with
  | .error e => .error e
  | .ok free =>
    if free.length < pieces.length then .error .noSpace
    else
      let claimed := free.take pieces.length
      let pointer := match claimed with
        | [] => b.pointer
        | l :: _ => l
      .ok ((d.writeBlock t { b with pointer := pointer, content := patchAt b.content off head }).writeChain
        claimed pieces)

/-- `appendToFile(name, data)` (R129). An empty file claims `max(1, ceil(len / 60))` content blocks; otherwise the
bytes go to the terminus from its first 0x00 byte on and spill into newly claimed blocks. The blocks are filled whole
instead of byte by byte (assumption log 15). -/
def Disk.appendToFile (c : Config) (d : Disk) (name data : List Byte) : Except FsError Disk :=
  if d.formatted then
    match d.lookupFile c name with
    | .error e => .error e
    | .ok l =>
      match d.walk c l with
      | .error e => .error e
      | .ok blocks =>
        match blocks.getLast? with
        | none =>
          match d.readBlock c l with
          | .error e => .error e
          | .ok b => d.extend c l b 0 [] (if data.isEmpty then [[]] else payloadChunks data)
        | some t =>
          match d.readBlock c t with
          | .error e => .error e
          | .ok b =>
            let off := (cutAtZero b.content).length
            let room := Config.blockPayload - off
            d.extend c t b off (data.take room) (payloadChunks (data.drop room))
  else .error .notFormatted

/-- `readRaw(name)` (R131): the whole concatenation, 60 bytes per content block. -/
def Disk.readRaw (c : Config) (d : Disk) (name : List Byte) : Except FsError (List Byte) :=
  if d.formatted then
    match d.lookupFile c name with
    | .error e => .error e
    | .ok l =>
      match d.walk c l with
      | .error e => .error e
      | .ok blocks => d.contents c blocks
  else .error .notFormatted

/-- `readFile(name)` (R130): the concatenation cut at its first 0x00 byte. -/
def Disk.readFile (c : Config) (d : Disk) (name : List Byte) : Except FsError (List Byte) :=
  (d.readRaw c name).map cutAtZero

/-- `deleteFile(name)` (R132): every block of the chain becomes fresh. -/
def Disk.deleteFile (c : Config) (d : Disk) (name : List Byte) : Except FsError Disk :=
  if d.formatted then
    match d.lookupFile c name with
    | .error e => .error e
    | .ok l =>
      match d.walk c l with
      | .error e => .error e
      | .ok blocks => .ok ((l :: blocks).foldl Disk.resetBlock d)
  else .error .notFormatted

/-- The names stored in the given blocks, in order. -/
def Disk.namesAt (c : Config) (d : Disk) : List DiskLoc → Except FsError (List (List Byte))
  | [] => .ok []
  | l :: rest =>
    match d.readBlock c l with
    | .error e => .error e
    | .ok b =>
      match d.namesAt c rest with
      | .error e => .error e
      | .ok names => .ok (cutAtZero b.content :: names)

/-- The name begins with "." (0x2E) and is hidden from `ls` (R125, R133). -/
def isDotName (name : List Byte) : Bool := name.head? == some 0x2E#8

/-- `ls()` (R133): the names of the OCCUPIED directory blocks that do not begin with ".", in location order. -/
def Disk.ls (c : Config) (d : Disk) : Except FsError (List (List Byte)) :=
  if d.formatted then
    match d.filterBlocks c FsBlock.isOccupied (directoryRegion c) with
    | .error e => .error e
    | .ok locs => (d.namesAt c locs).map fun names => names.filter fun n => !isDotName n
  else .error .notFormatted

/-! ## Swap files -/

/-- `deriveSwapFileName(pid)`: the bytes of ".swap" and the decimal digits of `pid` (R134). -/
def swapName (pid : Nat) : List Byte := [0x2E#8, 0x73#8, 0x77#8, 0x61#8, 0x70#8] ++ decimalText pid

/-- `swapLoad(program, p)` (R135): create the swap file, write the program, record the pid; on an error nothing is
changed. -/
def Disk.swapLoad (c : Config) (d : Disk) (program : List Byte) (pid : Nat) : Except FsError Disk :=
  match d.createFile c (swapName pid) with
  | .error e => .error e
  | .ok d1 =>
    match d1.appendToFile c (swapName pid) program with
    | .error e => .error e
    | .ok d2 => .ok { d2 with swaps := insertPid pid d2.swaps }

/-- `deleteSwap(pid)` (R136): the image read back, and the disk without the swap file. -/
def Disk.deleteSwap (c : Config) (d : Disk) (pid : Nat) : Except FsError (List Byte × Disk) :=
  if d.formatted then
    if pid ∈ d.swaps then
      match d.readRaw c (swapName pid) with
      | .error e => .error e
      | .ok img =>
        match d.deleteFile c (swapName pid) with
        | .error e => .error e
        | .ok d1 => .ok (img, { d1 with swaps := erasePid pid d1.swaps })
    else .error (.noActiveSwap pid)
  else .error .notFormatted

end Sys2Proof.Machine
end

