-- ==== Sys2Proof/Machine/Scheduler.lean ====
section
/-! DEFINITION. The context-switch serializer, dispatch, roll-in and roll-out, the switch policy, statistics and
termination (45_context_switch.md). -/

namespace Sys2Proof.Machine

/-! ## Queues of PCBs -/

/-- `a < b` on priorities; `+inf` sorts after every number (R105). -/
def Priority.lt : Priority → Priority → Bool
  | .finite m, .finite n => decide (m < n)
  | .finite _, .inf => true
  | .inf, _ => false

/-- Before the first entry whose priority is greater, after every other (R105). -/
def insertByPriority (p : Pcb) : List Pcb → List Pcb
  | [] => [p]
  | q :: qs => if p.priority.lt q.priority then p :: q :: qs else q :: insertByPriority p qs

/-- `readyInsert(p)` on the queue (R105). -/
def readyInsert (policy : Policy) (p : Pcb) (queue : List Pcb) : List Pcb :=
  match policy with
  | .rr => queue ++ [p]
  | .fcfs => queue ++ [p]
  | .priority => insertByPriority p queue

/-- `RESIDENT[pid] <- p`: the map is kept by rising pid. -/
def insertByPid (p : Pcb) : List Pcb → List Pcb
  | [] => [p]
  | q :: qs => if p.pid < q.pid then p :: q :: qs else if p.pid = q.pid then p :: qs else q :: insertByPid p qs

/-- The entry of a pid. -/
def findPid (pid : Nat) (ps : List Pcb) : Option Pcb := ps.find? fun p => p.pid == pid

/-- The list without its first entry of a pid. -/
def removePid (pid : Nat) (ps : List Pcb) : List Pcb := ps.eraseP fun p => p.pid == pid

/-- The list with its first entry of `p`'s pid replaced by `p`. -/
def replacePid (p : Pcb) : List Pcb → List Pcb
  | [] => []
  | q :: qs => if q.pid = p.pid then p :: qs else q :: replacePid p qs

/-! ## Residency and readiness -/

/-- The priority of a load request: as given, or `+inf` (R103). -/
def requestedPriority : Option Int → Priority
  | none => .inf
  | some n => .finite n

/-- The memory or disk placement of `requestResidency` (R103): a program for the disk is truncated to `SEG_SIZE`
first. -/
def State.placeProgram (s : State) (program : List Byte) (pid : Nat) : Except ComponentError (Pcb × State) :=
  if s.isFull then
    match s.disk.swapLoad s.cfg (program.take s.cfg.segSize) pid with
    | .error e => .error (.fs e)
    | .ok d => .ok ({ newPcb pid with occupiedSegment := none, location := .disk }, { s with disk := d })
  else
    match s.load program pid with
    | .error e => .error (.mm e)
    | .ok r => .ok r

/-- `requestResidency(program, priority)` (R103): the new pid and the state; on an error nothing has changed. -/
def State.requestResidency (s : State) (program : List Byte) (priority : Option Int) :
    Except ComponentError (Nat × State) :=
  match s.placeProgram program s.nextPid with
  | .error e => .error e
  | .ok (p, t) =>
    .ok (s.nextPid, { t with
      nextPid := s.nextPid + 1
      resident := insertByPid { p with status := .resident, priority := requestedPriority priority } t.resident })

/-- `requestCPUExecution(pid)` (R104); `none` is `false`, the pid was not found. -/
def State.requestCpuExecution (s : State) (pid : Nat) : Option State :=
  match findPid pid s.resident with
  | none => none
  | some p =>
    some { s with
      resident := removePid pid s.resident
      ready := readyInsert s.cfg.policy { p with status := .ready } s.ready }

/-! ## Termination -/

/-- The disk is formatted, `pid` is in `SWAPS`, and its swap file exists (R110, R116); a lookup that meets a corrupt
block is its error. -/
def State.swapFilePresent (s : State) (pid : Nat) : Except FsError Bool :=
  if s.disk.formatted = true ∧ pid ∈ s.disk.swaps then
    match s.disk.lookup s.cfg (swapName pid) with
    | .error e => .error e
    | .ok l => .ok l.isSome
  else .ok false

/-- Reclaim the swap file of `pid`, if there is one; the image is discarded (R116). An error met on the way is reported
and the disk stays as it is (60_exceptions.md R151; assumption log 25). -/
def State.reclaimSwap (s : State) (pid : Nat) : State :=
  match s.swapFilePresent pid with
  | .error e => s.report (.reclaimFailed pid e)
  | .ok false => s
  | .ok true =>
    match s.disk.deleteSwap s.cfg pid with
    | .error e => s.report (.reclaimFailed pid e)
    | .ok (_, d) => { s with disk := d }

/-- Reclaim the segment or the swap file of a terminated PCB (R116). -/
def State.reclaim (s : State) (p : Pcb) : Pcb × State :=
  match p.location with
  | .memory => s.evacuate p
  | .disk => (p, s.reclaimSwap p.pid)
  | .undefined => (p, s)

/-- Forget the quantum count of a pid that is gone (R116, decision D13). -/
def State.forgetQuantum (s : State) (pid : Nat) : State :=
  if s.qPid = some pid then { s with qPid := none, qCount := 0 } else s

/-- The part of `terminate` after the PCB has been taken out of its place (R116). -/
def State.finishTermination (s : State) (p : Pcb) (wasExec : Bool) : State :=
  let (q, t) := (s.setCpu { s.cpu with isExecuting := false }).reclaim { p with status := .terminated }
  let t := { t with terminated := t.terminated ++ [q] }
  let t := if wasExec then t.cpuReset else t
  (t.forgetQuantum p.pid).report (.terminated p.pid p.cyclesInReady (p.cyclesInReady + p.cyclesExecuting))

/-- `terminate(pid)` (R116); `none` is `false`, the pid is not active. -/
def State.terminate (s : State) (pid : Nat) : Option State :=
  let fromReady : Option State :=
    match findPid pid s.ready with
    | some p => some (State.finishTermination { s with ready := removePid pid s.ready } p false)
    | none => none
  match s.executing with
  | some p => if p.pid = pid then some (State.finishTermination { s with executing := none } p true) else fromReady
  | none => fromReady

/-! ## Roll-out and roll-in -/

/-- The PCB's image is in memory. -/
def Pcb.inMemory (p : Pcb) : Bool := p.location == .memory

/-- `victim()`: the entry of `READY` nearest the tail with `location = memory` (R108). -/
def State.victim (s : State) : Option Pcb := s.ready.reverse.find? Pcb.inMemory

/-- `rollOut(v)` (R109): `v` keeps its place in `READY`; on an error nothing is changed. -/
def State.rollOut (s : State) (v : Pcb) : Except ComponentError State :=
  match s.dequeueDiskCandidate v with
  | .error e => .error (.mm e)
  | .ok (w, image, t) =>
    match t.disk.swapLoad t.cfg image w.pid with
    | .error e => .error (.fs e)
    | .ok d => .ok { t with disk := d, ready := replacePid { w with location := .disk } t.ready }

/-- How a roll-in ended (R110). -/
inductive RollIn where
  /-- `OK`: the PCB with its new place, and the state. -/
  | ok (h : Pcb) (s : State)
  /-- `FAIL_KEEP`: nothing but the report has changed. -/
  | failKeep (s : State)
  /-- `FAIL_DROP`: the PCB was terminated. -/
  | failDrop (s : State)

/-- Make a segment free for a roll-in: when memory is full, roll the victim out (R110). -/
def State.makeRoom (s : State) : Except RollError State :=
  if s.isFull then
    match s.victim with
    | none => .error .noVictim
    | some v =>
      match s.rollOut v with
      | .error e => .error (.component e)
      | .ok t => .ok t
  else .ok s

/-- Read the swap image back, delete it and place it in the free segment (R110). -/
def State.loadImage (s : State) (h : Pcb) : Except RollError (Pcb × State) :=
  match s.disk.deleteSwap s.cfg h.pid with
  | .error e => .error (.component (.fs e))
  | .ok (img, d) =>
    match State.loadFromPcb { s with disk := d } h img with
    | .error e => .error (.component (.mm e))
    | .ok r => .ok r

/-- `FAIL_KEEP`: report, change nothing else (R110). -/
def State.rollInKeep (s : State) (h : Pcb) (why : RollError) : RollIn :=
  .failKeep (s.report (.rollInFailed h.pid why))

/-- `FAIL_DROP`: report and terminate the PCB (R110). -/
def State.rollInDrop (s : State) (h : Pcb) : RollIn :=
  let t := s.report (.rollInFailed h.pid .imageLost)
  .failDrop ((t.terminate h.pid).getD t)

/-- The image of `h` is lost: the disk is not formatted, the pid is not in `SWAPS`, or the swap file is absent (R110).
A lookup that meets a corrupt block does not say the file is absent (assumption log 10). -/
def State.imageLost (s : State) (h : Pcb) : Bool :=
  match s.swapFilePresent h.pid with
  | .error _ => false
  | .ok present => !present

/-- `rollIn(h)` for a PCB on disk (R110). -/
def State.rollIn (s : State) (h : Pcb) : RollIn :=
  if s.imageLost h then s.rollInDrop h
  else
    match s.makeRoom with
    | .error why => s.rollInKeep h why
    | .ok t =>
      match t.loadImage h with
      | .error why => s.rollInKeep h why
      | .ok (h', u) => .ok h' u

/-! ## Dispatch -/

/-- Take the head off `READY` and make `h` the executing process (R106, R107). -/
def State.startProcess (s : State) (h : Pcb) : State :=
  { s with
    ready := s.ready.tail
    executing := some { h with status := .running }
    cpu := { s.cpu with isExecuting := true } }

/-- `next()` (R106): afterwards `EXEC` is the process to run, or still `null`. -/
def State.nextProcess (s : State) : State :=
  match s.executing with
  | some _ => s
  | none =>
    match s.ready with
    | [] => s
    | h :: _ =>
      if h.location = .disk then
        match s.rollIn h with
        | .failKeep t => t
        | .failDrop t => t
        | .ok h' t => t.startProcess h'
      else s.startProcess h

/-- Undo the serialize and the re-enqueue of `c` after a failed roll-in (R107). -/
def State.undoSwitch (s : State) (c : Pcb) : State :=
  { s with
    ready := removePid c.pid s.ready
    executing := some { c with status := .running, fresh := false }
    cpu := { s.cpu with isExecuting := true } }

/-- Dispatch with the registers restored at once (R107). -/
def State.switchTo (s : State) (h : Pcb) : State :=
  (s.setCpu (s.cpu.loadedFrom h)).startProcess h.deserialized

/-- The executing process leaves the CPU: its serialized PCB `c` is re-queued (R107). -/
def State.requeue (s : State) (c : Pcb) : State :=
  { s with ready := readyInsert s.cfg.policy c s.ready, executing := none }

/-- Dispatch the head of the queue after `c` was re-queued, with a roll-in when it is on disk; a roll-in that fails
undoes the switch (R107). -/
def State.switchToHead (s : State) (c : Pcb) : State :=
  match s.ready with
  | [] => s
  | h :: _ =>
    if h.location = .disk then
      match s.rollIn h with
      | .failKeep t => t.undoSwitch c
      | .failDrop t => t.undoSwitch c
      | .ok h' t => t.switchTo h'
    else s.switchTo h

/-- `contextSwitch()` (R107). -/
def State.contextSwitch (s : State) : State :=
  match s.executing with
  | none => s
  | some p =>
    if s.ready.isEmpty then s.report .switchNoop
    else (s.requeue (p.serialized s.cpu)).switchToHead (p.serialized s.cpu)

/-! ## The policy and the statistics -/

/-- The quantum count after an `OK` cycle of `pid` (R112). -/
def State.quantumCount (s : State) (pid : Nat) : Nat := if s.qPid = some pid then s.qCount + 1 else 1

/-- `policyAfterInstruction(p)` (R112, R113): round robin requests a switch when the quantum is used up, the other
policies never do. -/
def State.policyAfterInstruction (s : State) (pid : Nat) : State :=
  match s.cfg.policy with
  | .rr =>
    if s.cfg.quantum ≤ s.quantumCount pid then
      State.enqueue { s with qPid := some pid, qCount := 0 } .contextSwitch
    else { s with qPid := some pid, qCount := s.quantumCount pid }
  | .fcfs => s
  | .priority => s

/-- `updateStats()` (R115). -/
def State.updateStats (s : State) : State :=
  { s with
    ready := s.ready.map fun q => { q with cyclesInReady := q.cyclesInReady + 1 }
    executing := s.executing.map fun p => { p with cyclesExecuting := p.cyclesExecuting + 1 } }

end Sys2Proof.Machine
end

