-- ==== Sys2Proof/Machine/Kernel.lean ====
section
/-! DEFINITION. The kernel's interrupt handlers (60_exceptions.md R143, R151 to R162). -/

namespace Sys2Proof.Machine

/-- The numeric code of a cause (R140, decision D30). -/
def FaultCause.code : FaultCause → Nat
  | .fetchSegFault => 1
  | .illegalOpcode => 2
  | .argSegFault => 3
  | .operandSegFault => 4
  | .invalidSysArg => 5
  | .sysStringSegFault => 6

/-- The numeric code of a file-system sub-kind (R143). -/
def FsRequest.code : FsRequest → Nat
  | .format => 0
  | .create _ => 1
  | .write _ _ => 2
  | .read _ => 3
  | .delete _ => 4
  | .unrecognized n => n

/-- The numeric code of a record's kind (R143). -/
def Interrupt.code : Interrupt → Nat
  | .timer => 0
  | .keyboard _ => 1
  | .loadProgram _ _ => 2
  | .runProgram _ => 3
  | .breakProgram _ => 4
  | .errProgram _ => 5
  | .requestClearMemory => 6
  | .contextSwitch => 7
  | .runAllPrograms => 8
  | .killProgram _ => 9
  | .fileSystem _ => 10
  | .unrecognized n => n

/-- `LOAD_PROGRAM` (R153): report the new pid, or the error. -/
def State.handleLoad (s : State) (program : List Byte) (priority : Option Int) : State :=
  match s.requestResidency program priority with
  | .error e => s.report (.loadFailed e)
  | .ok (pid, t) => t.report (.loaded pid)

/-- `RUN_PROGRAM` (R154). -/
def State.handleRun (s : State) (pid : Nat) : State :=
  match s.requestCpuExecution pid with
  | none => s.report (.pidNotFound pid)
  | some t => t

/-- `BREAK_PROGRAM`, `ERR_PROGRAM`, `KILL_PROGRAM`: terminate, or report not-found (R155, R156, R160). -/
def State.handleTerminate (s : State) (pid : Nat) : State :=
  match s.terminate pid with
  | none => s.report (.pidNotFound pid)
  | some t => t

/-- The pids of the given PCBs in ascending order. -/
def ascendingPids (ps : List Pcb) : List Nat := ps.foldr (fun p acc => insertPid p.pid acc) []

/-- `REQUEST_CLEAR_MEMORY` for one pid (R157): terminate it when it is executing or ready; take it out of `RESIDENT`
when it is there. -/
def State.clearOne (s : State) (pid : Nat) : State :=
  match s.terminate pid with
  | some t => t
  | none =>
    match findPid pid s.resident with
    | none => s
    | some p =>
      let (q, t) := State.evacuate { s with resident := removePid pid s.resident } { p with status := .terminated }
      { t with terminated := t.terminated ++ [q] }

/-- `REQUEST_CLEAR_MEMORY` (R157): every non-terminated PCB in memory, in ascending pid order. -/
def State.handleClearMemory (s : State) : State :=
  (ascendingPids ((s.executing.toList ++ s.ready ++ s.resident).filter Pcb.inMemory)).foldl State.clearOne s

/-- `RUN_ALL_PROGRAMS` (R159): every resident pid, in ascending order. -/
def State.handleRunAll (s : State) : State :=
  (ascendingPids s.resident).foldl (fun t pid => (t.requestCpuExecution pid).getD t) s

/-- The fatal kernel trap (R162): report it, `halted <- 1`. -/
def State.fatalTrap (s : State) (record : Interrupt) : State :=
  { s.report (.fatalTrap record) with halted := true }

/-- A file-system request that answers a new disk: store it and report success, or report the error (R161, R163). -/
def State.finishFs (s : State) (request : FsRequest) : Except FsError Disk → State
  | .error e => s.report (.fsFailed request e)
  | .ok d => State.report { s with disk := d } (.fsDone request)

/-- `FILE_SYSTEM` (R161). -/
def State.handleFileSystem (s : State) (request : FsRequest) : State :=
  match request with
  | .format => s.finishFs request (.ok s.disk.format)
  | .create name => s.finishFs request (s.disk.createFile s.cfg name)
  | .write name data => s.finishFs request (s.disk.appendToFile s.cfg name data)
  | .read name =>
    match s.disk.readFile s.cfg name with
    | .error e => s.report (.fsFailed request e)
    | .ok text => s.report (.fileText name text)
  | .delete name => s.finishFs request (s.disk.deleteFile s.cfg name)
  | .unrecognized _ => s.fatalTrap (.fileSystem request)

/-- `dispatch(r)`: exactly the handler of the record's kind, with the explicit arm of the fatal trap (R150, R151). -/
def State.handle (s : State) (r : Interrupt) : State :=
  match r with
  | .timer => s
  | .keyboard _ => s
  | .loadProgram program priority => s.handleLoad program priority
  | .runProgram pid => s.handleRun pid
  | .breakProgram pid => s.handleTerminate pid
  | .errProgram pid => s.handleTerminate pid
  | .requestClearMemory => s.handleClearMemory
  | .contextSwitch => s.contextSwitch
  | .runAllPrograms => s.handleRunAll
  | .killProgram pid => s.handleTerminate pid
  | .fileSystem request => s.handleFileSystem request
  | .unrecognized _ => s.fatalTrap r

end Sys2Proof.Machine
end

