-- ==== Sys2Proof/Machine/Cycle.lean ====
section
/-! DEFINITION. Fetch, the cycle, the tick arbiter and the host's side of the interrupt queue (40_cycle.md,
60_exceptions.md R145 to R147). -/

namespace Sys2Proof.Machine

/-! ## Fetch -/

/-- The argument-fetch PC increment: it wraps mod 256 iff `ARG_FETCH_WRAP` (40_cycle.md R70, decision D3). -/
def incArg (c : Config) (pc : Nat) : Nat := if c.argFetchWrap then (pc + 1) % 256 else pc + 1

/-- Fetch one argument byte. `PC` reaches only `[0, min(255, SEG_SIZE - 1)]` (20_memory.md R51): without the wrap the
increment past 0xFF gives 0x100, "and the fetch there is an `ArgSegFault`" (decision D3, 93_implementation_defined.md
I10, 90_conflicts.md C5; assumption log 6). -/
def State.fetchArg (s : State) (pc : Nat) : Except FaultCause Byte :=
  if pc < 256 then
    match s.memRead pc with
    | .error _ => .error .argSegFault
    | .ok b => .ok b
  else .error .argSegFault

/-- Fetch `n` argument bytes, each after incrementing `PC`: the bytes in fetch order and the last `PC` (R70). -/
def State.fetchArgs (s : State) : Nat → Nat → Except FaultCause (List Byte × Nat)
  | 0, pc => .ok ([], pc)
  | n + 1, pc =>
    match s.fetchArg (incArg s.cfg pc) with
    | .error e => .error e
    | .ok b =>
      match s.fetchArgs n (incArg s.cfg pc) with
      | .error e => .error e
      | .ok (bs, last) => .ok (b :: bs, last)

/-- The state at execute time: `IR` holds the opcode (R69), `PC` the address of the instruction's last byte (R70). -/
def State.atExecute (s : State) (op : Byte) (last : Nat) : State :=
  s.setCpu { s.cpu with ir := op, pc := BitVec.ofNat 8 last }

/-- Fetch and decode at `PC` (R68 to R70): the instruction and the state it executes in, or the first cause met. -/
def State.fetch (s : State) : Except FaultCause (Instr × State) :=
  match s.memRead s.cpu.pc.toNat with
  | .error _ => .error .fetchSegFault
  | .ok op =>
    match decodeOpcode op with
    | none => .error .illegalOpcode
    | some o =>
      match s.fetchArgs o.argCount s.cpu.pc.toNat with
      | .error e => .error e
      | .ok (args, last) => .ok (o.instrOfArgs args, s.atExecute op last)

/-! ## The cycle and the tick -/

/-- `cycle(p)` for `p = EXEC` (R79): restore a fresh PCB, fetch, decode, execute. -/
def cycle (s : State) : Host.Outcome State Fault Refusal :=
  match s.restoreIfFresh.fetch with
  | .error c => .next (s.restoreIfFresh.takeFault c)
  | .ok (i, t) => exec i t

/-- What follows the cycle in an instruction tick: statistics always, the policy after `OK` (60_exceptions.md
R147). -/
def State.afterCycle (s : State) (pid : Nat) : State :=
  if s.cycleResult = some .ok then s.updateStats.policyAfterInstruction pid else s.updateStats

/-- An instruction tick for the process `pid = EXEC.pid` (R147). -/
def instructionTick (s : State) (pid : Nat) : Host.Outcome State Fault Refusal :=
  match cycle s with
  | .next t => .next (t.afterCycle pid)
  | .fault f => .fault f
  | .refused r => .refused r

/-- One tick (R147): nothing when halted; else drain one record; else execute one instruction; else idle. -/
def tickStep (s : State) : Host.Outcome State Fault Refusal :=
  if s.halted then .next s
  else
    match s.intq with
    | r :: rest => .next (State.handle { s with intq := rest } r)
    | [] =>
      match s.nextProcess.executing with
      | none => .next s.nextProcess
      | some p => instructionTick s.nextProcess p.pid

/-! ## The host's side -/

/-- `irq_in`: the host appends records between two ticks (R145). -/
def State.hostAppend (s : State) (records : List Interrupt) : State := { s with intq := s.intq ++ records }

/-- The load of a program given as text: a text that parses becomes a `LOAD_PROGRAM` record; a malformed one is
reported as text and nothing is loaded, "no state change beyond the report" (30_encoding.md R64, 60_exceptions.md R163;
assumption log 30). -/
def State.submitProgram (s : State) (text : List Char) (priority : Option Int) : State :=
  match parseProgram text with
  | .error e => s.report (.malformedProgram e)
  | .ok program => s.hostAppend [.loadProgram program priority]

/-- One input of the host. -/
def State.hostInput (s : State) : HostInput → State
  | .record r => s.hostAppend [r]
  | .programText text priority => s.submitProgram text priority

/-- The machine under a host that sends the given inputs before each tick: the only inputs there are (R145). -/
def runWithHost : List (List HostInput) → State → Host.Outcome State Fault Refusal
  | [], s => .next s
  | inputs :: schedule, s =>
    match tickStep (inputs.foldl State.hostInput s) with
    | .next t => runWithHost schedule t
    | .fault f => .fault f
    | .refused r => .refused r

/-! ## Putting an instruction where the next tick fetches -/

/-- The PC of the next fetch: the saved one when the executing PCB is still fresh (R67). -/
def State.nextFetchPc (s : State) : Nat := s.restoreIfFresh.cpu.pc.toNat

/-- Store bytes at the logical addresses an instruction at `pc` is fetched from. -/
def State.storeInstr (s : State) : Nat → List Byte → State
  | _, [] => s
  | pc, b :: bs =>
    match s.memWrite pc b with
    | .error _ => s.storeInstr (incArg s.cfg pc) bs
    | .ok t => t.storeInstr (incArg s.cfg pc) bs

/-- The host's load and the dispatch in one: with no executing process, a new process with an empty program is
placed in the first free segment and made the executing one (R103, R106; assumption log 11). -/
def State.withProcess (s : State) : State :=
  match s.executing with
  | some _ => s
  | none =>
    match s.load [] s.nextPid with
    | .error _ => s
    | .ok (p, t) =>
      { t with
        nextPid := s.nextPid + 1
        executing := some { p with status := .running }
        cpu := { t.cpu with isExecuting := true } }

/-- The state whose next tick fetches the given bytes: not halted, no record pending, a process executing. -/
def State.withFetchBytes (s : State) (bytes : List Byte) : State :=
  let t := State.withProcess { s with halted := false, intq := [] }
  t.storeInstr t.nextFetchPc bytes

end Sys2Proof.Machine
end

