-- ==== Sys2Proof/Machine/Step.lean ====
section
/-! DEFINITION. One step of the machine is one tick (60_exceptions.md R147). -/

namespace Sys2Proof.Machine

/-- The step: one firing of the virtual clock. -/
def step (s : State) : Host.Outcome State Fault Refusal := tickStep s

/-- `s` with the instruction whose bits are `w` (numbered as spec/opcode_table.json numbers them, zero above
`nbits`) where the next tick fetches. From reset it stands for the host's `LOAD_PROGRAM` and `RUN_PROGRAM`
(assumption log 11). -/
def State.withFetchWord (s : State) (nbits w : Nat) : State := s.withFetchBytes (tableWordBytes nbits w)

end Sys2Proof.Machine
end

