-- ==== Sys2Proof/Safety.lean ====
section
/-! DEFINITION. The terms claims are stated in: which physical byte a logical address names, what a completed and a
trapped instruction leave, how an instruction's bytes lie in memory, and the invariants of the engine. -/

namespace Sys2Proof.Machine

/-! ## Addresses -/

/-- Logical address `k` of the executing process names the physical byte `a`: the process is in segment `i` of the
table, `k` is inside its bounds, `a = segment.base + k`, and `a` is in the store (20_memory.md R39). -/
def State.Names (s : State) (k a : Nat) : Prop :=
  ∃ p i g, s.executing = some p ∧ p.occupiedSegment = some i ∧ s.seg[i]? = some g ∧
    k ≤ g.limit - g.base ∧ a = g.base + k ∧ a < s.cfg.memSize

/-- Logical address `k` names no byte: an access to it is a segmentation fault. -/
def State.NamesNone (s : State) (k : Nat) : Prop := ∀ a, ¬ s.Names k a

/-- Logical address `k` of the executing process names a byte whose value is `v`. -/
def State.Holds (s : State) (k : Nat) (v : Byte) : Prop := ∃ a, s.Names k a ∧ Memory.read s.mem a = v

/-- The process `p` runs in segment `i` of a machine with legal parameters and the segment table of R37: its logical
address `k` is the physical byte `i * SEG_SIZE + k` when `k < SEG_SIZE`, and no byte otherwise. -/
def State.RunsIn (s : State) (p : Pcb) (i : Nat) : Prop :=
  s.cfg.legal = true ∧ s.seg = segmentTable s.cfg ∧ s.executing = some p ∧ p.occupiedSegment = some i ∧
    i < s.cfg.numSegments

/-- The byte at logical address `k` of segment `i`. -/
def State.segByte (s : State) (i k : Nat) : Byte := Memory.read s.mem (i * s.cfg.segSize + k)

/-- The address of the `j`-th byte of an instruction at `pc` (40_cycle.md R70). -/
def argAddress (c : Config) (pc : Nat) : Nat → Nat
  | 0 => pc
  | j + 1 => incArg c (argAddress c pc j)

/-- The bytes `bs` stand where an instruction at `PC` is fetched from, none of them past logical 255 (20_memory.md
R51). -/
def State.FetchesBytes (s : State) (bs : List Byte) : Prop :=
  ∀ j b, bs[j]? = some b → argAddress s.cfg s.cpu.pc.toNat j ≤ 255 ∧ s.Holds (argAddress s.cfg s.cpu.pc.toNat j) b

/-- The text is the decimal numeral of `n` in ASCII: at least one digit, no leading zero but for 0 itself
(44_system.md R98). -/
def DecimalOf (text : List Byte) (n : Nat) : Prop :=
  ∃ ds : List Nat, text = ds.map (fun d => BitVec.ofNat 8 (0x30 + d)) ∧ (∀ d ∈ ds, d < 10) ∧ ds ≠ [] ∧
    (ds.head? = some 0 → ds = [0]) ∧ ds.foldl (fun v d => v * 10 + d) 0 = n

/-! ## What an instruction leaves -/

/-- The PCB with the registers `c` mirrored into its snapshot fields, everything else as it was (40_cycle.md R73). -/
def mirrored (p : Pcb) (c : Cpu) : Pcb :=
  { p with
    programCounter := c.pc
    accumulator := c.acc
    xReg := c.x
    yReg := c.y
    zFlag := c.z
    lastInstruction := c.ir }

/-- The state a successful instruction leaves when its execute step has made the registers `r`, the byte store `m` and
the console transcript `k`: `PC` one further mod 256, the registers mirrored into the executing PCB, one display
snapshot, result OK (R72 to R74), and every other part of the machine as it was. -/
def Completed (s : State) (r : Cpu) (m : Memory) (k : List ConsoleMsg) : State :=
  let c : Cpu := { r with pc := r.pc + 1 }
  let e : Option Pcb := s.executing.map fun p => mirrored p c
  { s with
    cpu := c
    mem := m
    console := k
    executing := e
    display := s.display ++ [{ cpu := c, pcb := e }]
    cycleResult := some .ok }

/-- The CPU with every register zero and `isExecuting` clear (R77). -/
def zeroCpu : Cpu :=
  { pc := 0x00#8, acc := 0x00#8, x := 0x00#8, y := 0x00#8, z := false, ir := 0x00#8, isExecuting := false }

/-- The state the break path leaves for the executing process `p`: `BREAK_PROGRAM(pid)` at the queue's tail, the CPU
reset, one display snapshot, result BREAK (43_control.md R96), everything else as it was. -/
def Broken (s : State) (p : Pcb) : State :=
  { s with
    cpu := zeroCpu
    intq := s.intq ++ [.breakProgram p.pid]
    display := s.display ++ [{ cpu := zeroCpu, pcb := some p }]
    cycleResult := some .brk }

/-- The state the fault path leaves for the executing process `p` and the cause `c`: the error text reported,
`ERR_PROGRAM(pid)` at the queue's tail, the CPU reset, one display snapshot, result FAULT (40_cycle.md R75),
everything else as it was. -/
def Faulted (s : State) (p : Pcb) (c : FaultCause) : State :=
  { s with
    cpu := zeroCpu
    console := s.console ++ [.putSystemText (.executionFault c (some p.pid))]
    intq := s.intq ++ [.errProgram p.pid]
    display := s.display ++ [{ cpu := zeroCpu, pcb := some p }]
    cycleResult := some (.fault c) }

/-- Everything the CPU never writes is the same: parameters, segment table, occupancy, registry, the queues other than
the executing reference, pids and quantum state, disk and `halted`. -/
def SameEngine (s t : State) : Prop :=
  t.cfg = s.cfg ∧ t.seg = s.seg ∧ t.occ = s.occ ∧ t.reg = s.reg ∧ t.ready = s.ready ∧ t.resident = s.resident ∧
    t.terminated = s.terminated ∧ t.nextPid = s.nextPid ∧ t.qPid = s.qPid ∧ t.qCount = s.qCount ∧ t.disk = s.disk ∧
    t.halted = s.halted

/-! ## Termination and roll-in -/

/-- The record asks for the termination of `pid`: `BREAK_PROGRAM`, `ERR_PROGRAM` or `KILL_PROGRAM` (60_exceptions.md R155,
R156, R160). -/
def Interrupt.Terminates (r : Interrupt) (pid : Nat) : Prop :=
  r = .breakProgram pid ∨ r = .errProgram pid ∨ r = .killProgram pid

/-- What terminating `p` leaves besides its place and its image (45_context_switch.md R116): `isExecuting` clear, its
quantum forgotten, and the times reported after whatever `reports` the reclamation made. -/
def Terminated (s : State) (p : Pcb) (reports : List Report) : State :=
  { s with
    terminated := s.terminated ++ [{ p with status := .terminated }]
    cpu := { s.cpu with isExecuting := false }
    qPid := if s.qPid = some p.pid then none else s.qPid
    qCount := if s.qPid = some p.pid then 0 else s.qCount
    console := s.console ++ (reports ++
      [Report.terminated p.pid p.cyclesInReady (p.cyclesInReady + p.cyclesExecuting)]).map .putSystemText }

/-- The three ways the swap image of `pid` is lost (R110). -/
def State.SwapImageGone (s : State) (pid : Nat) : Prop :=
  s.disk.formatted = false ∨ pid ∉ s.disk.swaps ∨ s.disk.lookup s.cfg (swapName pid) = .ok none

/-- Room for a roll-in (R110): a segment is free and nothing is done, or none is and the victim is rolled out. -/
def State.RoomMade (s m : State) : Prop :=
  ((∃ o ∈ s.occ, o = false) ∧ m = s) ∨
    ((∀ o ∈ s.occ, o = true) ∧ ∃ v, s.victim = some v ∧ s.rollOut v = .ok m)

/-- The roll-in of `pid` cannot be done though its image is not lost (R110, `FAIL_KEEP`): no segment is free and there
is no victim; or the victim's roll-out fails; or reading the image back fails. The third case, and that a lookup which
meets a corrupt block loses no image, are the model's choice (DEDUCED, assumption log 10): R110 names no case for them. -/
def State.RollInStops (s : State) (pid : Nat) (why : RollError) : Prop :=
  ¬ s.SwapImageGone pid ∧
    (((∀ o ∈ s.occ, o = true) ∧ s.victim = none ∧ why = .noVictim) ∨
     ((∀ o ∈ s.occ, o = true) ∧ ∃ v e, s.victim = some v ∧ s.rollOut v = .error e ∧ why = .component e) ∨
     ∃ m e, s.RoomMade m ∧ m.disk.deleteSwap m.cfg pid = .error e ∧ why = .component (.fs e))

/-- The image `img` of `pid` has been placed in segment `j` of `m`, its swap file gone from the disk, now `d` (R110,
20_memory.md R43): the segment holds the image, the rest of the store is as it was, the pid is registered. -/
def State.RolledIn (m : State) (pid : Nat) (img : List Byte) (d : Disk) (j : Nat) (u : State) : Prop :=
  u = { m with disk := d, mem := u.mem, occ := m.occ.set j true, reg := u.reg } ∧ pid ∉ d.swaps ∧
    (∀ q, q ∈ u.reg ↔ q = pid ∨ q ∈ m.reg) ∧
    (∀ k < m.cfg.segSize, u.segByte j k = img.getD k (m.segByte j k)) ∧
    (∀ a, ¬ (j * m.cfg.segSize ≤ a ∧ a < j * m.cfg.segSize + m.cfg.segSize) →
      Memory.read u.mem a = Memory.read m.mem a)

/-! ## Invariants -/

/-- The PCBs of `EXEC`, `READY` and `RESIDENT`. -/
def State.live (s : State) : List Pcb := s.executing.toList ++ s.ready ++ s.resident

/-- The parameters are legal, the segment table is the one R37 computes, the byte store is in canonical form and lists
no address outside `[0, MEM_SIZE)`. -/
def State.memoryOk (s : State) : Prop :=
  s.cfg.legal = true ∧ s.seg = segmentTable s.cfg ∧ Memory.wf s.mem = true ∧ ∀ e ∈ s.mem, e.1 < s.cfg.memSize

/-- The disk is in canonical form: it lists only locations of the grid, each as a 64-byte stored block that is not the
fresh one, in rising order. -/
def State.diskOk (s : State) : Prop :=
  s.cfg.legal = true ∧ Sparse.wf unlistedBlock s.disk.blocks = true ∧
    ∀ e ∈ s.disk.blocks, e.2.length = Config.blockSize ∧
      (DiskLoc.ofKey e.1).onGrid s.cfg = true ∧ (DiskLoc.ofKey e.1).key = e.1

/-- The serializer handshake: every PCB that waits to run is fresh, the executing one is not (10_state.md R26,
45_context_switch.md R117, 70_reset_and_hazards.md R181). -/
def State.handshakeOk (s : State) : Prop :=
  (∀ p ∈ s.ready ++ s.resident, p.fresh = true) ∧ ∀ p ∈ s.executing.toList, p.fresh = false

/-- The quantum count stays below the quantum (45_context_switch.md R112). -/
def State.quantumOk (s : State) : Prop := s.qCount < s.cfg.quantum ∧ (s.qPid = none → s.qCount = 0)

/-- Between ticks every PCB is in exactly one place with the status of that place, a live PCB is in memory exactly
when it has a segment, the executing one is in memory, the registry and the occupancy map say which PCBs hold which
segments, and no two share one (R26, R38, R117). -/
def State.processesOk (s : State) : Prop :=
  (s.allPcbs.map (·.pid)).Nodup ∧ (∀ p ∈ s.allPcbs, p.pid < s.nextPid) ∧
  (∀ p ∈ s.executing.toList, p.status = .running ∧ p.location = .memory) ∧
  (∀ p ∈ s.ready, p.status = .ready) ∧ (∀ p ∈ s.resident, p.status = .resident) ∧
  (∀ p ∈ s.terminated, p.status = .terminated ∧ p.occupiedSegment = none) ∧
  (∀ p ∈ s.live, p.location ≠ .undefined ∧ (p.location = .memory ↔ p.occupiedSegment ≠ none)) ∧
  s.occ.length = s.cfg.numSegments ∧
  (∀ i < s.cfg.numSegments, s.occ[i]? = some true ↔ ∃ p ∈ s.live, p.occupiedSegment = some i) ∧
  (∀ p ∈ s.live, ∀ i, p.occupiedSegment = some i → i < s.cfg.numSegments) ∧
  (s.live.filterMap (·.occupiedSegment)).Nodup ∧
  (∀ pid ∈ s.reg, ∃ p ∈ s.live, p.pid = pid ∧ p.location = .memory) ∧
  (∀ p ∈ s.live, p.location = .memory → p.pid ∈ s.reg)

/-- Every byte of every free segment is 0x00 (20_memory.md R46). -/
def State.freeSegmentsZero (s : State) : Prop :=
  ∀ (i : Nat) (g : Segment), s.occ[i]? = some false → s.seg[i]? = some g → ∀ a, g.base ≤ a → a ≤ g.limit → Memory.read s.mem a = 0x00#8

end Sys2Proof.Machine
end

