-- ==== Sys2Proof/Certificates/Slice0/Obligations.lean ====
section
/-! DEFINITION. The statements for the provers. -/

open Sys2Proof Sys2Proof.Machine

/-! ## Encoding -/

/-- One word of every row of the opcode map, written out from 30_encoding.md R56, R59 and R60, decodes to the
instruction it stands for. -/
def Obligations.WrittenWordsDecode : Prop :=
  decode [0x00#8] = .ok (.brk, []) ∧
  decode [0x6D#8, 0x10#8, 0x00#8] = .ok (.adc 0x0010#16, []) ∧
  decode [0x8D#8, 0x34#8, 0x12#8] = .ok (.sta 0x1234#16, []) ∧
  decode [0xA0#8, 0x02#8] = .ok (.ldyImm 0x02#8, []) ∧
  decode [0xA2#8, 0x01#8] = .ok (.ldxImm 0x01#8, []) ∧
  decode [0xA9#8, 0x7F#8] = .ok (.ldaImm 0x7F#8, []) ∧
  decode [0xAC#8, 0x0B#8, 0x00#8] = .ok (.ldyAbs 0x000B#16, []) ∧
  decode [0xAD#8, 0x00#8, 0x01#8] = .ok (.ldaAbs 0x0100#16, []) ∧
  decode [0xAE#8, 0x05#8, 0x80#8] = .ok (.ldxAbs 0x8005#16, []) ∧
  decode [0xD0#8, 0xF5#8] = .ok (.bne 0xF5#8, []) ∧
  decode [0xEA#8] = .ok (.nop, []) ∧
  decode [0xEC#8, 0x01#8, 0x00#8] = .ok (.cpx 0x0001#16, []) ∧
  decode [0xEE#8, 0x0B#8, 0x00#8] = .ok (.inc 0x000B#16, []) ∧
  decode [0xFF#8] = .ok (.sys, [])

/-- Decode and encode agree in both directions: the encoding of every well-formed instruction decodes to it and leaves
what follows, and whatever decodes to an instruction is that instruction's encoding and what follows, so no argument
bit is dropped and no instruction has two encodings (30_encoding.md R55 to R61). -/
def Obligations.DecodeEncodeAgree : Prop :=
  (∀ (i : Instr) (rest : List Byte), i.wellFormed = true → decode (encode i ++ rest) = .ok (i, rest)) ∧
  (∀ (bs rest : List Byte) (i : Instr), decode bs = .ok (i, rest) → bs = encode i ++ rest ∧ i.wellFormed = true)

/-- 30_encoding.md R62: an opcode byte outside the fourteen of R60 is illegal, there are 242 of them, and fetching one
is `IllegalOpcode` whatever follows it. -/
def Obligations.IllegalOpcodesRejected : Prop :=
  (∀ op : Byte, decodeOpcode op = none ↔ op ∉ [0x00#8, 0x6D#8, 0x8D#8, 0xA0#8, 0xA2#8, 0xA9#8, 0xAC#8, 0xAD#8, 0xAE#8,
    0xD0#8, 0xEA#8, 0xEC#8, 0xEE#8, 0xFF#8]) ∧
  ((List.range 256).filter fun n => (decodeOpcode (BitVec.ofNat 8 n)).isNone).length = 242 ∧
  ∀ (s : State) (op : Byte), s.Holds s.cpu.pc.toNat op → decodeOpcode op = none → s.fetch = .error .illegalOpcode

/-! ## Loads and stores -/

/-- 41_load_store.md R81, R84, R86: an immediate load writes its one register with the constant byte and completes;
`Z`, the other registers and memory stay. -/
def Obligations.LoadImmediateResult : Prop :=
  ∀ (s : State) (imm : Byte),
    exec (.ldaImm imm) s = .next (Completed s { s.cpu with acc := imm } s.mem s.console) ∧
    exec (.ldxImm imm) s = .next (Completed s { s.cpu with x := imm } s.mem s.console) ∧
    exec (.ldyImm imm) s = .next (Completed s { s.cpu with y := imm } s.mem s.console) ∧
    encode (.ldaImm imm) = [0xA9#8, imm] ∧ encode (.ldxImm imm) = [0xA2#8, imm] ∧
    encode (.ldyImm imm) = [0xA0#8, imm]

/-- 41_load_store.md R82, R85, R87: an absolute load of an address inside the segment writes its one register with the
memory byte and completes; an address of `SEG_SIZE` or more is an operand fault. -/
def Obligations.LoadAbsoluteResult : Prop :=
  ∀ (s : State) (p : Pcb) (i : Nat) (lo hi : Byte), s.RunsIn p i →
    let addr : Addr := hi ++ lo
    let v := s.segByte i (hi.toNat * 256 + lo.toNat)
    encode (.ldaAbs addr) = [0xAD#8, lo, hi] ∧ encode (.ldxAbs addr) = [0xAE#8, lo, hi] ∧
    encode (.ldyAbs addr) = [0xAC#8, lo, hi] ∧
    (hi.toNat * 256 + lo.toNat < s.cfg.segSize →
      exec (.ldaAbs addr) s = .next (Completed s { s.cpu with acc := v } s.mem s.console) ∧
      exec (.ldxAbs addr) s = .next (Completed s { s.cpu with x := v } s.mem s.console) ∧
      exec (.ldyAbs addr) s = .next (Completed s { s.cpu with y := v } s.mem s.console)) ∧
    (s.cfg.segSize ≤ hi.toNat * 256 + lo.toNat →
      exec (.ldaAbs addr) s = .next (Faulted s p .operandSegFault) ∧
      exec (.ldxAbs addr) s = .next (Faulted s p .operandSegFault) ∧
      exec (.ldyAbs addr) s = .next (Faulted s p .operandSegFault))

/-- 41_load_store.md R83: STA to an address inside the segment completes with exactly the addressed byte changed, to
`ACC`; an address of `SEG_SIZE` or more is an operand fault and nothing is written. -/
def Obligations.StoreResult : Prop :=
  ∀ (s : State) (p : Pcb) (i : Nat) (lo hi : Byte), s.RunsIn p i → Memory.wf s.mem = true →
    let addr : Addr := hi ++ lo
    let k := hi.toNat * 256 + lo.toNat
    encode (.sta addr) = [0x8D#8, lo, hi] ∧
    (k < s.cfg.segSize → ∃ m, exec (.sta addr) s = .next (Completed s s.cpu m s.console) ∧ Memory.wf m = true ∧
      ∀ b, Memory.read m b = if b = i * s.cfg.segSize + k then s.cpu.acc else Memory.read s.mem b) ∧
    (s.cfg.segSize ≤ k → exec (.sta addr) s = .next (Faulted s p .operandSegFault))

/-! ## Arithmetic and compare -/

/-- 42_arith_compare.md R89: ADC adds the memory byte to `ACC` mod 256, writes no flag and completes; an address
outside the segment is an operand fault. -/
def Obligations.AddResult : Prop :=
  ∀ (s : State) (p : Pcb) (i : Nat) (lo hi : Byte), s.RunsIn p i →
    let addr : Addr := hi ++ lo
    let k := hi.toNat * 256 + lo.toNat
    encode (.adc addr) = [0x6D#8, lo, hi] ∧
    (k < s.cfg.segSize → ∃ v : Byte, v.toNat = (s.cpu.acc.toNat + (s.segByte i k).toNat) % 256 ∧
      exec (.adc addr) s = .next (Completed s { s.cpu with acc := v } s.mem s.console)) ∧
    (s.cfg.segSize ≤ k → exec (.adc addr) s = .next (Faulted s p .operandSegFault))

/-- 42_arith_compare.md R90: INC replaces exactly the addressed byte by its successor mod 256, registers unchanged,
and completes; an address outside the segment is an operand fault and nothing is written. -/
def Obligations.IncrementResult : Prop :=
  ∀ (s : State) (p : Pcb) (i : Nat) (lo hi : Byte), s.RunsIn p i → Memory.wf s.mem = true →
    let addr : Addr := hi ++ lo
    let k := hi.toNat * 256 + lo.toNat
    encode (.inc addr) = [0xEE#8, lo, hi] ∧
    (k < s.cfg.segSize → ∃ m v, exec (.inc addr) s = .next (Completed s s.cpu m s.console) ∧ Memory.wf m = true ∧
      BitVec.toNat v = ((s.segByte i k).toNat + 1) % 256 ∧
      ∀ b, Memory.read m b = if b = i * s.cfg.segSize + k then v else Memory.read s.mem b) ∧
    (s.cfg.segSize ≤ k → exec (.inc addr) s = .next (Faulted s p .operandSegFault))

/-- 42_arith_compare.md R91: CPX writes `Z` and nothing else, 1 exactly when the memory byte equals `X`, and
completes; an address outside the segment is an operand fault. -/
def Obligations.CompareResult : Prop :=
  ∀ (s : State) (p : Pcb) (i : Nat) (lo hi : Byte), s.RunsIn p i →
    let addr : Addr := hi ++ lo
    let k := hi.toNat * 256 + lo.toNat
    encode (.cpx addr) = [0xEC#8, lo, hi] ∧
    (k < s.cfg.segSize → ∃ z : Bool, (z = true ↔ s.segByte i k = s.cpu.x) ∧
      exec (.cpx addr) s = .next (Completed s { s.cpu with z := z } s.mem s.console)) ∧
    (s.cfg.segSize ≤ k → exec (.cpx addr) s = .next (Faulted s p .operandSegFault))

/-! ## Control transfer -/

/-- 43_control.md R94: BNE completes; with `Z = 0` and its opcode at `a` (so `PC = a + 1` at execute) it leaves
`PC = (a + 2 + rel8) mod 256`, with `Z = 1` `PC = (a + 2) mod 256`; only `PC` of the registers changes, and the target
is also the one of the signed reading of `rel8`. -/
def Obligations.BranchResult : Prop :=
  ∀ (s : State) (a rel : Byte), s.cpu.pc = a + 1#8 →
    encode (.bne rel) = [0xD0#8, rel] ∧
    (s.cpu.z = false → ∃ target : Byte, exec (.bne rel) s =
        .next (Completed s { s.cpu with pc := target } s.mem s.console) ∧
      (target + 1#8).toNat = (a.toNat + 2 + rel.toNat) % 256 ∧
      ((target + 1#8).toNat : Int) = ((a.toNat : Int) + 2 + rel.toInt) % 256) ∧
    (s.cpu.z = true → exec (.bne rel) s = .next (Completed s s.cpu s.mem s.console) ∧
      (s.cpu.pc + 1#8).toNat = (a.toNat + 2) % 256)

/-- 43_control.md R95: NOP completes and its execute step changes nothing. -/
def Obligations.NopResult : Prop :=
  encode .nop = [0xEA#8] ∧ ∀ s : State, exec .nop s = .next (Completed s s.cpu s.mem s.console)

/-- 43_control.md R96: BRK enqueues `BREAK_PROGRAM(pid)`, resets the CPU and stops before the PC increment and the
mirror; it reports no text. -/
def Obligations.BreakResult : Prop :=
  encode .brk = [0x00#8] ∧ ∀ (s : State) (p : Pcb), s.executing = some p → exec .brk s = .next (Broken s p)

/-! ## System -/

/-- 44_system.md R98: with `X = 1` SYS prints `Y` in unsigned decimal; with `X = 2` the null-terminated string at
logical `Y` in one text; a string that runs out of the segment, and any other `X`, fault and print nothing. -/
def Obligations.SysResult : Prop :=
  encode .sys = [0xFF#8] ∧ ∀ (s : State) (p : Pcb) (i : Nat), s.RunsIn p i →
    (s.cpu.x = 1#8 → ∃ text, DecimalOf text s.cpu.y.toNat ∧
      exec .sys s = .next (Completed s s.cpu s.mem (s.console ++ [.putText text]))) ∧
    (s.cpu.x = 2#8 → ∀ text : List Byte,
      s.cpu.y.toNat + text.length < s.cfg.segSize →
      (∀ j b, text[j]? = some b → b ≠ 0#8 ∧ s.segByte i (s.cpu.y.toNat + j) = b) →
      s.segByte i (s.cpu.y.toNat + text.length) = 0#8 →
      exec .sys s = .next (Completed s s.cpu s.mem (s.console ++ [.putText text]))) ∧
    (s.cpu.x = 2#8 → (∀ k, s.cpu.y.toNat ≤ k → k < s.cfg.segSize → s.segByte i k ≠ 0#8) →
      exec .sys s = .next (Faulted s p .sysStringSegFault)) ∧
    (s.cpu.x ≠ 1#8 → s.cpu.x ≠ 2#8 → exec .sys s = .next (Faulted s p .invalidSysArg))

/-! ## The cycle and the tick -/

/-- A STEP RUNS THE DECODED INSTRUCTION (40_cycle.md R79, 60_exceptions.md R147): when the machine is not halted, no
record is pending, the executing process is not fresh and the bytes at `PC` decode to `i`, the step is `exec i` in the
state where `IR` holds the opcode and `PC` the address of the instruction's last byte, followed by the statistics and,
after OK, the policy. -/
def Obligations.StepRunsDecodedInstruction : Prop :=
  ∀ (s t : State) (p : Pcb) (i : Instr) (bs rest : List Byte),
    s.halted = false → s.intq = [] → s.executing = some p → p.fresh = false →
    s.FetchesBytes bs → decode bs = .ok (i, rest) →
    exec i { s with cpu := { s.cpu with
        ir := i.opcode.code
        pc := BitVec.ofNat 8 (argAddress s.cfg s.cpu.pc.toNat (i.length - 1)) } } = .next t →
    step s = .next (if t.cycleResult = some .ok then t.updateStats.policyAfterInstruction p.pid else t.updateStats)

/-- 40_cycle.md R67, 70_reset_and_hazards.md R181: a fresh executing process runs exactly as if its saved registers
were already in the CPU and its `fresh` bit clear. -/
def Obligations.FreshProcessIsRestored : Prop :=
  ∀ (s : State) (p : Pcb), s.halted = false → s.intq = [] → s.executing = some p → p.fresh = true →
    step s = step { s with
      cpu := { s.cpu with
        pc := p.programCounter
        acc := p.accumulator
        x := p.xReg
        y := p.yReg
        z := p.zFlag
        ir := p.lastInstruction }
      executing := some { p with fresh := false } }

/-- 60_exceptions.md R140, R141 for the fetch of an instruction: an opcode fetch outside the segment, an illegal
opcode, and an argument fetch outside the segment or past logical 255 (20_memory.md R51, decision D3) take the fault
path with their own cause; the tick then counts the statistics and does not consult the policy. -/
def Obligations.FetchFaultsInOrder : Prop :=
  ∀ (s : State) (p : Pcb), s.halted = false → s.intq = [] → s.executing = some p → p.fresh = false →
    (s.NamesNone s.cpu.pc.toNat → step s = .next (Faulted s p .fetchSegFault).updateStats) ∧
    (∀ op, s.Holds s.cpu.pc.toNat op → decodeOpcode op = none →
      step s = .next (Faulted s p .illegalOpcode).updateStats) ∧
    (∀ op o j, s.Holds s.cpu.pc.toNat op → decodeOpcode op = some o → 1 ≤ j → j ≤ o.argCount →
      s.NamesNone (argAddress s.cfg s.cpu.pc.toNat j) ∨ 255 < argAddress s.cfg s.cpu.pc.toNat j →
      step s = .next (Faulted s p .argSegFault).updateStats)

/-- 60_exceptions.md R161: the tick of a `FILE_SYSTEM` record runs its operation on the disk and reports success or the
error: a `FORMAT` makes every block of the grid fresh (46_disk_fs.md R127), `CREATE`, `WRITE` and `DELETE` store the new
disk or change nothing, `READ` reports its text. R162: a record of an unrecognized kind, or of an unrecognized
file-system sub-kind, is reported and halts the machine; a halted machine's tick does nothing. Nothing else changes. -/
def Obligations.FileSystemRecordsAndFatalTrap : Prop :=
  (∀ s : State, s.halted = true → step s = .next s) ∧
  (∀ (s : State) (r : Interrupt) (rest : List Interrupt) (n : Nat), s.halted = false → s.intq = r :: rest →
    r = .unrecognized n ∨ r = .fileSystem (.unrecognized n) →
    step s = .next { s with
      intq := rest
      console := s.console ++ [.putSystemText (.fatalTrap r)]
      halted := true }) ∧
  (∀ (s : State) (records : List Interrupt), s.halted = false → s.intq = .fileSystem .format :: records →
    ∃ d : Disk, step s = .next { s with
        intq := records
        disk := d
        console := s.console ++ [.putSystemText (.fsDone .format)] } ∧
      d.formatted = true ∧ d.swaps = [] ∧
      ∀ l, s.cfg.legal = true → l.onGrid s.cfg = true → d.readBlock s.cfg l = .ok (freshBlock l)) ∧
  (∀ (s : State) (q : FsRequest) (result : Except FsError Disk) (records : List Interrupt), s.halted = false →
    s.intq = .fileSystem q :: records →
    ((∃ name, q = .create name ∧ result = s.disk.createFile s.cfg name) ∨
     (∃ name data, q = .write name data ∧ result = s.disk.appendToFile s.cfg name data) ∨
     (∃ name, q = .delete name ∧ result = s.disk.deleteFile s.cfg name)) →
    (∀ d, result = .ok d →
      step s = .next { s with intq := records, disk := d, console := s.console ++ [.putSystemText (.fsDone q)] }) ∧
    (∀ e, result = .error e →
      step s = .next { s with intq := records, console := s.console ++ [.putSystemText (.fsFailed q e)] })) ∧
  (∀ (s : State) (name : List Byte) (records : List Interrupt), s.halted = false →
    s.intq = .fileSystem (.read name) :: records →
    (∀ text, s.disk.readFile s.cfg name = .ok text →
      step s = .next { s with intq := records, console := s.console ++ [.putSystemText (.fileText name text)] }) ∧
    (∀ e, s.disk.readFile s.cfg name = .error e →
      step s = .next { s with
        intq := records
        console := s.console ++ [.putSystemText (.fsFailed (.read name) e)] }))

/-- 60_exceptions.md R152, R172: a `TIMER` or `KEYBOARD` record costs its tick and changes nothing else; a tick with
no record and no process to run does nothing. -/
def Obligations.TicksWithoutEffect : Prop :=
  (∀ (s : State) (r : Interrupt) (rest : List Interrupt) (data : List Byte), s.halted = false → s.intq = r :: rest →
    r = .timer ∨ r = .keyboard data → step s = .next { s with intq := rest }) ∧
  (∀ s : State, s.intq = [] → s.executing = none → s.ready = [] → step s = .next s)

/-- 60_exceptions.md R144, R149: an interrupt tick takes exactly the head of the queue: whatever the handler does, the
other records stay as they are and in their order, and the handler enqueues none. -/
def Obligations.InterruptTickTakesTheHead : Prop :=
  ∀ (s t : State) (r : Interrupt) (rest : List Interrupt), s.halted = false → s.intq = r :: rest →
    step s = .next t → t.intq = rest

/-- Every state has a next state: no step answers a fault or a refusal (the machine has no stop but the halted state,
60_exceptions.md R139, R146, R172). -/
def Obligations.StepAlwaysAnswersNext : Prop := ∀ s : State, ∃ t, step s = .next t

/-- THE FRAME of every instruction: whatever it does, completed, broken or faulted, it leaves the parameters, the
segment table, the occupancy map, the registry, the ready, resident and terminated queues, the pids, the quantum state,
the disk and `halted` as they were, and of the executing PCB it writes at most the six register fields, which it sets to
the live registers. An instruction other than STA and INC leaves the byte store as it was, and those two leave every byte
other than the one their operand translates to. The interrupt queue gets at most the trap record of the executing process,
and the console at most the one text of SYS or of the fault path. -/
def Obligations.InstructionFrame : Prop :=
  ∀ (i : Instr) (s t : State), exec i s = .next t →
    SameEngine s t ∧ (t.executing = s.executing ∨ t.executing = s.executing.map fun p => mirrored p t.cpu) ∧
    (∃ snap, t.display = s.display ++ [snap]) ∧
    ((∀ addr, i ≠ .sta addr ∧ i ≠ .inc addr) → t.mem = s.mem) ∧
    (∀ addr, i = .sta addr ∨ i = .inc addr → Memory.wf s.mem = true →
      ∀ b, s.translate (absLogical addr) ≠ .ok b → Memory.read t.mem b = Memory.read s.mem b) ∧
    (t.intq = s.intq ∨ ∃ p, s.executing = some p ∧
      (i = .brk ∧ t.intq = s.intq ++ [.breakProgram p.pid] ∨
       (∃ c, t.cycleResult = some (.fault c)) ∧ t.intq = s.intq ++ [.errProgram p.pid])) ∧
    (t.console = s.console ∨ (i = .sys ∧ ∃ text, t.console = s.console ++ [.putText text]) ∨
      ∃ c, t.cycleResult = some (.fault c) ∧
        t.console = s.console ++ [.putSystemText (.executionFault c (s.executing.map (·.pid)))])

/-- 10_state.md R19, R23: of the completing instructions only CPX writes `Z`, only INC and STA write memory, and none
writes `IR` or `isExecuting`; after a break or a fault every register is zero. -/
def Obligations.OnlyCompareWritesZ : Prop :=
  ∀ (i : Instr) (s t : State), exec i s = .next t →
    (t.cycleResult = some .ok →
      ((∀ addr, i ≠ .cpx addr) → t.cpu.z = s.cpu.z) ∧
      ((∀ addr, i ≠ .sta addr ∧ i ≠ .inc addr) → t.mem = s.mem) ∧
      t.cpu.ir = s.cpu.ir ∧ t.cpu.isExecuting = s.cpu.isExecuting) ∧
    (t.cycleResult ≠ some .ok → t.cpu = zeroCpu)

/-- 60_exceptions.md R142: an instruction that faults changes no memory byte, no PCB and no queue but for the
`ERR_PROGRAM` record it enqueues; the CPU is reset. -/
def Obligations.FaultsArePrecise : Prop :=
  ∀ (i : Instr) (s t : State) (p : Pcb) (c : FaultCause), s.executing = some p → exec i s = .next t →
    t.cycleResult = some (.fault c) →
    t.mem = s.mem ∧ t.executing = some p ∧ SameEngine s t ∧ t.intq = s.intq ++ [.errProgram p.pid] ∧
      t.cpu = zeroCpu ∧ t.console = s.console ++ [.putSystemText (.executionFault c (some p.pid))]

/-- 60_exceptions.md R149 (5): a tick that starts with an empty queue enqueues at most one record: `BREAK_PROGRAM` or
`ERR_PROGRAM` of the executing process, or `CONTEXT_SWITCH`. -/
def Obligations.AtMostOneRecordPerTick : Prop :=
  ∀ s t : State, s.intq = [] → step s = .next t →
    t.intq = [] ∨ t.intq = [.contextSwitch] ∨
      ∃ p, t.executing = some p ∧ (t.intq = [.breakProgram p.pid] ∨ t.intq = [.errProgram p.pid])

/-- 20_memory.md R41: an instruction changes no byte outside the executing process's segment. -/
def Obligations.SegmentProtection : Prop :=
  ∀ (i : Instr) (s t : State) (p : Pcb) (n : Nat), s.RunsIn p n → Memory.wf s.mem = true → exec i s = .next t →
    ∀ a, ¬ (n * s.cfg.segSize ≤ a ∧ a < n * s.cfg.segSize + s.cfg.segSize) → Memory.read t.mem a = Memory.read s.mem a

/-- 20_memory.md R41, 70_reset_and_hazards.md R182: what an instruction does cannot depend on a byte outside its
process's segment: in two machines that differ only in such bytes it leaves the same registers, PCB, console, queue
and display, and the same bytes inside the segment. -/
def Obligations.ProcessIsolation : Prop :=
  ∀ (i : Instr) (s t : State) (p : Pcb) (n : Nat) (m : Memory), s.RunsIn p n → Memory.wf s.mem = true →
    Memory.wf m = true → (∀ k < s.cfg.segSize, Memory.read m (n * s.cfg.segSize + k) = s.segByte n k) →
    exec i s = .next t →
    ∃ m', exec i { s with mem := m } = .next { t with mem := m' } ∧
      ∀ k < s.cfg.segSize, Memory.read m' (n * s.cfg.segSize + k) = t.segByte n k

/-- What no step undoes: the parameters and the segment table never change (00_scope.md R9, 10_state.md R33), `halted`
is never cleared (60_exceptions.md R162), the pid counter never goes back, and terminated PCBs stay in `TERMINATED` as
they are, so that no pid is used again (45_context_switch.md R116). -/
def Obligations.ParametersAndHistoryKept : Prop :=
  ∀ s t : State, step s = .next t →
    t.cfg = s.cfg ∧ t.seg = s.seg ∧ (s.halted = true → t.halted = true) ∧ s.nextPid ≤ t.nextPid ∧
      s.terminated <+: t.terminated

/-! ## The memory manager -/

/-- 20_memory.md R39: the logical address `k` of the executing process reads the physical byte `segment.base + k` when
`k` is inside the segment's bounds, and is a segmentation fault otherwise, or with no executing process or segment. -/
def Obligations.TranslationBoundary : Prop :=
  (∀ (s : State) (p : Pcb) (i k : Nat), s.RunsIn p i →
    (k < s.cfg.segSize → s.memRead k = .ok (Memory.read s.mem (i * s.cfg.segSize + k))) ∧
    (s.cfg.segSize ≤ k → s.memRead k = .error (.segmentationFault k))) ∧
  (∀ (s : State) (k : Nat), s.executing = none → s.memRead k = .error (.segmentationFault k)) ∧
  (∀ (s : State) (p : Pcb) (k : Nat), s.executing = some p → p.occupiedSegment = none →
    s.memRead k = .error (.segmentationFault k))

/-- 20_memory.md R34: a physical access succeeds exactly inside `[0, MEM_SIZE)`; a write returns the byte written, a
read of the same address after it returns that byte, a read of another address what it returned before, and nothing but
the byte store changes; on failure there is no new state. -/
def Obligations.PhysicalReadAfterWrite : Prop :=
  ∀ (s : State) (a : Nat) (v : Byte), Memory.wf s.mem = true →
    (a < s.cfg.memSize → ∃ m, s.physWrite a v = .ok (v, { s with mem := m }) ∧
      State.physRead { s with mem := m } a = .ok v ∧
      ∀ b, b ≠ a → State.physRead { s with mem := m } b = s.physRead b) ∧
    (s.cfg.memSize ≤ a → s.physWrite a v = .error (.outOfRange a) ∧ s.physRead a = .error (.outOfRange a))

/-- 20_memory.md R37: with legal parameters segment `i` is `[i * SEG_SIZE, i * SEG_SIZE + SEG_SIZE - 1]`, and the segments
are contiguous, non-overlapping and cover the store exactly once: every physical address lies in exactly one of them,
and no segment reaches outside. -/
def Obligations.SegmentsPartitionTheStore : Prop :=
  ∀ c : Config, c.legal = true →
    (segmentTable c).length = c.numSegments ∧
    (∀ a < c.memSize, ∃ i g, (segmentTable c)[i]? = some g ∧ g.base ≤ a ∧ a ≤ g.limit ∧
      ∀ (j : Nat) (h : Segment), (segmentTable c)[j]? = some h → h.base ≤ a → a ≤ h.limit → j = i) ∧
    (∀ (i : Nat) (g : Segment), (segmentTable c)[i]? = some g →
      g.base = i * c.segSize ∧ g.limit = i * c.segSize + c.segSize - 1 ∧ g.base ≤ g.limit ∧ g.limit < c.memSize)

/-- 20_memory.md R42: a load takes the first free segment, writes the program there up to the segment's end, marks it
occupied, registers the pid and answers the new PCB of 10_state.md R27; when no segment is free it fails. -/
def Obligations.LoadPlacesProgram : Prop :=
  ∀ (s : State) (program : List Byte) (pid : Nat), s.memoryOk → s.occ.length = s.cfg.numSegments →
    ((∀ i < s.cfg.numSegments, s.occ[i]? = some true) → s.load program pid = .error .outOfMemory) ∧
    (∀ i, s.occ[i]? = some false → (∀ j < i, s.occ[j]? = some true) →
      ∃ (p : Pcb) (t : State), s.load program pid = .ok (p, t) ∧
        p = { pid := pid, occupiedSegment := some i, location := .memory, status := .resident, priority := .inf,
              programCounter := 0#8, accumulator := 0#8, xReg := 0#8, yReg := 0#8, zFlag := false,
              lastInstruction := 0#8, fresh := true, cyclesInReady := 0, cyclesExecuting := 0 } ∧
        t = { s with mem := t.mem, occ := s.occ.set i true, reg := t.reg } ∧
        (∀ q, q ∈ t.reg ↔ q = pid ∨ q ∈ s.reg) ∧
        (∀ k < s.cfg.segSize, t.segByte i k = program.getD k (s.segByte i k)) ∧
        (∀ a, ¬ (i * s.cfg.segSize ≤ a ∧ a < i * s.cfg.segSize + s.cfg.segSize) →
          Memory.read t.mem a = Memory.read s.mem a))

/-- 20_memory.md R44, R46: loading into a free segment and then evacuating that PCB gives back the byte store and the
occupancy map as they were: the segment is zero and free again. -/
def Obligations.EvacuateUndoesLoad : Prop :=
  ∀ (s t : State) (program : List Byte) (pid : Nat) (p : Pcb), s.memoryOk → s.freeSegmentsZero →
    s.load program pid = .ok (p, t) →
    (t.evacuate p).2.mem = s.mem ∧ (t.evacuate p).2.occ = s.occ ∧ (t.evacuate p).1 = { p with occupiedSegment := none } ∧
      pid ∉ (t.evacuate p).2.reg

/-! ## The serializer and the scheduler -/

/-- 45_context_switch.md R100 to R102: serializing writes `PC`, `ACC`, `X`, `Y`, `Z` and `IR` into the PCB and makes it
fresh and ready, deserializing moves them back into the CPU and clears `fresh`, neither touches anything else; the
snapshot as a record is those six bytes in that order, and reads back. -/
def Obligations.SnapshotRoundTrip : Prop :=
  (∀ (p : Pcb) (c d : Cpu),
    p.serialized c = { mirrored p c with fresh := true, status := .ready } ∧
    d.loadedFrom p = { pc := p.programCounter, acc := p.accumulator, x := p.xReg, y := p.yReg, z := p.zFlag,
                       ir := p.lastInstruction, isExecuting := d.isExecuting } ∧
    p.deserialized = { p with fresh := false } ∧
    d.loadedFrom (p.serialized c) = { c with isExecuting := d.isExecuting } ∧
    (p.serialized c).snapshotBytes = [c.pc, c.acc, c.x, c.y, if c.z then 0x01#8 else 0x00#8, c.ir]) ∧
  (∀ p q : Pcb, p.withSnapshotBytes q.snapshotBytes = some { p with
      programCounter := q.programCounter
      accumulator := q.accumulator
      xReg := q.xReg
      yReg := q.yReg
      zFlag := q.zFlag
      lastInstruction := q.lastInstruction })

/-- 45_context_switch.md R107, under every policy: the tick of a `CONTEXT_SWITCH` record serializes the executing
process, inserts it into `READY`, and puts the head of that queue on the CPU with its saved registers (under the priority
policy that head may be the process itself). A head on disk is rolled in first (R110): room is made, its swap image is read
back and deleted, and placed in the first free segment. -/
def Obligations.ContextSwitchSwapsProcesses : Prop :=
  ∀ (s : State) (p h : Pcb) (rest : List Pcb) (records : List Interrupt), s.halted = false →
    s.intq = .contextSwitch :: records → s.executing = some p → s.ready ≠ [] →
    readyInsert s.cfg.policy { mirrored p s.cpu with fresh := true, status := .ready } s.ready = h :: rest →
    let restored : Cpu := { pc := h.programCounter, acc := h.accumulator, x := h.xReg, y := h.yReg, z := h.zFlag,
                            ir := h.lastInstruction, isExecuting := true }
    (h.location ≠ .disk →
      step s = .next { s with
        intq := records
        cpu := restored
        executing := some { h with fresh := false, status := .running }
        ready := rest }) ∧
    (h.location = .disk → s.memoryOk → s.occ.length = s.cfg.numSegments → ¬ s.SwapImageGone h.pid →
      ∀ m img d j, State.RoomMade { s with intq := records, executing := none, ready := h :: rest } m →
        m.disk.deleteSwap m.cfg h.pid = .ok (img, d) → m.occ[j]? = some false → (∀ k < j, m.occ[k]? = some true) →
        ∃ u, m.RolledIn h.pid img d j u ∧ step s = .next { u with
          cpu := restored
          executing := some { h with occupiedSegment := some j, location := .memory, fresh := false, status := .running }
          ready := m.ready.tail })

/-- 45_context_switch.md R107, 70_reset_and_hazards.md R180: a `CONTEXT_SWITCH` with nothing executing changes
nothing; with an empty ready queue it only sends its trace message; and one whose next process is on disk and cannot be
rolled in is undone: the executing process stays on the CPU (its snapshot now its registers, assumption log 17), `READY` is
as it was, and the error is reported, but for a next process whose image is lost, which is terminated. That a read-back
that fails, or a lookup that meets a corrupt block, counts as such a failure and as no lost image is the model's choice
(assumption log 10): the spec names no case for it. -/
def Obligations.ContextSwitchNoops : Prop :=
  ∀ (s : State) (records : List Interrupt), s.halted = false → s.intq = .contextSwitch :: records →
    (s.executing = none → step s = .next { s with intq := records }) ∧
    (s.executing ≠ none → s.ready = [] →
      step s = .next { s with intq := records, console := s.console ++ [.putSystemText .switchNoop] }) ∧
    (∀ p h rest, s.executing = some p → p.location = .memory → s.ready ≠ [] → (∀ q ∈ s.ready, q.pid ≠ p.pid) →
      readyInsert s.cfg.policy { mirrored p s.cpu with fresh := true, status := .ready } s.ready = h :: rest →
      h.location = .disk →
      let kept : Pcb := { mirrored p s.cpu with fresh := false, status := .running }
      (∀ why, State.RollInStops { s with intq := records, executing := none, ready := h :: rest } h.pid why →
        step s = .next { s with
          intq := records
          cpu := { s.cpu with isExecuting := true }
          executing := some kept
          console := s.console ++ [.putSystemText (.rollInFailed h.pid why)] }) ∧
      (s.SwapImageGone h.pid →
        step s = .next { Terminated s h [.rollInFailed h.pid .imageLost] with
          intq := records
          cpu := { s.cpu with isExecuting := true }
          executing := some kept
          ready := s.ready.tail }))

/-- 45_context_switch.md R112, R113: after an OK cycle of `pid` under round robin the count of its consecutive ticks
goes up (or restarts at 1 for a new pid); at the quantum it goes back to 0 and one `CONTEXT_SWITCH` is enqueued. The
other policies, and a cycle that broke or faulted, leave quantum and queue alone. -/
def Obligations.QuantumRequestsSwitch : Prop :=
  ∀ (s : State) (pid : Nat),
    let t := s.afterCycle pid
    let n := if s.qPid = some pid then s.qCount + 1 else 1
    (s.cfg.policy = .rr → s.cycleResult = some .ok → n < s.cfg.quantum →
      t.qPid = some pid ∧ t.qCount = n ∧ t.intq = s.intq) ∧
    (s.cfg.policy = .rr → s.cycleResult = some .ok → s.cfg.quantum ≤ n →
      t.qPid = some pid ∧ t.qCount = 0 ∧ t.intq = s.intq ++ [.contextSwitch]) ∧
    (s.cfg.policy ≠ .rr ∨ s.cycleResult ≠ some .ok → t.qPid = s.qPid ∧ t.qCount = s.qCount ∧ t.intq = s.intq)

/-- The quantum count stays below the quantum, whatever happens in a tick. -/
def Obligations.QuantumStaysBelow : Prop := ∀ s t : State, s.quantumOk → step s = .next t → t.quantumOk

/-- 45_context_switch.md R115: an instruction tick counts one ready tick for every member of `READY` and one executing
tick for the executing PCB, whatever the cycle returned. -/
def Obligations.StatisticsPerInstructionTick : Prop :=
  ∀ (s t : State) (p : Pcb), s.halted = false → s.intq = [] → s.executing = some p → step s = .next t →
    t.ready = s.ready.map (fun q => { q with cyclesInReady := q.cyclesInReady + 1 }) ∧
    ∃ q, t.executing = some q ∧ q.pid = p.pid ∧ q.cyclesExecuting = p.cyclesExecuting + 1 ∧
      q.cyclesInReady = p.cyclesInReady

/-- 45_context_switch.md R116 for the executing process, by the tick of its `BREAK_PROGRAM`, `ERR_PROGRAM` or
`KILL_PROGRAM` record (60_exceptions.md R155, R156, R160): its PCB is appended to `TERMINATED`, its segment is zero and free and out of the
registry, the CPU is reset, its quantum is forgotten and its times are reported. -/
def Obligations.TerminationOfExecuting : Prop :=
  ∀ (s t : State) (p : Pcb) (i : Nat) (r : Interrupt) (records : List Interrupt), s.RunsIn p i →
    p.location = .memory → p.pid ∈ s.reg → s.halted = false → s.intq = r :: records →
    r.Terminates p.pid → step s = .next t →
    t.executing = none ∧ t.cpu = zeroCpu ∧ t.ready = s.ready ∧ t.resident = s.resident ∧ t.disk = s.disk ∧
    t.intq = records ∧
    t.terminated = s.terminated ++ [{ p with status := .terminated, occupiedSegment := none }] ∧
    t.occ = s.occ.set i false ∧ (∀ q, q ∈ t.reg ↔ q ≠ p.pid ∧ q ∈ s.reg) ∧
    (∀ a, Memory.read t.mem a =
      if i * s.cfg.segSize ≤ a ∧ a < i * s.cfg.segSize + s.cfg.segSize then 0#8 else Memory.read s.mem a) ∧
    (s.qPid = some p.pid → t.qPid = none ∧ t.qCount = 0) ∧ (s.qPid ≠ some p.pid → t.qPid = s.qPid ∧ t.qCount = s.qCount) ∧
    t.console = s.console ++
      [.putSystemText (.terminated p.pid p.cyclesInReady (p.cyclesInReady + p.cyclesExecuting))]

/-- 45_context_switch.md R116 for a pid that is not executing, by the tick of its `BREAK_PROGRAM`, `ERR_PROGRAM` or
`KILL_PROGRAM` record (60_exceptions.md R155, R156, R160): a pid that is not ready either is reported as not found and
nothing changes. A ready process leaves `READY` for `TERMINATED`: in memory its segment is zero, free and out of the
registry; on disk its swap file is deleted, and where it has none the disk stays as it is. An error met with the swap file
is reported, the process is terminated all the same and the disk is as it was (R151; assumption log 25). -/
def Obligations.TerminationOfReadyOrInactive : Prop :=
  ∀ (s : State) (pid : Nat) (r : Interrupt) (records : List Interrupt), s.halted = false → s.intq = r :: records →
    r.Terminates pid → (∀ p, s.executing = some p → p.pid ≠ pid) →
    ((∀ p ∈ s.ready, p.pid ≠ pid) →
      step s = .next { s with intq := records, console := s.console ++ [.putSystemText (.pidNotFound pid)] }) ∧
    (∀ before p after, s.ready = before ++ p :: after → p.pid = pid → (∀ q ∈ before, q.pid ≠ pid) →
      (∀ i, s.memoryOk → i < s.cfg.numSegments → p.location = .memory → p.occupiedSegment = some i → pid ∈ s.reg →
        ∃ m reg, step s = .next { Terminated s { p with occupiedSegment := none } [] with
            intq := records
            ready := before ++ after
            mem := m
            occ := s.occ.set i false
            reg := reg } ∧
          (∀ q, q ∈ reg ↔ q ≠ pid ∧ q ∈ s.reg) ∧
          ∀ a, Memory.read m a =
            if i * s.cfg.segSize ≤ a ∧ a < i * s.cfg.segSize + s.cfg.segSize then 0#8 else Memory.read s.mem a) ∧
      (p.location = .disk → s.SwapImageGone pid →
        step s = .next { Terminated s p [] with intq := records, ready := before ++ after }) ∧
      (∀ l img d, p.location = .disk → s.disk.lookup s.cfg (swapName pid) = .ok (some l) →
        s.disk.deleteSwap s.cfg pid = .ok (img, d) → pid ∉ d.swaps ∧
          step s = .next { Terminated s p [] with intq := records, ready := before ++ after, disk := d }) ∧
      (∀ e, p.location = .disk → ¬ s.SwapImageGone pid →
        s.disk.lookup s.cfg (swapName pid) = .error e ∨
          (∃ l, s.disk.lookup s.cfg (swapName pid) = .ok (some l)) ∧ s.disk.deleteSwap s.cfg pid = .error e →
        step s = .next { Terminated s p [.reclaimFailed pid e] with intq := records, ready := before ++ after }))

/-- 45_context_switch.md R108: the victim is the entry of `READY` nearest the tail that is in memory, and there is
none exactly when no entry is in memory. -/
def Obligations.VictimIsNearestTail : Prop :=
  ∀ s : State,
    (∀ v, s.victim = some v ↔ ∃ before after, s.ready = before ++ v :: after ∧ v.location = .memory ∧
      ∀ q ∈ after, q.location ≠ .memory) ∧
    (s.victim = none ↔ ∀ q ∈ s.ready, q.location ≠ .memory)

/-- 45_context_switch.md R105: priorities compare by value, and `+inf` sorts after every number. Under the priority policy an insertion puts the PCB after every entry whose priority is
not greater and before the first that is greater, and a sorted queue stays sorted; under the others it goes to the
tail. -/
def Obligations.ReadyInsertKeepsOrder : Prop :=
  (∀ m n : Int, (Priority.finite m).lt (.finite n) = true ↔ m < n) ∧
  (∀ m : Int, (Priority.finite m).lt .inf = true) ∧ (∀ q : Priority, Priority.inf.lt q = false) ∧
  (∀ (p : Pcb) (queue : List Pcb), readyInsert .rr p queue = queue ++ [p] ∧ readyInsert .fcfs p queue = queue ++ [p]) ∧
  (∀ (p : Pcb) (queue : List Pcb), queue.Pairwise (fun a b => b.priority.lt a.priority = false) →
    (readyInsert .priority p queue).Pairwise (fun a b => b.priority.lt a.priority = false) ∧
    ∃ before after, queue = before ++ after ∧ readyInsert .priority p queue = before ++ p :: after ∧
      (∀ q ∈ before, p.priority.lt q.priority = false) ∧ (∀ q ∈ after, p.priority.lt q.priority = true))

/-- 45_context_switch.md R106 and R110, with nothing executing: `next()` takes a memory-resident head off `READY` and
makes it the running process with `isExecuting` set, loading no register. A head on disk whose image is lost is
terminated. One that cannot be rolled in (no victim, or an error of the victim's roll-out or of the read-back) stays, and
only the error is reported; that a failed read-back, or a lookup that meets a corrupt block, is such a case and no lost
image is the model's choice (assumption log 10): the spec names no case for it. Else room is made, the swap image is read back and deleted and placed in the first free
segment, and the head runs. 60_exceptions.md R147, decision D1: dispatch and first instruction are one tick: with no
record pending the step is the step of the dispatched state, or ends there when no process came to run. -/
def Obligations.DispatchOfHead : Prop :=
  ∀ (s : State) (h : Pcb) (rest : List Pcb), s.executing = none → s.ready = h :: rest →
    (h.location ≠ .disk →
      s.nextProcess = { s with
        ready := rest
        executing := some { h with status := .running }
        cpu := { s.cpu with isExecuting := true } }) ∧
    (h.location = .disk → s.SwapImageGone h.pid →
      s.nextProcess = { Terminated s h [.rollInFailed h.pid .imageLost] with ready := rest }) ∧
    (∀ why, h.location = .disk → s.RollInStops h.pid why →
      s.nextProcess = { s with console := s.console ++ [.putSystemText (.rollInFailed h.pid why)] }) ∧
    (h.location = .disk → s.memoryOk → s.occ.length = s.cfg.numSegments → ¬ s.SwapImageGone h.pid →
      ∀ m img d j, s.RoomMade m → m.disk.deleteSwap m.cfg h.pid = .ok (img, d) → m.occ[j]? = some false →
        (∀ k < j, m.occ[k]? = some true) →
        ∃ u, m.RolledIn h.pid img d j u ∧ s.nextProcess = { u with
          ready := m.ready.tail
          executing := some { h with occupiedSegment := some j, location := .memory, status := .running }
          cpu := { s.cpu with isExecuting := true } }) ∧
    (s.halted = false → s.intq = [] →
      (s.nextProcess.executing ≠ none → step s = step s.nextProcess) ∧
      (s.nextProcess.executing = none → step s = .next s.nextProcess))

/-- 45_context_switch.md R104, 60_exceptions.md R154: `RUN_PROGRAM` moves a resident PCB to the ready queue, as ready,
by the policy's insertion; a pid that is not resident is reported and nothing changes. R159: `RUN_ALL_PROGRAMS` does so
for every resident PCB in ascending pid order (`inOrder` is those PCBs in that order), and leaves none resident. -/
def Obligations.RunProgramRecord : Prop :=
  (∀ (s : State) (inOrder : List Pcb) (records : List Interrupt), s.halted = false →
    s.intq = .runAllPrograms :: records → inOrder.Perm s.resident → inOrder.Pairwise (fun p q => p.pid < q.pid) →
    step s = .next { s with
      intq := records
      resident := []
      ready := inOrder.foldl (fun queue p => readyInsert s.cfg.policy { p with status := .ready } queue) s.ready }) ∧
  ∀ (s : State) (pid : Nat) (records : List Interrupt), s.halted = false → s.intq = .runProgram pid :: records →
    ((∀ p ∈ s.resident, p.pid ≠ pid) →
      step s = .next { s with intq := records, console := s.console ++ [.putSystemText (.pidNotFound pid)] }) ∧
    (∀ before p after, s.resident = before ++ p :: after → p.pid = pid → (∀ q ∈ before, q.pid ≠ pid) →
      step s = .next { s with
        intq := records
        resident := before ++ after
        ready := readyInsert s.cfg.policy { p with status := .ready } s.ready })

/-- 45_context_switch.md R103, 60_exceptions.md R153: `LOAD_PROGRAM` places the program in memory when a segment is free
(20_memory.md R42), else, cut at `SEG_SIZE`, in a swap file on the disk (46_disk_fs.md R135); it gives it the next pid,
registers its PCB in `RESIDENT` with the requested priority, and reports the pid; a disk error is reported, changes
nothing else and consumes no pid. -/
def Obligations.LoadProgramRecord : Prop :=
  ∀ (s : State) (program : List Byte) (priority : Option Int) (records : List Interrupt), s.halted = false →
    s.intq = .loadProgram program priority :: records → s.memoryOk → s.occ.length = s.cfg.numSegments →
    (∀ o ∈ s.resident, o.pid < s.nextPid) →
    let rank : Priority := match priority with
      | none => .inf
      | some n => .finite n
    ((∃ o ∈ s.occ, o = false) → ∃ (p : Pcb) (u : State), s.load program s.nextPid = .ok (p, u) ∧
      step s = .next { u with
        intq := records
        nextPid := s.nextPid + 1
        resident := s.resident ++ [{ p with status := .resident, priority := rank }]
        console := s.console ++ [.putSystemText (.loaded s.nextPid)] }) ∧
    ((∀ o ∈ s.occ, o = true) → ∀ d, s.disk.swapLoad s.cfg (program.take s.cfg.segSize) s.nextPid = .ok d →
      step s = .next { s with
        intq := records
        disk := d
        nextPid := s.nextPid + 1
        resident := s.resident ++ [
          { pid := s.nextPid, occupiedSegment := none, location := .disk, status := .resident, priority := rank,
            programCounter := 0#8, accumulator := 0#8, xReg := 0#8, yReg := 0#8, zFlag := false,
            lastInstruction := 0#8, fresh := true, cyclesInReady := 0, cyclesExecuting := 0 }]
        console := s.console ++ [.putSystemText (.loaded s.nextPid)] }) ∧
    ((∀ o ∈ s.occ, o = true) → ∀ e, s.disk.swapLoad s.cfg (program.take s.cfg.segSize) s.nextPid = .error e →
      step s = .next { s with
        intq := records
        console := s.console ++ [.putSystemText (.loadFailed (.fs e))] })

/-! ## The disk -/

/-- 46_disk_fs.md R120: the stored form of a block is 64 bytes, the state, the pointer's three coordinates and the
content, and decodes to the block; a state byte other than 0x00 and 0x01, or a pointer off the grid, decodes as corrupt,
and reading a corrupt block is `CorruptChain`. -/
def Obligations.StoredBlockRoundTrip : Prop :=
  ∀ c : Config, c.legal = true →
    (∀ b : FsBlock, b.pointer.onGrid c = true → FsBlock.decode c b.encode = some b) ∧
    (∀ b : FsBlock, b.encode = (match b.state with | .available => 0x00#8 | .occupied => 0x01#8) ::
      BitVec.ofNat 8 b.pointer.t :: BitVec.ofNat 8 b.pointer.s :: BitVec.ofNat 8 b.pointer.b :: b.content) ∧
    (∀ b : FsBlock, b.content.length = 60 → b.encode.length = 64) ∧
    (∀ (d : Disk) (l : DiskLoc), FsBlock.decode c (d.stored l) = none → d.readBlock c l = .error .corruptChain) ∧
    (∀ (st t s b : Byte) (content : List Byte), st ≠ 0x00#8 → st ≠ 0x01#8 →
      FsBlock.decode c (st :: t :: s :: b :: content) = none) ∧
    (∀ (st t s b : Byte) (content : List Byte),
      c.numTracks ≤ t.toNat ∨ c.numSectors ≤ s.toNat ∨ c.numBlocks ≤ b.toNat →
      FsBlock.decode c (st :: t :: s :: b :: content) = none)

/-- 46_disk_fs.md R136, R137 (5): on a canonical disk, a swap file that was written reads back as the bytes written
followed only by zero bytes, and its read-back deletes it. -/
def Obligations.SwapRoundTrip : Prop :=
  ∀ (c : Config) (d d' : Disk) (program : List Byte) (pid : Nat), c.legal = true →
    Sparse.wf unlistedBlock d.blocks = true → d.swapLoad c program pid = .ok d' →
    pid ∈ d'.swaps ∧ ∃ (img : List Byte) (d'' : Disk), d'.deleteSwap c pid = .ok (img, d'') ∧
      img.take program.length = program ∧ (∀ b ∈ img.drop program.length, b = 0x00#8) ∧
      d''.lookup c (swapName pid) = .ok none ∧ pid ∉ d''.swaps

/-- 45_context_switch.md R111: a process rolled out and then rolled in finds its `SEG_SIZE` bytes as they were, in
whatever segment it is placed. -/
def Obligations.RollOutRollInKeepsImage : Prop :=
  ∀ (s t : State) (v : Pcb) (i : Nat), s.memoryOk → s.diskOk → s.occ.length = s.cfg.numSegments →
    v.occupiedSegment = some i → s.rollOut v = .ok t →
    ∃ (h : Pcb) (u : State) (j : Nat),
      t.loadImage { v with occupiedSegment := none, location := .disk } = .ok (h, u) ∧
      h = { v with occupiedSegment := some j, location := .memory } ∧
      ∀ k < s.cfg.segSize, u.segByte j k = s.segByte i k

/-- 46_disk_fs.md R129, R130, R137 (1): what is appended to a new file in two appends of text (no 0x00 byte) is read
back in order. -/
def Obligations.AppendsConcatenate : Prop :=
  ∀ (c : Config) (d d1 d2 d3 : Disk) (name a b : List Byte), c.legal = true →
    Sparse.wf unlistedBlock d.blocks = true → (∀ x ∈ a ++ b, x ≠ 0x00#8) →
    d.createFile c name = .ok d1 → d1.appendToFile c name a = .ok d2 → d2.appendToFile c name b = .ok d3 →
    d2.readFile c name = .ok a ∧ d3.readFile c name = .ok (a ++ b)

/-- 46_disk_fs.md R132, R137 (2): a new file that was written can be deleted; it is then no file, and creating it again
succeeds and reads as empty, without residue. -/
def Obligations.DeleteLeavesNoResidue : Prop :=
  ∀ (c : Config) (d d1 d2 : Disk) (name data : List Byte), c.legal = true →
    Sparse.wf unlistedBlock d.blocks = true → d.createFile c name = .ok d1 →
    d1.appendToFile c name data = .ok d2 →
    ∃ d3, d2.deleteFile c name = .ok d3 ∧ d3.lookup c name = .ok none ∧
      ∃ d4, d3.createFile c name = .ok d4 ∧ d4.readFile c name = .ok []

/-- 70_reset_and_hazards.md R176: the raw disk is not read before it is formatted: from a state whose disk is not
formatted, the step with any other raw blocks differs at most in those blocks. (So nothing that follows from reset
rests on the raw blocks State.reset has, assumption log 2.) -/
def Obligations.UnformattedDiskIsUnread : Prop :=
  ∀ (s t : State) (raw : List (Nat × List Byte)), s.disk.formatted = false → step s = .next t →
    step { s with disk := { s.disk with blocks := raw } } = .next t ∨
      (t.disk.formatted = false ∧ t.disk.blocks = s.disk.blocks ∧
        step { s with disk := { s.disk with blocks := raw } } =
          .next { t with disk := { t.disk with blocks := raw } })

/-! ## Invariants -/

/-- Every step keeps the byte store in canonical form and inside `[0, MEM_SIZE)`, with legal parameters and the table
of R37. -/
def Obligations.MemoryStaysCanonical : Prop := ∀ s t : State, s.memoryOk → step s = .next t → t.memoryOk

/-- Every step keeps the disk in canonical form: 64-byte blocks on the grid, none listed that is fresh. -/
def Obligations.DiskStaysCanonical : Prop := ∀ s t : State, s.diskOk → step s = .next t → t.diskOk

/-- 45_context_switch.md R117 (6), 70_reset_and_hazards.md R181: between ticks every waiting PCB is fresh and the
executing one is not. -/
def Obligations.HandshakeKept : Prop := ∀ s t : State, s.handshakeOk → step s = .next t → t.handshakeOk

/-- 45_context_switch.md R117 (1), (2), (3), (5), 20_memory.md R38, R46: every step keeps the process table: each PCB
in one place with its status, registry and occupancy in agreement with the PCBs' segments, no segment shared, free
segments zero. -/
def Obligations.ProcessTableKept : Prop :=
  ∀ s t : State, s.memoryOk → s.processesOk → s.freeSegmentsZero → step s = .next t →
    t.memoryOk ∧ t.processesOk ∧ t.freeSegmentsZero

/-- A machine just built with any legal parameters meets every invariant; State.reset is such a machine. -/
def Obligations.PowerOnMeetsInvariants : Prop :=
  (∀ c : Config, c.legal = true →
    (State.powerOn c).memoryOk ∧ (State.powerOn c).diskOk ∧ (State.powerOn c).handshakeOk ∧
      (State.powerOn c).quantumOk ∧ (State.powerOn c).processesOk ∧ (State.powerOn c).freeSegmentsZero) ∧
  Config.default.legal = true ∧ State.reset = State.powerOn Config.default

/-- 10_state.md R33: the values after construction that the spec gives. That the machine of `State.reset` has the default
parameters is the model's choice (assumption log 1). -/
def Obligations.ResetValues : Prop :=
  let s := State.reset
  s.cpu = zeroCpu ∧ (∀ a, Memory.read s.mem a = 0x00#8) ∧ s.seg = segmentTable s.cfg ∧
    s.occ = List.replicate s.cfg.numSegments false ∧ s.reg = [] ∧ s.ready = [] ∧ s.resident = [] ∧
    s.terminated = [] ∧ s.executing = none ∧ s.nextPid = 0 ∧ s.qPid = none ∧ s.qCount = 0 ∧
    s.disk.formatted = false ∧ s.disk.swaps = [] ∧ s.intq = [] ∧ s.halted = false

/-- 60_exceptions.md R157: after a `REQUEST_CLEAR_MEMORY` record every segment is free and every byte of the store is
zero; no live process is in memory, and the disk-resident ones are where they were. -/
def Obligations.ClearMemoryFreesEverything : Prop :=
  ∀ (s t : State) (records : List Interrupt), s.memoryOk → s.processesOk → s.freeSegmentsZero → s.halted = false →
    s.intq = .requestClearMemory :: records → step s = .next t →
    (∀ o ∈ t.occ, o = false) ∧ t.mem = [] ∧ t.executing = none ∧ t.disk = s.disk ∧
    t.ready = s.ready.filter (fun p => p.location == .disk) ∧
    t.resident = s.resident.filter (fun p => p.location == .disk)

/-! ## Program text and configurations -/

/-- 30_encoding.md R64, R65: the rendering of bytes as two hex digits each, separated by whitespace, parses back to
the bytes; a token of any other length than two, or with a character that is no hex digit, is a parse error. A load given
as text becomes a `LOAD_PROGRAM` record when it parses; a malformed one is reported and nothing else changes
(60_exceptions.md R163; that the parse stands at the host's side of the queue is the model's choice, assumption log 30). -/
def Obligations.ParseOfRenderedText : Prop :=
  (∀ bs : List Byte, parseProgram (bs.flatMap fun b => renderByte b ++ [' ']) = .ok bs) ∧
  (∀ token : List Char, (∀ c ∈ token, isSpace c = false) → token ≠ [] → token.length ≠ 2 →
    parseProgram token = .error (.malformedToken token)) ∧
  (∀ a b : Char, isSpace a = false → isSpace b = false → hexDigit a = none ∨ hexDigit b = none →
    parseProgram [a, b] = .error (.malformedToken [a, b])) ∧
  (∀ text : List Char, (∀ c ∈ text, isSpace c = true) → parseProgram text = .ok []) ∧
  (∀ (s : State) (text : List Char) (priority : Option Int),
    (∀ program, parseProgram text = .ok program → s.hostInput (.programText text priority) =
      { s with intq := s.intq ++ [.loadProgram program priority] }) ∧
    (∀ e, parseProgram text = .error e → s.hostInput (.programText text priority) =
      { s with console := s.console ++ [.putSystemText (.malformedProgram e)] }))

/-- 00_scope.md R9: a configuration that violates a constraint is refused, no machine is built; a legal one is built
with its own parameters. -/
def Obligations.BadConfigurationRefused : Prop :=
  ∀ c : Config,
    (¬ (1 ≤ c.memSize ∧ 1 ≤ c.numSegments ∧ c.memSize % c.numSegments = 0 ∧ 1 ≤ c.quantum ∧ 2 ≤ c.numTracks ∧
        c.numTracks ≤ 10 ∧ 1 ≤ c.numSectors ∧ c.numSectors ≤ 10 ∧ 1 ≤ c.numBlocks ∧ c.numBlocks ≤ 10 ∧
        2 ≤ c.numSectors * c.numBlocks) → State.construct c = .error .badConfiguration) ∧
    (c.legal = true → ∃ s, State.construct c = .ok s ∧ s.cfg = c)
end

