-- ==== Sys2Proof/Laws/Sparse.lean ====
section
/-! SUPPORT. The laws of sparse stores: read after write, the canonical form is kept, equal reads are equal data. -/

namespace Sys2Proof.Machine

variable {α : Type}

section
variable [DecidableEq α] {dflt : Nat → α}

theorem Sparse.wf_cons {a : Nat} {v : α} {m : List (Nat × α)} :
    Sparse.wf dflt ((a, v) :: m) = true ↔ v ≠ dflt a ∧ (∀ e ∈ m, a < e.1) ∧ Sparse.wf dflt m = true := by
  simp [Sparse.wf, and_assoc]

omit [DecidableEq α] in
/-- A key below every listed one is not listed. -/
theorem Sparse.read_of_lt {m : List (Nat × α)} {k : Nat} (h : ∀ e ∈ m, k < e.1) :
    Sparse.read dflt m k = dflt k := by
  induction m with
  | nil => rfl
  | cons e m ih =>
    have := h e (by simp)
    rw [Sparse.read, if_neg (by omega)]
    exact ih fun e he => h e (by simp [he])

/-- The entries of a store after a write are old ones or the one written. -/
theorem Sparse.mem_write {m : List (Nat × α)} {k : Nat} {v : α} {e : Nat × α}
    (h : e ∈ Sparse.write dflt m k v) : e = (k, v) ∨ e ∈ m := by
  induction m with
  | nil =>
    simp only [Sparse.write] at h
    split at h <;> simp_all
  | cons f m ih =>
    obtain ⟨a, w⟩ := f
    simp only [Sparse.write] at h
    split at h
    · split at h <;> simp_all
    · split at h
      · split at h
        · exact .inr (List.mem_cons_of_mem _ h)
        · exact (List.mem_cons.1 h).imp_right (List.mem_cons_of_mem _)
      · rcases List.mem_cons.1 h with h | h
        · simp [h]
        · rcases ih h with h | h <;> simp [h]

/-- A write keeps the canonical form. -/
theorem Sparse.wf_write {m : List (Nat × α)} (hm : Sparse.wf dflt m = true) (k : Nat) (v : α) :
    Sparse.wf dflt (Sparse.write dflt m k v) = true := by
  induction m with
  | nil =>
    simp only [Sparse.write]
    split <;> simp_all [Sparse.wf]
  | cons f m ih =>
    obtain ⟨a, w⟩ := f
    obtain ⟨hw, hlt, hm'⟩ := Sparse.wf_cons.1 hm
    simp only [Sparse.write]
    split
    · split
      · exact hm
      · refine Sparse.wf_cons.2 ⟨by assumption, ?_, hm⟩
        intro e he
        rcases List.mem_cons.1 he with rfl | he
        · assumption
        · have := hlt e he; omega
    · split
      · subst_vars
        split
        · exact hm'
        · exact Sparse.wf_cons.2 ⟨by assumption, hlt, hm'⟩
      · refine Sparse.wf_cons.2 ⟨hw, ?_, ih hm'⟩
        intro e he
        rcases Sparse.mem_write he with rfl | he
        · simp only; omega
        · exact hlt e he

/-- Read after write: the key written holds the value written, every other key what it held. -/
theorem Sparse.read_write {m : List (Nat × α)} (hm : Sparse.wf dflt m = true) (k : Nat) (v : α) (j : Nat) :
    Sparse.read dflt (Sparse.write dflt m k v) j = if j = k then v else Sparse.read dflt m j := by
  induction m with
  | nil =>
    simp only [Sparse.write]
    split
    · by_cases hj : j = k
      · subst hj; simp_all [Sparse.read]
      · simp [hj]
    · by_cases hj : j = k
      · subst hj; simp [Sparse.read]
      · simp [Sparse.read, hj, Ne.symm hj]
  | cons f m ih =>
    obtain ⟨a, w⟩ := f
    obtain ⟨hw, hlt, hm'⟩ := Sparse.wf_cons.1 hm
    simp only [Sparse.write]
    split
    next hka =>
      have hbelow : ∀ e ∈ (a, w) :: m, k < e.1 := by
        intro e he
        rcases List.mem_cons.1 he with rfl | he
        · exact hka
        · have := hlt e he; omega
      split
      next hv =>
        by_cases hj : j = k
        · subst hj; rw [Sparse.read_of_lt hbelow]; simp [hv]
        · simp [hj]
      next hv =>
        by_cases hj : j = k
        · subst hj; simp [Sparse.read]
        · rw [Sparse.read, if_neg (Ne.symm hj), if_neg hj]
    next hka =>
      split
      next hk =>
        subst hk
        split
        next hv =>
          by_cases hj : j = k
          · subst hj; rw [Sparse.read_of_lt hlt]; simp [hv]
          · rw [if_neg hj, Sparse.read, if_neg (Ne.symm hj)]
        next hv =>
          by_cases hj : j = k
          · subst hj; simp [Sparse.read]
          · rw [if_neg hj, Sparse.read, if_neg (Ne.symm hj), Sparse.read, if_neg (Ne.symm hj)]
      next hk =>
        rw [Sparse.read, Sparse.read, ih hm']
        by_cases ha : a = j
        · subst ha; simp [Ne.symm hk]
        · simp [ha]

/-- Clearing a range keeps the canonical form. -/
theorem Sparse.wf_clearRange {m : List (Nat × α)} (hm : Sparse.wf dflt m = true) (lo n : Nat) :
    Sparse.wf dflt (Sparse.clearRange m lo n) = true := by
  induction m with
  | nil => rfl
  | cons f m ih =>
    obtain ⟨a, w⟩ := f
    obtain ⟨hw, hlt, hm'⟩ := Sparse.wf_cons.1 hm
    have ih := ih hm'
    simp only [Sparse.clearRange, List.filter_cons] at ih ⊢
    split
    · exact Sparse.wf_cons.2 ⟨hw, fun e he => hlt e (List.mem_filter.1 he).1, ih⟩
    · exact ih

omit [DecidableEq α] in
/-- The entries after a range is cleared are old ones outside the range. -/
theorem Sparse.mem_clearRange {m : List (Nat × α)} {lo n : Nat} {e : Nat × α} :
    e ∈ Sparse.clearRange m lo n ↔ e ∈ m ∧ ¬ (lo ≤ e.1 ∧ e.1 < lo + n) := by
  simp only [Sparse.clearRange, List.mem_filter, Bool.not_eq_true', Bool.and_eq_false_iff, decide_eq_false_iff_not]
  constructor
  · rintro ⟨h, h'⟩; exact ⟨h, by omega⟩
  · rintro ⟨h, h'⟩; exact ⟨h, by omega⟩

omit [DecidableEq α] in
/-- Reading after a range is cleared. -/
theorem Sparse.read_clearRange (m : List (Nat × α)) (lo n j : Nat) :
    Sparse.read dflt (Sparse.clearRange m lo n) j =
      if lo ≤ j ∧ j < lo + n then dflt j else Sparse.read dflt m j := by
  induction m with
  | nil => simp [Sparse.clearRange, Sparse.read]
  | cons f m ih =>
    obtain ⟨a, w⟩ := f
    simp only [Sparse.clearRange, List.filter_cons] at ih ⊢
    split
    next h =>
      have h : ¬ (lo ≤ a ∧ a < lo + n) := by simp at h; omega
      rw [Sparse.read, Sparse.read, ih]
      by_cases ha : a = j
      · subst ha; rw [if_pos rfl, if_neg h, if_pos rfl]
      · simp [ha]
    next h =>
      have h : lo ≤ a ∧ a < lo + n := by simpa using h
      rw [ih, Sparse.read]
      by_cases ha : a = j
      · subst ha; simp [h]
      · simp [ha]

/-- Equal reads are equal data: two canonical stores that read alike at every key are the same list. -/
theorem Sparse.ext {m n : List (Nat × α)} (hm : Sparse.wf dflt m = true) (hn : Sparse.wf dflt n = true)
    (h : ∀ k, Sparse.read dflt m k = Sparse.read dflt n k) : m = n := by
  induction m generalizing n with
  | nil =>
    cases n with
    | nil => rfl
    | cons f n =>
      obtain ⟨b, w⟩ := f
      exact absurd (by simpa [Sparse.read] using (h b).symm) (Sparse.wf_cons.1 hn).1
  | cons e m ih =>
    obtain ⟨a, v⟩ := e
    obtain ⟨hv, hlt, hm'⟩ := Sparse.wf_cons.1 hm
    cases n with
    | nil => exact absurd (by simpa [Sparse.read] using h a) hv
    | cons f n =>
      obtain ⟨b, w⟩ := f
      obtain ⟨hw, hlt', hn'⟩ := Sparse.wf_cons.1 hn
      have hab : a = b := by
        rcases Nat.lt_trichotomy a b with hab | hab | hab
        · have hb : ∀ e ∈ (b, w) :: n, a < e.1 := by
            intro e he
            rcases List.mem_cons.1 he with rfl | he
            · exact hab
            · have := hlt' e he; omega
          have := h a
          rw [Sparse.read_of_lt hb] at this
          exact absurd (by simpa [Sparse.read] using this) hv
        · exact hab
        · have hb : ∀ e ∈ (a, v) :: m, b < e.1 := by
            intro e he
            rcases List.mem_cons.1 he with rfl | he
            · exact hab
            · have := hlt e he; omega
          have := h b
          rw [Sparse.read_of_lt hb] at this
          exact absurd (by simpa [Sparse.read] using this.symm) hw
      subst hab
      have hvw : v = w := by simpa [Sparse.read] using h a
      subst hvw
      congr 1
      refine ih hm' hn' fun k => ?_
      by_cases hk : a = k
      · subst hk; rw [Sparse.read_of_lt hlt, Sparse.read_of_lt hlt']
      · simpa [Sparse.read, hk] using h k

end

/-! ## The byte store -/

@[simp] theorem Memory.read_nil (a : Nat) : Memory.read [] a = 0x00#8 := rfl

/-- Read after write on the byte store (20_memory.md R34). -/
theorem Memory.read_write {m : Memory} (hm : Memory.wf m = true) (a : Nat) (v : Byte) (b : Nat) :
    Memory.read (Memory.write m a v) b = if b = a then v else Memory.read m b :=
  Sparse.read_write hm a v b

theorem Memory.wf_write {m : Memory} (hm : Memory.wf m = true) (a : Nat) (v : Byte) :
    Memory.wf (Memory.write m a v) = true :=
  Sparse.wf_write hm a v

theorem Memory.mem_write {m : Memory} {a : Nat} {v : Byte} {e : Host.Cell} (h : e ∈ Memory.write m a v) :
    e = (a, v) ∨ e ∈ m :=
  Sparse.mem_write h

theorem Memory.wf_writeBytes {m : Memory} (hm : Memory.wf m = true) (a : Nat) (bs : List Byte) :
    Memory.wf (Memory.writeBytes m a bs) = true := by
  induction bs generalizing m a with
  | nil => exact hm
  | cons b bs ih => exact ih (Memory.wf_write hm a b) (a + 1)

/-- Reading after bytes are stored at `a`, `a + 1`, ... -/
theorem Memory.read_writeBytes {m : Memory} (hm : Memory.wf m = true) (a : Nat) (bs : List Byte) (b : Nat) :
    Memory.read (Memory.writeBytes m a bs) b =
      if a ≤ b ∧ b < a + bs.length then bs.getD (b - a) 0x00#8 else Memory.read m b := by
  induction bs generalizing m a with
  | nil => rw [if_neg (by simp only [List.length_nil]; omega)]; rfl
  | cons x bs ih =>
    rw [Memory.writeBytes, ih (Memory.wf_write hm a x), Memory.read_write hm]
    by_cases h1 : b = a
    · subst h1
      rw [if_neg (by omega), if_pos rfl, if_pos (by simp), Nat.sub_self]; rfl
    · by_cases h2 : a + 1 ≤ b ∧ b < a + 1 + bs.length
      · have h3 : a ≤ b ∧ b < a + (x :: bs).length := by simp; omega
        have h4 : b - a = (b - (a + 1)) + 1 := by omega
        rw [if_pos h2, if_pos h3, h4, List.getD_cons_succ]
      · have h3 : ¬ (a ≤ b ∧ b < a + (x :: bs).length) := by simp; omega
        rw [if_neg h2, if_neg h3, if_neg h1]

theorem Memory.mem_writeBytes {m : Memory} {a : Nat} {bs : List Byte} {e : Host.Cell}
    (h : e ∈ Memory.writeBytes m a bs) : e ∈ m ∨ (a ≤ e.1 ∧ e.1 < a + bs.length) := by
  induction bs generalizing m a with
  | nil => exact .inl h
  | cons b bs ih =>
    rcases ih h with h | h
    · rcases Memory.mem_write h with rfl | h
      · right; simp
      · exact .inl h
    · right; simp; omega

theorem Memory.wf_zeroRange {m : Memory} (hm : Memory.wf m = true) (lo n : Nat) :
    Memory.wf (Memory.zeroRange m lo n) = true :=
  Sparse.wf_clearRange hm lo n

/-- Reading after a range is zero-filled. -/
theorem Memory.read_zeroRange (m : Memory) (lo n b : Nat) :
    Memory.read (Memory.zeroRange m lo n) b = if lo ≤ b ∧ b < lo + n then 0x00#8 else Memory.read m b :=
  Sparse.read_clearRange m lo n b

/-- Zero-filling a range at once is storing 0x00 at each of its addresses (20_memory.md R44). -/
theorem Memory.zeroRange_eq_writeBytes {m : Memory} (hm : Memory.wf m = true) (lo n : Nat) :
    Memory.zeroRange m lo n = Memory.writeBytes m lo (List.replicate n 0x00#8) := by
  refine Sparse.ext (Memory.wf_zeroRange hm lo n) (Memory.wf_writeBytes hm lo _) fun k => ?_
  have h1 := Memory.read_zeroRange m lo n k
  have h2 := Memory.read_writeBytes hm lo (List.replicate n 0x00#8) k
  rw [List.length_replicate] at h2
  change Memory.read _ k = Memory.read _ k
  rw [h1, h2]
  split
  · next h => rw [List.getD_eq_getElem?_getD, List.getElem?_replicate_of_lt (by omega)]; rfl
  · rfl

theorem Memory.mem_zeroRange {m : Memory} {lo n : Nat} {e : Host.Cell} (h : e ∈ Memory.zeroRange m lo n) : e ∈ m :=
  (Sparse.mem_clearRange.1 h).1

@[simp] theorem Memory.length_readBytes (m : Memory) (a n : Nat) : (Memory.readBytes m a n).length = n := by
  simp [Memory.readBytes]

theorem Memory.getElem?_readBytes (m : Memory) (a n j : Nat) :
    (Memory.readBytes m a n)[j]? = if j < n then some (Memory.read m (a + j)) else none := by
  unfold Memory.readBytes
  split
  · next h => simp [h]
  · next h => simp [h]

end Sys2Proof.Machine
end

