-- ==== Sys2Proof/Laws/State.lean ====
section
/-! SUPPORT. One lemma per field per update of the state, true by `rfl`, so that no proof unfolds a record update. -/

namespace Sys2Proof.Machine

variable (s : State)

/-! ### `State.setCpu` -/

@[simp] theorem State.setCpu_cfg (c : Cpu) : (s.setCpu c).cfg = s.cfg := rfl
@[simp] theorem State.setCpu_cpu (c : Cpu) : (s.setCpu c).cpu = c := rfl
@[simp] theorem State.setCpu_mem (c : Cpu) : (s.setCpu c).mem = s.mem := rfl
@[simp] theorem State.setCpu_seg (c : Cpu) : (s.setCpu c).seg = s.seg := rfl
@[simp] theorem State.setCpu_occ (c : Cpu) : (s.setCpu c).occ = s.occ := rfl
@[simp] theorem State.setCpu_reg (c : Cpu) : (s.setCpu c).reg = s.reg := rfl
@[simp] theorem State.setCpu_ready (c : Cpu) : (s.setCpu c).ready = s.ready := rfl
@[simp] theorem State.setCpu_resident (c : Cpu) : (s.setCpu c).resident = s.resident := rfl
@[simp] theorem State.setCpu_terminated (c : Cpu) : (s.setCpu c).terminated = s.terminated := rfl
@[simp] theorem State.setCpu_executing (c : Cpu) : (s.setCpu c).executing = s.executing := rfl
@[simp] theorem State.setCpu_nextPid (c : Cpu) : (s.setCpu c).nextPid = s.nextPid := rfl
@[simp] theorem State.setCpu_qPid (c : Cpu) : (s.setCpu c).qPid = s.qPid := rfl
@[simp] theorem State.setCpu_qCount (c : Cpu) : (s.setCpu c).qCount = s.qCount := rfl
@[simp] theorem State.setCpu_disk (c : Cpu) : (s.setCpu c).disk = s.disk := rfl
@[simp] theorem State.setCpu_intq (c : Cpu) : (s.setCpu c).intq = s.intq := rfl
@[simp] theorem State.setCpu_halted (c : Cpu) : (s.setCpu c).halted = s.halted := rfl
@[simp] theorem State.setCpu_console (c : Cpu) : (s.setCpu c).console = s.console := rfl
@[simp] theorem State.setCpu_display (c : Cpu) : (s.setCpu c).display = s.display := rfl
@[simp] theorem State.setCpu_cycleResult (c : Cpu) : (s.setCpu c).cycleResult = s.cycleResult := rfl

/-! ### `State.setMem` -/

@[simp] theorem State.setMem_cfg (m : Memory) : (s.setMem m).cfg = s.cfg := rfl
@[simp] theorem State.setMem_cpu (m : Memory) : (s.setMem m).cpu = s.cpu := rfl
@[simp] theorem State.setMem_mem (m : Memory) : (s.setMem m).mem = m := rfl
@[simp] theorem State.setMem_seg (m : Memory) : (s.setMem m).seg = s.seg := rfl
@[simp] theorem State.setMem_occ (m : Memory) : (s.setMem m).occ = s.occ := rfl
@[simp] theorem State.setMem_reg (m : Memory) : (s.setMem m).reg = s.reg := rfl
@[simp] theorem State.setMem_ready (m : Memory) : (s.setMem m).ready = s.ready := rfl
@[simp] theorem State.setMem_resident (m : Memory) : (s.setMem m).resident = s.resident := rfl
@[simp] theorem State.setMem_terminated (m : Memory) : (s.setMem m).terminated = s.terminated := rfl
@[simp] theorem State.setMem_executing (m : Memory) : (s.setMem m).executing = s.executing := rfl
@[simp] theorem State.setMem_nextPid (m : Memory) : (s.setMem m).nextPid = s.nextPid := rfl
@[simp] theorem State.setMem_qPid (m : Memory) : (s.setMem m).qPid = s.qPid := rfl
@[simp] theorem State.setMem_qCount (m : Memory) : (s.setMem m).qCount = s.qCount := rfl
@[simp] theorem State.setMem_disk (m : Memory) : (s.setMem m).disk = s.disk := rfl
@[simp] theorem State.setMem_intq (m : Memory) : (s.setMem m).intq = s.intq := rfl
@[simp] theorem State.setMem_halted (m : Memory) : (s.setMem m).halted = s.halted := rfl
@[simp] theorem State.setMem_console (m : Memory) : (s.setMem m).console = s.console := rfl
@[simp] theorem State.setMem_display (m : Memory) : (s.setMem m).display = s.display := rfl
@[simp] theorem State.setMem_cycleResult (m : Memory) : (s.setMem m).cycleResult = s.cycleResult := rfl

/-! ### `State.setExecuting` -/

@[simp] theorem State.setExecuting_cfg (p : Option Pcb) : (s.setExecuting p).cfg = s.cfg := rfl
@[simp] theorem State.setExecuting_cpu (p : Option Pcb) : (s.setExecuting p).cpu = s.cpu := rfl
@[simp] theorem State.setExecuting_mem (p : Option Pcb) : (s.setExecuting p).mem = s.mem := rfl
@[simp] theorem State.setExecuting_seg (p : Option Pcb) : (s.setExecuting p).seg = s.seg := rfl
@[simp] theorem State.setExecuting_occ (p : Option Pcb) : (s.setExecuting p).occ = s.occ := rfl
@[simp] theorem State.setExecuting_reg (p : Option Pcb) : (s.setExecuting p).reg = s.reg := rfl
@[simp] theorem State.setExecuting_ready (p : Option Pcb) : (s.setExecuting p).ready = s.ready := rfl
@[simp] theorem State.setExecuting_resident (p : Option Pcb) : (s.setExecuting p).resident = s.resident := rfl
@[simp] theorem State.setExecuting_terminated (p : Option Pcb) : (s.setExecuting p).terminated = s.terminated := rfl
@[simp] theorem State.setExecuting_executing (p : Option Pcb) : (s.setExecuting p).executing = p := rfl
@[simp] theorem State.setExecuting_nextPid (p : Option Pcb) : (s.setExecuting p).nextPid = s.nextPid := rfl
@[simp] theorem State.setExecuting_qPid (p : Option Pcb) : (s.setExecuting p).qPid = s.qPid := rfl
@[simp] theorem State.setExecuting_qCount (p : Option Pcb) : (s.setExecuting p).qCount = s.qCount := rfl
@[simp] theorem State.setExecuting_disk (p : Option Pcb) : (s.setExecuting p).disk = s.disk := rfl
@[simp] theorem State.setExecuting_intq (p : Option Pcb) : (s.setExecuting p).intq = s.intq := rfl
@[simp] theorem State.setExecuting_halted (p : Option Pcb) : (s.setExecuting p).halted = s.halted := rfl
@[simp] theorem State.setExecuting_console (p : Option Pcb) : (s.setExecuting p).console = s.console := rfl
@[simp] theorem State.setExecuting_display (p : Option Pcb) : (s.setExecuting p).display = s.display := rfl
@[simp] theorem State.setExecuting_cycleResult (p : Option Pcb) : (s.setExecuting p).cycleResult = s.cycleResult := rfl

/-! ### `State.setResult` -/

@[simp] theorem State.setResult_cfg (r : CycleResult) : (s.setResult r).cfg = s.cfg := rfl
@[simp] theorem State.setResult_cpu (r : CycleResult) : (s.setResult r).cpu = s.cpu := rfl
@[simp] theorem State.setResult_mem (r : CycleResult) : (s.setResult r).mem = s.mem := rfl
@[simp] theorem State.setResult_seg (r : CycleResult) : (s.setResult r).seg = s.seg := rfl
@[simp] theorem State.setResult_occ (r : CycleResult) : (s.setResult r).occ = s.occ := rfl
@[simp] theorem State.setResult_reg (r : CycleResult) : (s.setResult r).reg = s.reg := rfl
@[simp] theorem State.setResult_ready (r : CycleResult) : (s.setResult r).ready = s.ready := rfl
@[simp] theorem State.setResult_resident (r : CycleResult) : (s.setResult r).resident = s.resident := rfl
@[simp] theorem State.setResult_terminated (r : CycleResult) : (s.setResult r).terminated = s.terminated := rfl
@[simp] theorem State.setResult_executing (r : CycleResult) : (s.setResult r).executing = s.executing := rfl
@[simp] theorem State.setResult_nextPid (r : CycleResult) : (s.setResult r).nextPid = s.nextPid := rfl
@[simp] theorem State.setResult_qPid (r : CycleResult) : (s.setResult r).qPid = s.qPid := rfl
@[simp] theorem State.setResult_qCount (r : CycleResult) : (s.setResult r).qCount = s.qCount := rfl
@[simp] theorem State.setResult_disk (r : CycleResult) : (s.setResult r).disk = s.disk := rfl
@[simp] theorem State.setResult_intq (r : CycleResult) : (s.setResult r).intq = s.intq := rfl
@[simp] theorem State.setResult_halted (r : CycleResult) : (s.setResult r).halted = s.halted := rfl
@[simp] theorem State.setResult_console (r : CycleResult) : (s.setResult r).console = s.console := rfl
@[simp] theorem State.setResult_display (r : CycleResult) : (s.setResult r).display = s.display := rfl
@[simp] theorem State.setResult_cycleResult (r : CycleResult) : (s.setResult r).cycleResult = some r := rfl

/-! ### `State.enqueue` -/

@[simp] theorem State.enqueue_cfg (r : Interrupt) : (s.enqueue r).cfg = s.cfg := rfl
@[simp] theorem State.enqueue_cpu (r : Interrupt) : (s.enqueue r).cpu = s.cpu := rfl
@[simp] theorem State.enqueue_mem (r : Interrupt) : (s.enqueue r).mem = s.mem := rfl
@[simp] theorem State.enqueue_seg (r : Interrupt) : (s.enqueue r).seg = s.seg := rfl
@[simp] theorem State.enqueue_occ (r : Interrupt) : (s.enqueue r).occ = s.occ := rfl
@[simp] theorem State.enqueue_reg (r : Interrupt) : (s.enqueue r).reg = s.reg := rfl
@[simp] theorem State.enqueue_ready (r : Interrupt) : (s.enqueue r).ready = s.ready := rfl
@[simp] theorem State.enqueue_resident (r : Interrupt) : (s.enqueue r).resident = s.resident := rfl
@[simp] theorem State.enqueue_terminated (r : Interrupt) : (s.enqueue r).terminated = s.terminated := rfl
@[simp] theorem State.enqueue_executing (r : Interrupt) : (s.enqueue r).executing = s.executing := rfl
@[simp] theorem State.enqueue_nextPid (r : Interrupt) : (s.enqueue r).nextPid = s.nextPid := rfl
@[simp] theorem State.enqueue_qPid (r : Interrupt) : (s.enqueue r).qPid = s.qPid := rfl
@[simp] theorem State.enqueue_qCount (r : Interrupt) : (s.enqueue r).qCount = s.qCount := rfl
@[simp] theorem State.enqueue_disk (r : Interrupt) : (s.enqueue r).disk = s.disk := rfl
@[simp] theorem State.enqueue_intq (r : Interrupt) : (s.enqueue r).intq = s.intq ++ [r] := rfl
@[simp] theorem State.enqueue_halted (r : Interrupt) : (s.enqueue r).halted = s.halted := rfl
@[simp] theorem State.enqueue_console (r : Interrupt) : (s.enqueue r).console = s.console := rfl
@[simp] theorem State.enqueue_display (r : Interrupt) : (s.enqueue r).display = s.display := rfl
@[simp] theorem State.enqueue_cycleResult (r : Interrupt) : (s.enqueue r).cycleResult = s.cycleResult := rfl

/-! ### `State.emit` -/

@[simp] theorem State.emit_cfg (m : ConsoleMsg) : (s.emit m).cfg = s.cfg := rfl
@[simp] theorem State.emit_cpu (m : ConsoleMsg) : (s.emit m).cpu = s.cpu := rfl
@[simp] theorem State.emit_mem (m : ConsoleMsg) : (s.emit m).mem = s.mem := rfl
@[simp] theorem State.emit_seg (m : ConsoleMsg) : (s.emit m).seg = s.seg := rfl
@[simp] theorem State.emit_occ (m : ConsoleMsg) : (s.emit m).occ = s.occ := rfl
@[simp] theorem State.emit_reg (m : ConsoleMsg) : (s.emit m).reg = s.reg := rfl
@[simp] theorem State.emit_ready (m : ConsoleMsg) : (s.emit m).ready = s.ready := rfl
@[simp] theorem State.emit_resident (m : ConsoleMsg) : (s.emit m).resident = s.resident := rfl
@[simp] theorem State.emit_terminated (m : ConsoleMsg) : (s.emit m).terminated = s.terminated := rfl
@[simp] theorem State.emit_executing (m : ConsoleMsg) : (s.emit m).executing = s.executing := rfl
@[simp] theorem State.emit_nextPid (m : ConsoleMsg) : (s.emit m).nextPid = s.nextPid := rfl
@[simp] theorem State.emit_qPid (m : ConsoleMsg) : (s.emit m).qPid = s.qPid := rfl
@[simp] theorem State.emit_qCount (m : ConsoleMsg) : (s.emit m).qCount = s.qCount := rfl
@[simp] theorem State.emit_disk (m : ConsoleMsg) : (s.emit m).disk = s.disk := rfl
@[simp] theorem State.emit_intq (m : ConsoleMsg) : (s.emit m).intq = s.intq := rfl
@[simp] theorem State.emit_halted (m : ConsoleMsg) : (s.emit m).halted = s.halted := rfl
@[simp] theorem State.emit_console (m : ConsoleMsg) : (s.emit m).console = s.console ++ [m] := rfl
@[simp] theorem State.emit_display (m : ConsoleMsg) : (s.emit m).display = s.display := rfl
@[simp] theorem State.emit_cycleResult (m : ConsoleMsg) : (s.emit m).cycleResult = s.cycleResult := rfl

/-! ### `State.report` -/

@[simp] theorem State.report_cfg (r : Report) : (s.report r).cfg = s.cfg := rfl
@[simp] theorem State.report_cpu (r : Report) : (s.report r).cpu = s.cpu := rfl
@[simp] theorem State.report_mem (r : Report) : (s.report r).mem = s.mem := rfl
@[simp] theorem State.report_seg (r : Report) : (s.report r).seg = s.seg := rfl
@[simp] theorem State.report_occ (r : Report) : (s.report r).occ = s.occ := rfl
@[simp] theorem State.report_reg (r : Report) : (s.report r).reg = s.reg := rfl
@[simp] theorem State.report_ready (r : Report) : (s.report r).ready = s.ready := rfl
@[simp] theorem State.report_resident (r : Report) : (s.report r).resident = s.resident := rfl
@[simp] theorem State.report_terminated (r : Report) : (s.report r).terminated = s.terminated := rfl
@[simp] theorem State.report_executing (r : Report) : (s.report r).executing = s.executing := rfl
@[simp] theorem State.report_nextPid (r : Report) : (s.report r).nextPid = s.nextPid := rfl
@[simp] theorem State.report_qPid (r : Report) : (s.report r).qPid = s.qPid := rfl
@[simp] theorem State.report_qCount (r : Report) : (s.report r).qCount = s.qCount := rfl
@[simp] theorem State.report_disk (r : Report) : (s.report r).disk = s.disk := rfl
@[simp] theorem State.report_intq (r : Report) : (s.report r).intq = s.intq := rfl
@[simp] theorem State.report_halted (r : Report) : (s.report r).halted = s.halted := rfl
@[simp] theorem State.report_console (r : Report) : (s.report r).console = s.console ++ [.putSystemText r] := rfl
@[simp] theorem State.report_display (r : Report) : (s.report r).display = s.display := rfl
@[simp] theorem State.report_cycleResult (r : Report) : (s.report r).cycleResult = s.cycleResult := rfl

/-! ### `State.putText` -/

@[simp] theorem State.putText_cfg (t : List Byte) : (s.putText t).cfg = s.cfg := rfl
@[simp] theorem State.putText_cpu (t : List Byte) : (s.putText t).cpu = s.cpu := rfl
@[simp] theorem State.putText_mem (t : List Byte) : (s.putText t).mem = s.mem := rfl
@[simp] theorem State.putText_seg (t : List Byte) : (s.putText t).seg = s.seg := rfl
@[simp] theorem State.putText_occ (t : List Byte) : (s.putText t).occ = s.occ := rfl
@[simp] theorem State.putText_reg (t : List Byte) : (s.putText t).reg = s.reg := rfl
@[simp] theorem State.putText_ready (t : List Byte) : (s.putText t).ready = s.ready := rfl
@[simp] theorem State.putText_resident (t : List Byte) : (s.putText t).resident = s.resident := rfl
@[simp] theorem State.putText_terminated (t : List Byte) : (s.putText t).terminated = s.terminated := rfl
@[simp] theorem State.putText_executing (t : List Byte) : (s.putText t).executing = s.executing := rfl
@[simp] theorem State.putText_nextPid (t : List Byte) : (s.putText t).nextPid = s.nextPid := rfl
@[simp] theorem State.putText_qPid (t : List Byte) : (s.putText t).qPid = s.qPid := rfl
@[simp] theorem State.putText_qCount (t : List Byte) : (s.putText t).qCount = s.qCount := rfl
@[simp] theorem State.putText_disk (t : List Byte) : (s.putText t).disk = s.disk := rfl
@[simp] theorem State.putText_intq (t : List Byte) : (s.putText t).intq = s.intq := rfl
@[simp] theorem State.putText_halted (t : List Byte) : (s.putText t).halted = s.halted := rfl
@[simp] theorem State.putText_console (t : List Byte) : (s.putText t).console = s.console ++ [.putText t] := rfl
@[simp] theorem State.putText_display (t : List Byte) : (s.putText t).display = s.display := rfl
@[simp] theorem State.putText_cycleResult (t : List Byte) : (s.putText t).cycleResult = s.cycleResult := rfl

/-! ### `State.emitSnapshot` -/

@[simp] theorem State.emitSnapshot_cfg : s.emitSnapshot.cfg = s.cfg := rfl
@[simp] theorem State.emitSnapshot_cpu : s.emitSnapshot.cpu = s.cpu := rfl
@[simp] theorem State.emitSnapshot_mem : s.emitSnapshot.mem = s.mem := rfl
@[simp] theorem State.emitSnapshot_seg : s.emitSnapshot.seg = s.seg := rfl
@[simp] theorem State.emitSnapshot_occ : s.emitSnapshot.occ = s.occ := rfl
@[simp] theorem State.emitSnapshot_reg : s.emitSnapshot.reg = s.reg := rfl
@[simp] theorem State.emitSnapshot_ready : s.emitSnapshot.ready = s.ready := rfl
@[simp] theorem State.emitSnapshot_resident : s.emitSnapshot.resident = s.resident := rfl
@[simp] theorem State.emitSnapshot_terminated : s.emitSnapshot.terminated = s.terminated := rfl
@[simp] theorem State.emitSnapshot_executing : s.emitSnapshot.executing = s.executing := rfl
@[simp] theorem State.emitSnapshot_nextPid : s.emitSnapshot.nextPid = s.nextPid := rfl
@[simp] theorem State.emitSnapshot_qPid : s.emitSnapshot.qPid = s.qPid := rfl
@[simp] theorem State.emitSnapshot_qCount : s.emitSnapshot.qCount = s.qCount := rfl
@[simp] theorem State.emitSnapshot_disk : s.emitSnapshot.disk = s.disk := rfl
@[simp] theorem State.emitSnapshot_intq : s.emitSnapshot.intq = s.intq := rfl
@[simp] theorem State.emitSnapshot_halted : s.emitSnapshot.halted = s.halted := rfl
@[simp] theorem State.emitSnapshot_console : s.emitSnapshot.console = s.console := rfl
@[simp] theorem State.emitSnapshot_display : s.emitSnapshot.display = s.display ++ [{ cpu := s.cpu, pcb := s.executing }] := rfl
@[simp] theorem State.emitSnapshot_cycleResult : s.emitSnapshot.cycleResult = s.cycleResult := rfl

/-! ### `State.setAcc` -/

@[simp] theorem State.setAcc_cfg (v : Byte) : (s.setAcc v).cfg = s.cfg := rfl
@[simp] theorem State.setAcc_cpu (v : Byte) : (s.setAcc v).cpu = { s.cpu with acc := v } := rfl
@[simp] theorem State.setAcc_mem (v : Byte) : (s.setAcc v).mem = s.mem := rfl
@[simp] theorem State.setAcc_seg (v : Byte) : (s.setAcc v).seg = s.seg := rfl
@[simp] theorem State.setAcc_occ (v : Byte) : (s.setAcc v).occ = s.occ := rfl
@[simp] theorem State.setAcc_reg (v : Byte) : (s.setAcc v).reg = s.reg := rfl
@[simp] theorem State.setAcc_ready (v : Byte) : (s.setAcc v).ready = s.ready := rfl
@[simp] theorem State.setAcc_resident (v : Byte) : (s.setAcc v).resident = s.resident := rfl
@[simp] theorem State.setAcc_terminated (v : Byte) : (s.setAcc v).terminated = s.terminated := rfl
@[simp] theorem State.setAcc_executing (v : Byte) : (s.setAcc v).executing = s.executing := rfl
@[simp] theorem State.setAcc_nextPid (v : Byte) : (s.setAcc v).nextPid = s.nextPid := rfl
@[simp] theorem State.setAcc_qPid (v : Byte) : (s.setAcc v).qPid = s.qPid := rfl
@[simp] theorem State.setAcc_qCount (v : Byte) : (s.setAcc v).qCount = s.qCount := rfl
@[simp] theorem State.setAcc_disk (v : Byte) : (s.setAcc v).disk = s.disk := rfl
@[simp] theorem State.setAcc_intq (v : Byte) : (s.setAcc v).intq = s.intq := rfl
@[simp] theorem State.setAcc_halted (v : Byte) : (s.setAcc v).halted = s.halted := rfl
@[simp] theorem State.setAcc_console (v : Byte) : (s.setAcc v).console = s.console := rfl
@[simp] theorem State.setAcc_display (v : Byte) : (s.setAcc v).display = s.display := rfl
@[simp] theorem State.setAcc_cycleResult (v : Byte) : (s.setAcc v).cycleResult = s.cycleResult := rfl

/-! ### `State.setX` -/

@[simp] theorem State.setX_cfg (v : Byte) : (s.setX v).cfg = s.cfg := rfl
@[simp] theorem State.setX_cpu (v : Byte) : (s.setX v).cpu = { s.cpu with x := v } := rfl
@[simp] theorem State.setX_mem (v : Byte) : (s.setX v).mem = s.mem := rfl
@[simp] theorem State.setX_seg (v : Byte) : (s.setX v).seg = s.seg := rfl
@[simp] theorem State.setX_occ (v : Byte) : (s.setX v).occ = s.occ := rfl
@[simp] theorem State.setX_reg (v : Byte) : (s.setX v).reg = s.reg := rfl
@[simp] theorem State.setX_ready (v : Byte) : (s.setX v).ready = s.ready := rfl
@[simp] theorem State.setX_resident (v : Byte) : (s.setX v).resident = s.resident := rfl
@[simp] theorem State.setX_terminated (v : Byte) : (s.setX v).terminated = s.terminated := rfl
@[simp] theorem State.setX_executing (v : Byte) : (s.setX v).executing = s.executing := rfl
@[simp] theorem State.setX_nextPid (v : Byte) : (s.setX v).nextPid = s.nextPid := rfl
@[simp] theorem State.setX_qPid (v : Byte) : (s.setX v).qPid = s.qPid := rfl
@[simp] theorem State.setX_qCount (v : Byte) : (s.setX v).qCount = s.qCount := rfl
@[simp] theorem State.setX_disk (v : Byte) : (s.setX v).disk = s.disk := rfl
@[simp] theorem State.setX_intq (v : Byte) : (s.setX v).intq = s.intq := rfl
@[simp] theorem State.setX_halted (v : Byte) : (s.setX v).halted = s.halted := rfl
@[simp] theorem State.setX_console (v : Byte) : (s.setX v).console = s.console := rfl
@[simp] theorem State.setX_display (v : Byte) : (s.setX v).display = s.display := rfl
@[simp] theorem State.setX_cycleResult (v : Byte) : (s.setX v).cycleResult = s.cycleResult := rfl

/-! ### `State.setY` -/

@[simp] theorem State.setY_cfg (v : Byte) : (s.setY v).cfg = s.cfg := rfl
@[simp] theorem State.setY_cpu (v : Byte) : (s.setY v).cpu = { s.cpu with y := v } := rfl
@[simp] theorem State.setY_mem (v : Byte) : (s.setY v).mem = s.mem := rfl
@[simp] theorem State.setY_seg (v : Byte) : (s.setY v).seg = s.seg := rfl
@[simp] theorem State.setY_occ (v : Byte) : (s.setY v).occ = s.occ := rfl
@[simp] theorem State.setY_reg (v : Byte) : (s.setY v).reg = s.reg := rfl
@[simp] theorem State.setY_ready (v : Byte) : (s.setY v).ready = s.ready := rfl
@[simp] theorem State.setY_resident (v : Byte) : (s.setY v).resident = s.resident := rfl
@[simp] theorem State.setY_terminated (v : Byte) : (s.setY v).terminated = s.terminated := rfl
@[simp] theorem State.setY_executing (v : Byte) : (s.setY v).executing = s.executing := rfl
@[simp] theorem State.setY_nextPid (v : Byte) : (s.setY v).nextPid = s.nextPid := rfl
@[simp] theorem State.setY_qPid (v : Byte) : (s.setY v).qPid = s.qPid := rfl
@[simp] theorem State.setY_qCount (v : Byte) : (s.setY v).qCount = s.qCount := rfl
@[simp] theorem State.setY_disk (v : Byte) : (s.setY v).disk = s.disk := rfl
@[simp] theorem State.setY_intq (v : Byte) : (s.setY v).intq = s.intq := rfl
@[simp] theorem State.setY_halted (v : Byte) : (s.setY v).halted = s.halted := rfl
@[simp] theorem State.setY_console (v : Byte) : (s.setY v).console = s.console := rfl
@[simp] theorem State.setY_display (v : Byte) : (s.setY v).display = s.display := rfl
@[simp] theorem State.setY_cycleResult (v : Byte) : (s.setY v).cycleResult = s.cycleResult := rfl

/-! ### `State.setZ` -/

@[simp] theorem State.setZ_cfg (b : Bool) : (s.setZ b).cfg = s.cfg := rfl
@[simp] theorem State.setZ_cpu (b : Bool) : (s.setZ b).cpu = { s.cpu with z := b } := rfl
@[simp] theorem State.setZ_mem (b : Bool) : (s.setZ b).mem = s.mem := rfl
@[simp] theorem State.setZ_seg (b : Bool) : (s.setZ b).seg = s.seg := rfl
@[simp] theorem State.setZ_occ (b : Bool) : (s.setZ b).occ = s.occ := rfl
@[simp] theorem State.setZ_reg (b : Bool) : (s.setZ b).reg = s.reg := rfl
@[simp] theorem State.setZ_ready (b : Bool) : (s.setZ b).ready = s.ready := rfl
@[simp] theorem State.setZ_resident (b : Bool) : (s.setZ b).resident = s.resident := rfl
@[simp] theorem State.setZ_terminated (b : Bool) : (s.setZ b).terminated = s.terminated := rfl
@[simp] theorem State.setZ_executing (b : Bool) : (s.setZ b).executing = s.executing := rfl
@[simp] theorem State.setZ_nextPid (b : Bool) : (s.setZ b).nextPid = s.nextPid := rfl
@[simp] theorem State.setZ_qPid (b : Bool) : (s.setZ b).qPid = s.qPid := rfl
@[simp] theorem State.setZ_qCount (b : Bool) : (s.setZ b).qCount = s.qCount := rfl
@[simp] theorem State.setZ_disk (b : Bool) : (s.setZ b).disk = s.disk := rfl
@[simp] theorem State.setZ_intq (b : Bool) : (s.setZ b).intq = s.intq := rfl
@[simp] theorem State.setZ_halted (b : Bool) : (s.setZ b).halted = s.halted := rfl
@[simp] theorem State.setZ_console (b : Bool) : (s.setZ b).console = s.console := rfl
@[simp] theorem State.setZ_display (b : Bool) : (s.setZ b).display = s.display := rfl
@[simp] theorem State.setZ_cycleResult (b : Bool) : (s.setZ b).cycleResult = s.cycleResult := rfl

/-! ### `State.setPc` -/

@[simp] theorem State.setPc_cfg (v : Byte) : (s.setPc v).cfg = s.cfg := rfl
@[simp] theorem State.setPc_cpu (v : Byte) : (s.setPc v).cpu = { s.cpu with pc := v } := rfl
@[simp] theorem State.setPc_mem (v : Byte) : (s.setPc v).mem = s.mem := rfl
@[simp] theorem State.setPc_seg (v : Byte) : (s.setPc v).seg = s.seg := rfl
@[simp] theorem State.setPc_occ (v : Byte) : (s.setPc v).occ = s.occ := rfl
@[simp] theorem State.setPc_reg (v : Byte) : (s.setPc v).reg = s.reg := rfl
@[simp] theorem State.setPc_ready (v : Byte) : (s.setPc v).ready = s.ready := rfl
@[simp] theorem State.setPc_resident (v : Byte) : (s.setPc v).resident = s.resident := rfl
@[simp] theorem State.setPc_terminated (v : Byte) : (s.setPc v).terminated = s.terminated := rfl
@[simp] theorem State.setPc_executing (v : Byte) : (s.setPc v).executing = s.executing := rfl
@[simp] theorem State.setPc_nextPid (v : Byte) : (s.setPc v).nextPid = s.nextPid := rfl
@[simp] theorem State.setPc_qPid (v : Byte) : (s.setPc v).qPid = s.qPid := rfl
@[simp] theorem State.setPc_qCount (v : Byte) : (s.setPc v).qCount = s.qCount := rfl
@[simp] theorem State.setPc_disk (v : Byte) : (s.setPc v).disk = s.disk := rfl
@[simp] theorem State.setPc_intq (v : Byte) : (s.setPc v).intq = s.intq := rfl
@[simp] theorem State.setPc_halted (v : Byte) : (s.setPc v).halted = s.halted := rfl
@[simp] theorem State.setPc_console (v : Byte) : (s.setPc v).console = s.console := rfl
@[simp] theorem State.setPc_display (v : Byte) : (s.setPc v).display = s.display := rfl
@[simp] theorem State.setPc_cycleResult (v : Byte) : (s.setPc v).cycleResult = s.cycleResult := rfl

/-! ### `State.cpuReset` -/

@[simp] theorem State.cpuReset_cfg : s.cpuReset.cfg = s.cfg := rfl
@[simp] theorem State.cpuReset_cpu : s.cpuReset.cpu = Cpu.initial := rfl
@[simp] theorem State.cpuReset_mem : s.cpuReset.mem = s.mem := rfl
@[simp] theorem State.cpuReset_seg : s.cpuReset.seg = s.seg := rfl
@[simp] theorem State.cpuReset_occ : s.cpuReset.occ = s.occ := rfl
@[simp] theorem State.cpuReset_reg : s.cpuReset.reg = s.reg := rfl
@[simp] theorem State.cpuReset_ready : s.cpuReset.ready = s.ready := rfl
@[simp] theorem State.cpuReset_resident : s.cpuReset.resident = s.resident := rfl
@[simp] theorem State.cpuReset_terminated : s.cpuReset.terminated = s.terminated := rfl
@[simp] theorem State.cpuReset_executing : s.cpuReset.executing = s.executing := rfl
@[simp] theorem State.cpuReset_nextPid : s.cpuReset.nextPid = s.nextPid := rfl
@[simp] theorem State.cpuReset_qPid : s.cpuReset.qPid = s.qPid := rfl
@[simp] theorem State.cpuReset_qCount : s.cpuReset.qCount = s.qCount := rfl
@[simp] theorem State.cpuReset_disk : s.cpuReset.disk = s.disk := rfl
@[simp] theorem State.cpuReset_intq : s.cpuReset.intq = s.intq := rfl
@[simp] theorem State.cpuReset_halted : s.cpuReset.halted = s.halted := rfl
@[simp] theorem State.cpuReset_console : s.cpuReset.console = s.console := rfl
@[simp] theorem State.cpuReset_display : s.cpuReset.display = s.display ++ [{ cpu := Cpu.initial, pcb := s.executing }] := rfl
@[simp] theorem State.cpuReset_cycleResult : s.cpuReset.cycleResult = s.cycleResult := rfl

/-! ### `State.incrementPc` -/

@[simp] theorem State.incrementPc_cfg : s.incrementPc.cfg = s.cfg := rfl
@[simp] theorem State.incrementPc_cpu : s.incrementPc.cpu = { s.cpu with pc := s.cpu.pc + 1 } := rfl
@[simp] theorem State.incrementPc_mem : s.incrementPc.mem = s.mem := rfl
@[simp] theorem State.incrementPc_seg : s.incrementPc.seg = s.seg := rfl
@[simp] theorem State.incrementPc_occ : s.incrementPc.occ = s.occ := rfl
@[simp] theorem State.incrementPc_reg : s.incrementPc.reg = s.reg := rfl
@[simp] theorem State.incrementPc_ready : s.incrementPc.ready = s.ready := rfl
@[simp] theorem State.incrementPc_resident : s.incrementPc.resident = s.resident := rfl
@[simp] theorem State.incrementPc_terminated : s.incrementPc.terminated = s.terminated := rfl
@[simp] theorem State.incrementPc_executing : s.incrementPc.executing = s.executing := rfl
@[simp] theorem State.incrementPc_nextPid : s.incrementPc.nextPid = s.nextPid := rfl
@[simp] theorem State.incrementPc_qPid : s.incrementPc.qPid = s.qPid := rfl
@[simp] theorem State.incrementPc_qCount : s.incrementPc.qCount = s.qCount := rfl
@[simp] theorem State.incrementPc_disk : s.incrementPc.disk = s.disk := rfl
@[simp] theorem State.incrementPc_intq : s.incrementPc.intq = s.intq := rfl
@[simp] theorem State.incrementPc_halted : s.incrementPc.halted = s.halted := rfl
@[simp] theorem State.incrementPc_console : s.incrementPc.console = s.console := rfl
@[simp] theorem State.incrementPc_display : s.incrementPc.display = s.display := rfl
@[simp] theorem State.incrementPc_cycleResult : s.incrementPc.cycleResult = s.cycleResult := rfl

/-! ### `State.mirror` -/

@[simp] theorem State.mirror_cfg : s.mirror.cfg = s.cfg := rfl
@[simp] theorem State.mirror_cpu : s.mirror.cpu = s.cpu := rfl
@[simp] theorem State.mirror_mem : s.mirror.mem = s.mem := rfl
@[simp] theorem State.mirror_seg : s.mirror.seg = s.seg := rfl
@[simp] theorem State.mirror_occ : s.mirror.occ = s.occ := rfl
@[simp] theorem State.mirror_reg : s.mirror.reg = s.reg := rfl
@[simp] theorem State.mirror_ready : s.mirror.ready = s.ready := rfl
@[simp] theorem State.mirror_resident : s.mirror.resident = s.resident := rfl
@[simp] theorem State.mirror_terminated : s.mirror.terminated = s.terminated := rfl
@[simp] theorem State.mirror_executing : s.mirror.executing = s.executing.map (·.withRegisters s.cpu) := rfl
@[simp] theorem State.mirror_nextPid : s.mirror.nextPid = s.nextPid := rfl
@[simp] theorem State.mirror_qPid : s.mirror.qPid = s.qPid := rfl
@[simp] theorem State.mirror_qCount : s.mirror.qCount = s.qCount := rfl
@[simp] theorem State.mirror_disk : s.mirror.disk = s.disk := rfl
@[simp] theorem State.mirror_intq : s.mirror.intq = s.intq := rfl
@[simp] theorem State.mirror_halted : s.mirror.halted = s.halted := rfl
@[simp] theorem State.mirror_console : s.mirror.console = s.console := rfl
@[simp] theorem State.mirror_display : s.mirror.display = s.display := rfl
@[simp] theorem State.mirror_cycleResult : s.mirror.cycleResult = s.cycleResult := rfl

/-! ### `State.atExecute` -/

@[simp] theorem State.atExecute_cfg (op : Byte) (last : Nat) : (s.atExecute op last).cfg = s.cfg := rfl
@[simp] theorem State.atExecute_cpu (op : Byte) (last : Nat) : (s.atExecute op last).cpu = { s.cpu with ir := op, pc := BitVec.ofNat 8 last } := rfl
@[simp] theorem State.atExecute_mem (op : Byte) (last : Nat) : (s.atExecute op last).mem = s.mem := rfl
@[simp] theorem State.atExecute_seg (op : Byte) (last : Nat) : (s.atExecute op last).seg = s.seg := rfl
@[simp] theorem State.atExecute_occ (op : Byte) (last : Nat) : (s.atExecute op last).occ = s.occ := rfl
@[simp] theorem State.atExecute_reg (op : Byte) (last : Nat) : (s.atExecute op last).reg = s.reg := rfl
@[simp] theorem State.atExecute_ready (op : Byte) (last : Nat) : (s.atExecute op last).ready = s.ready := rfl
@[simp] theorem State.atExecute_resident (op : Byte) (last : Nat) : (s.atExecute op last).resident = s.resident := rfl
@[simp] theorem State.atExecute_terminated (op : Byte) (last : Nat) : (s.atExecute op last).terminated = s.terminated := rfl
@[simp] theorem State.atExecute_executing (op : Byte) (last : Nat) : (s.atExecute op last).executing = s.executing := rfl
@[simp] theorem State.atExecute_nextPid (op : Byte) (last : Nat) : (s.atExecute op last).nextPid = s.nextPid := rfl
@[simp] theorem State.atExecute_qPid (op : Byte) (last : Nat) : (s.atExecute op last).qPid = s.qPid := rfl
@[simp] theorem State.atExecute_qCount (op : Byte) (last : Nat) : (s.atExecute op last).qCount = s.qCount := rfl
@[simp] theorem State.atExecute_disk (op : Byte) (last : Nat) : (s.atExecute op last).disk = s.disk := rfl
@[simp] theorem State.atExecute_intq (op : Byte) (last : Nat) : (s.atExecute op last).intq = s.intq := rfl
@[simp] theorem State.atExecute_halted (op : Byte) (last : Nat) : (s.atExecute op last).halted = s.halted := rfl
@[simp] theorem State.atExecute_console (op : Byte) (last : Nat) : (s.atExecute op last).console = s.console := rfl
@[simp] theorem State.atExecute_display (op : Byte) (last : Nat) : (s.atExecute op last).display = s.display := rfl
@[simp] theorem State.atExecute_cycleResult (op : Byte) (last : Nat) : (s.atExecute op last).cycleResult = s.cycleResult := rfl

end Sys2Proof.Machine
end

