-- ==== Sys2Proof/Laws/Ops.lean ====
section
/-! SUPPORT. What the operations over registers and memory can do, once each, and what an execute step can do. -/

namespace Sys2Proof.Machine

/-! ## Translation -/

/-- A logical address names at most one byte. -/
theorem State.names_unique {s : State} {k a b : Nat} (ha : s.Names k a) (hb : s.Names k b) : a = b := by
  obtain ⟨p, i, g, hp, hi, hg, _, rfl, _⟩ := ha
  obtain ⟨p', i', g', hp', hi', hg', _, rfl, _⟩ := hb
  simp_all

/-- The segment the translator uses. -/
theorem State.execSegment_some {s : State} {g : Segment} :
    s.execSegment = some g ↔ ∃ p i, s.executing = some p ∧ p.occupiedSegment = some i ∧ s.seg[i]? = some g := by
  unfold State.execSegment
  constructor
  · intro h
    split at h
    · cases h
    · next p hp =>
      split at h
      · cases h
      · next i hi => exact ⟨p, i, hp, hi, h⟩
  · rintro ⟨p, i, hp, hi, hg⟩
    simp [hp, hi, hg]

/-- What the translator can do: answer the physical address of an address in bounds, or a segmentation fault. -/
theorem State.translate_cases (s : State) (k : Nat) :
    (∃ g, s.execSegment = some g ∧ k ≤ g.limit - g.base ∧ s.translate k = .ok (g.base + k)) ∨
      ((∀ g, s.execSegment = some g → ¬ k ≤ g.limit - g.base) ∧ s.translate k = .error (.segmentationFault k)) := by
  unfold State.translate
  cases h : s.execSegment with
  | none => exact .inr ⟨by simp, rfl⟩
  | some g =>
    by_cases hk : k ≤ g.limit - g.base
    · exact .inl ⟨g, rfl, hk, by simp [hk]⟩
    · exact .inr ⟨by simpa using hk, by simp [hk]⟩

/-- `Names` by the segment the translator uses. -/
theorem State.names_iff {s : State} {k a : Nat} :
    s.Names k a ↔ ∃ g, s.execSegment = some g ∧ k ≤ g.limit - g.base ∧ a = g.base + k ∧ a < s.cfg.memSize := by
  constructor
  · rintro ⟨p, i, g, hp, hi, hg, h⟩
    exact ⟨g, State.execSegment_some.2 ⟨p, i, hp, hi, hg⟩, h⟩
  · rintro ⟨g, hg, h⟩
    obtain ⟨p, i, hp, hi, hg⟩ := State.execSegment_some.1 hg
    exact ⟨p, i, g, hp, hi, hg, h⟩

/-- A memory access succeeds on the physical byte an address names, or is a segmentation fault that leaves nothing
(20_memory.md R39, R40). -/
theorem State.access_cases (s : State) (k : Nat) :
    (∃ a, s.Names k a ∧ s.memRead k = .ok (Memory.read s.mem a) ∧
      ∀ v, s.memWrite k v = .ok (s.setMem (Memory.write s.mem a v))) ∨
    (s.NamesNone k ∧ s.memRead k = .error (.segmentationFault k) ∧
      ∀ v, s.memWrite k v = .error (.segmentationFault k)) := by
  rcases s.translate_cases k with ⟨g, hg, hk, ht⟩ | ⟨hno, ht⟩
  · by_cases ha : g.base + k < s.cfg.memSize
    · refine .inl ⟨g.base + k, State.names_iff.2 ⟨g, hg, hk, rfl, ha⟩, ?_, fun v => ?_⟩
      · simp [State.memRead, ht, State.physRead, ha]
      · simp [State.memWrite, ht, State.physWrite, ha]
    · refine .inr ⟨fun a h => ?_, ?_, fun v => ?_⟩
      · obtain ⟨g', hg', _, rfl, ha'⟩ := State.names_iff.1 h
        rw [hg] at hg'; cases hg'; exact ha ha'
      · simp [State.memRead, ht, State.physRead, ha]
      · simp [State.memWrite, ht, State.physWrite, ha]
  · refine .inr ⟨fun a h => ?_, ?_, fun v => ?_⟩
    · obtain ⟨g', hg', hk, _⟩ := State.names_iff.1 h
      exact hno g' hg' hk
    · simp [State.memRead, ht]
    · simp [State.memWrite, ht]

/-- `MemRead` answers a byte exactly when the address names one that holds it (20_memory.md R39). -/
theorem State.memRead_ok {s : State} {k : Nat} {v : Byte} : s.memRead k = .ok v ↔ s.Holds k v := by
  rcases s.access_cases k with ⟨a, ha, hr, _⟩ | ⟨hn, hr, _⟩
  · rw [hr]
    constructor
    · intro h; cases h; exact ⟨a, ha, rfl⟩
    · rintro ⟨b, hb, rfl⟩; rw [State.names_unique ha hb]
  · rw [hr]
    constructor
    · intro h; cases h
    · rintro ⟨b, hb, _⟩; exact absurd hb (hn b)

/-- `MemRead` fails only as a segmentation fault, exactly when the address names no byte. -/
theorem State.memRead_error {s : State} {k : Nat} {e : AccessError} :
    s.memRead k = .error e ↔ e = .segmentationFault k ∧ s.NamesNone k := by
  rcases s.access_cases k with ⟨a, ha, hr, _⟩ | ⟨hn, hr, _⟩
  · rw [hr]
    constructor
    · intro h; cases h
    · rintro ⟨_, h⟩; exact absurd ha (h a)
  · rw [hr]
    constructor
    · intro h; cases h; exact ⟨rfl, hn⟩
    · rintro ⟨rfl, _⟩; rfl

/-- `MemWrite` to an address that names a byte writes that byte and nothing else (R40). -/
theorem State.memWrite_names {s : State} {k a : Nat} (h : s.Names k a) (v : Byte) :
    s.memWrite k v = .ok (s.setMem (Memory.write s.mem a v)) := by
  rcases s.access_cases k with ⟨b, hb, _, hw⟩ | ⟨hn, _, _⟩
  · rw [hw, State.names_unique h hb]
  · exact absurd h (hn a)

/-- `MemWrite` to an address that names no byte is a segmentation fault (R40). -/
theorem State.memWrite_none {s : State} {k : Nat} (h : s.NamesNone k) (v : Byte) :
    s.memWrite k v = .error (.segmentationFault k) := by
  rcases s.access_cases k with ⟨b, hb, _, _⟩ | ⟨_, _, hw⟩
  · exact absurd hb (h b)
  · exact hw v

/-- A logical address names a byte or none. -/
theorem State.names_or_none (s : State) (k : Nat) : (∃ a, s.Names k a) ∨ s.NamesNone k := by
  by_cases h : ∃ a, s.Names k a
  · exact .inl h
  · exact .inr fun a ha => h ⟨a, ha⟩

/-! ## A process in its segment -/

/-- With legal parameters the segments are not empty and together as large as the store (20_memory.md R37). -/
theorem Config.segSize_legal {c : Config} (h : c.legal = true) :
    1 ≤ c.segSize ∧ c.segSize * c.numSegments = c.memSize := by
  have h : ((1 ≤ c.memSize ∧ 1 ≤ c.numSegments) ∧ c.memSize % c.numSegments = 0) := by
    simp only [Config.legal, Config.segmentsOk, Bool.and_eq_true, decide_eq_true_eq] at h
    exact h.1.1
  have hd : c.memSize / c.numSegments * c.numSegments = c.memSize := Nat.div_mul_cancel (Nat.dvd_of_mod_eq_zero h.2)
  refine ⟨?_, hd⟩
  rcases Nat.eq_zero_or_pos (c.memSize / c.numSegments) with h0 | h0
  · rw [h0] at hd; omega
  · exact h0

/-- A logical address below `SEG_SIZE` names its byte of the segment the process runs in (R39). -/
theorem State.runsIn_names {s : State} {p : Pcb} {i k : Nat} (h : s.RunsIn p i) (hk : k < s.cfg.segSize) :
    s.Names k (i * s.cfg.segSize + k) := by
  obtain ⟨hl, hs, he, ho, hi⟩ := h
  obtain ⟨h1, h2⟩ := Config.segSize_legal hl
  refine ⟨p, i, segmentAt s.cfg i, he, ho, ?_, ?_, rfl, ?_⟩
  · rw [hs]; simp [segmentTable, hi]
  · simp only [segmentAt]; omega
  · have : (i + 1) * s.cfg.segSize ≤ s.cfg.numSegments * s.cfg.segSize := Nat.mul_le_mul_right _ hi
    rw [Nat.add_mul, Nat.mul_comm s.cfg.numSegments, h2] at this
    omega

/-- A logical address of `SEG_SIZE` or more names no byte (R39). -/
theorem State.runsIn_namesNone {s : State} {p : Pcb} {i k : Nat} (h : s.RunsIn p i) (hk : s.cfg.segSize ≤ k) :
    s.NamesNone k := by
  obtain ⟨hl, hs, he, ho, hi⟩ := h
  have h1 := (Config.segSize_legal hl).1
  rintro a ⟨p', i', g, he', ho', hg, hk', _⟩
  rw [he] at he'; cases he'
  rw [ho] at ho'; cases ho'
  rw [hs] at hg
  simp only [segmentTable, List.getElem?_map, List.getElem?_range hi, Option.map_some, Option.some.injEq] at hg
  subst hg
  simp only [segmentAt] at hk'
  omega

/-- `addr = hi * 256 + lo` (30_encoding.md R59). -/
theorem address_toNat (lo hi : Byte) : (hi ++ lo : Addr).toNat = hi.toNat * 256 + lo.toNat := by
  rw [BitVec.toNat_append, ← Nat.shiftLeft_add_eq_or_of_lt lo.isLt, Nat.shiftLeft_eq]

/-- The byte store right after reset is in canonical form. -/
theorem State.reset_mem_wf : Memory.wf State.reset.mem = true := rfl

/-! ## Operands -/

/-- Reading an absolute operand that names a byte. -/
theorem State.readOperand_names {s : State} {addr : Addr} {a : Nat} (h : s.Names addr.toNat a) :
    s.readOperand addr = .ok (Memory.read s.mem a) := by
  rw [State.readOperand, absLogical, State.memRead_ok.2 ⟨a, h, rfl⟩]

/-- Reading an absolute operand that names none is an operand fault. -/
theorem State.readOperand_none {s : State} {addr : Addr} (h : s.NamesNone addr.toNat) :
    s.readOperand addr = .error .operandSegFault := by
  rw [State.readOperand, absLogical, State.memRead_error.2 ⟨rfl, h⟩]

/-- Writing an absolute operand that names a byte. -/
theorem State.writeOperand_names {s : State} {addr : Addr} {a : Nat} (h : s.Names addr.toNat a) (v : Byte) :
    s.writeOperand addr v = .ok (s.setMem (Memory.write s.mem a v)) := by
  rw [State.writeOperand, absLogical, State.memWrite_names h]

/-- Writing an absolute operand that names none is an operand fault. -/
theorem State.writeOperand_none {s : State} {addr : Addr} (h : s.NamesNone addr.toNat) (v : Byte) :
    s.writeOperand addr v = .error .operandSegFault := by
  rw [State.writeOperand, absLogical, State.memWrite_none h]

/-- The string read answers a text exactly when its bytes, all nonzero, and then a 0x00 byte stand from `k` on, and
the fuel covers them. -/
theorem State.readStringFrom_ok {s : State} {fuel k : Nat} {text : List Byte} :
    s.readStringFrom fuel k = .ok text ↔
      text.length < fuel ∧ (∀ j b, text[j]? = some b → b ≠ 0x00#8 ∧ s.Holds (k + j) b) ∧
        s.Holds (k + text.length) 0x00#8 := by
  induction fuel generalizing k text with
  | zero => simp [State.readStringFrom]
  | succ fuel ih =>
    rw [State.readStringFrom]
    cases hr : s.memRead k with
    | error e =>
      have hn := (State.memRead_error.1 hr).2
      constructor
      · intro h; cases h
      · rintro ⟨_, hb, hz⟩
        cases text with
        | nil => obtain ⟨a, ha, _⟩ := hz; exact absurd ha (hn a)
        | cons b text => obtain ⟨a, ha, _⟩ := (hb 0 b rfl).2; exact absurd ha (hn a)
    | ok v =>
      have hv := State.memRead_ok.1 hr
      simp only
      split
      next h0 =>
        subst h0
        constructor
        · intro h; cases h; exact ⟨by simp, by simp, hv⟩
        · rintro ⟨_, hb, _⟩
          cases text with
          | nil => rfl
          | cons b text =>
            obtain ⟨hb0, a, ha, hba⟩ := hb 0 b rfl
            obtain ⟨a', ha', hva⟩ := hv
            rw [State.names_unique ha ha', hva] at hba
            exact absurd hba.symm hb0
      next h0 =>
        cases text with
        | nil =>
          constructor
          · intro h; cases hs : s.readStringFrom fuel (k + 1) <;> simp [hs, Except.map] at h
          · rintro ⟨_, _, a, ha, hz⟩
            obtain ⟨a', ha', hva⟩ := hv
            rw [List.length_nil, Nat.add_zero] at ha
            rw [State.names_unique ha ha', hva] at hz
            exact absurd hz h0
        | cons b text =>
          have hiff := @ih (k + 1) text
          have key : (s.readStringFrom fuel (k + 1)).map (fun rest => v :: rest) = .ok (b :: text) ↔
                v = b ∧ s.readStringFrom fuel (k + 1) = .ok text := by
            cases s.readStringFrom fuel (k + 1) <;> simp [Except.map]
          rw [key, hiff]
          constructor
          · rintro ⟨rfl, hl, hb, hz⟩
            refine ⟨by simp; omega, ?_, by simpa [Nat.add_assoc, Nat.add_comm 1] using hz⟩
            intro j b hj
            cases j with
            | zero => cases hj; exact ⟨h0, hv⟩
            | succ j =>
              have := hb j b (by simpa using hj)
              exact ⟨this.1, by simpa [Nat.add_assoc, Nat.add_comm 1] using this.2⟩
          · rintro ⟨hl, hb, hz⟩
            refine ⟨?_, by simp at hl; omega, ?_, by simpa [Nat.add_assoc, Nat.add_comm 1] using hz⟩
            · obtain ⟨_, a, ha, hba⟩ := hb 0 b rfl
              obtain ⟨a', ha', hva⟩ := hv
              rw [← hva, ← hba, State.names_unique ha ha']
            · intro j c hj
              have := hb (j + 1) c (by simpa using hj)
              exact ⟨this.1, by simpa [Nat.add_assoc, Nat.add_comm 1] using this.2⟩

/-- The string read fails only as `SysStringSegFault`. -/
theorem State.readStringFrom_error {s : State} {fuel k : Nat} {c : FaultCause}
    (h : s.readStringFrom fuel k = .error c) : c = .sysStringSegFault := by
  induction fuel generalizing k with
  | zero => cases h; rfl
  | succ fuel ih =>
    rw [State.readStringFrom] at h
    split at h
    · cases h; rfl
    · split at h
      · cases h
      · cases hs : s.readStringFrom fuel (k + 1) with
        | error e => rw [hs] at h; cases h; exact ih hs
        | ok rest => rw [hs] at h; cases h

/-! ## Completion and traps -/

/-- Completing after the execute step has changed registers, byte store and console leaves `Completed`. -/
theorem State.complete_eq (s : State) (r : Cpu) (m : Memory) (k : List ConsoleMsg) :
    State.complete { s with cpu := r, mem := m, console := k } = Completed s r m k := rfl

/-- The fault path of an executing process leaves `Faulted`. -/
theorem State.takeFault_eq {s : State} {p : Pcb} (h : s.executing = some p) (c : FaultCause) :
    s.takeFault c = Faulted s p c := by
  simp [State.takeFault, State.takeTrap, State.executingPid, h, Faulted, State.cpuReset, State.setCpu,
    State.emitSnapshot, State.enqueue, State.report, State.emit, State.setResult, Cpu.initial, zeroCpu]

/-- The break path of an executing process leaves `Broken`. -/
theorem State.takeBreak_eq {s : State} {p : Pcb} (h : s.executing = some p) : s.takeBreak = Broken s p := by
  simp [State.takeBreak, State.takeTrap, State.executingPid, h, Broken, State.cpuReset, State.setCpu,
    State.emitSnapshot, State.enqueue, State.setResult, Cpu.initial, zeroCpu]

/-- What any trap entry leaves as it was: everything but the CPU, the queue's tail, the two ports and the result. -/
theorem State.takeTrap_frame (s : State) (record : Nat → Interrupt) (r : CycleResult) :
    SameEngine s (s.takeTrap record r) ∧ (s.takeTrap record r).mem = s.mem ∧
      (s.takeTrap record r).executing = s.executing ∧ (s.takeTrap record r).cpu = Cpu.initial ∧
      (s.takeTrap record r).console = s.console ∧ (s.takeTrap record r).cycleResult = some r ∧
      (s.takeTrap record r).intq = s.intq ++ (s.executingPid.toList.map record) := by
  unfold State.takeTrap
  cases s.executingPid <;> simp [SameEngine]

/-- What the fault path leaves as it was, and what it changes. -/
theorem State.takeFault_frame (s : State) (c : FaultCause) :
    SameEngine s (s.takeFault c) ∧ (s.takeFault c).mem = s.mem ∧ (s.takeFault c).executing = s.executing ∧
      (s.takeFault c).cpu = Cpu.initial ∧ (s.takeFault c).cycleResult = some (.fault c) ∧
      (s.takeFault c).intq = s.intq ++ (s.executingPid.toList.map .errProgram) := by
  obtain ⟨h1, h2, h3, h4, _, h6, h7⟩ :=
    State.takeTrap_frame (s.report (.executionFault c s.executingPid)) .errProgram (.fault c)
  exact ⟨h1, h2, h3, h4, h6, h7⟩

/-- What the break path leaves as it was, and what it changes. -/
theorem State.takeBreak_frame (s : State) :
    SameEngine s s.takeBreak ∧ s.takeBreak.mem = s.mem ∧ s.takeBreak.executing = s.executing ∧
      s.takeBreak.cpu = Cpu.initial ∧ s.takeBreak.console = s.console ∧ s.takeBreak.cycleResult = some .brk ∧
      s.takeBreak.intq = s.intq ++ (s.executingPid.toList.map .breakProgram) :=
  State.takeTrap_frame s .breakProgram .brk

/-- The restore does nothing, or loads the snapshot of the fresh executing PCB and clears its `fresh` (R67). -/
theorem State.restoreIfFresh_cases (s : State) :
    (s.restoreIfFresh = s ∧ ∀ p, s.executing = some p → p.fresh = false) ∨
      ∃ p, s.executing = some p ∧ p.fresh = true ∧
        s.restoreIfFresh = { s with cpu := s.cpu.loadedFrom p, executing := some { p with fresh := false } } := by
  unfold State.restoreIfFresh
  split
  · next h => exact .inl ⟨rfl, by simp [h]⟩
  · next p h =>
    split
    · next hf => exact .inr ⟨p, h, hf, rfl⟩
    · next hf => exact .inl ⟨rfl, by intro q hq; rw [h] at hq; cases hq; simpa using hf⟩

/-- What an execute step can do, said once: it completes with registers changed and, for SYS, one text printed; it
completes with one byte of its own segment stored; it takes the fault path; or, for BRK only, the break path. `IR` and
`isExecuting` are never written by a completing instruction, and `Z` only by CPX. -/
theorem exec_cases (i : Instr) (s : State) :
    (∃ r k, exec i s = .next (Completed s r s.mem k) ∧ r.ir = s.cpu.ir ∧ r.isExecuting = s.cpu.isExecuting ∧
      ((∀ addr, i ≠ .cpx addr) → r.z = s.cpu.z) ∧
      (k = s.console ∨ i = .sys ∧ ∃ text, k = s.console ++ [.putText text])) ∨
    (∃ addr a v, (i = .sta addr ∨ i = .inc addr) ∧ s.Names addr.toNat a ∧
      exec i s = .next (Completed s s.cpu (Memory.write s.mem a v) s.console)) ∨
    (∃ c, exec i s = .next (s.takeFault c)) ∨
    (i = .brk ∧ exec i s = .next s.takeBreak) := by
  have stays : ∀ r : Cpu, finish s (.ok (s.setCpu r)) = .next (Completed s r s.mem s.console) := fun _ => rfl
  have loads : ∀ (f : Byte → State) addr, (∀ v, ∃ r : Cpu, f v = s.setCpu r ∧ r.ir = s.cpu.ir ∧
      r.isExecuting = s.cpu.isExecuting ∧ ((∀ a, i ≠ .cpx a) → r.z = s.cpu.z)) →
      exec i s = finish s ((s.readOperand addr).map f) →
      (∃ r k, exec i s = .next (Completed s r s.mem k) ∧ r.ir = s.cpu.ir ∧ r.isExecuting = s.cpu.isExecuting ∧
        ((∀ addr, i ≠ .cpx addr) → r.z = s.cpu.z) ∧
        (k = s.console ∨ i = .sys ∧ ∃ text, k = s.console ++ [.putText text])) ∨
      (∃ c, exec i s = .next (s.takeFault c)) := by
    intro f addr hf he
    rw [he]
    cases s.readOperand addr with
    | error c => exact .inr ⟨c, rfl⟩
    | ok v =>
      obtain ⟨r, hr, h1, h2, h3⟩ := hf v
      refine .inl ⟨r, s.console, ?_, h1, h2, h3, .inl rfl⟩
      simp only [Except.map, hr, stays]
  cases i with
  | brk => exact .inr (.inr (.inr ⟨rfl, rfl⟩))
  | ldaImm v => exact .inl ⟨_, _, stays { s.cpu with acc := v }, rfl, rfl, fun _ => rfl, .inl rfl⟩
  | ldxImm v => exact .inl ⟨_, _, stays { s.cpu with x := v }, rfl, rfl, fun _ => rfl, .inl rfl⟩
  | ldyImm v => exact .inl ⟨_, _, stays { s.cpu with y := v }, rfl, rfl, fun _ => rfl, .inl rfl⟩
  | nop => exact .inl ⟨_, _, stays s.cpu, rfl, rfl, fun _ => rfl, .inl rfl⟩
  | bne rel =>
    refine .inl ⟨if branchTaken s.cpu.z then { s.cpu with pc := relTarget s.cpu.pc rel } else s.cpu, s.console, ?_,
      ?_, ?_, fun _ => ?_, .inl rfl⟩
    · simp only [exec, execBne]; split <;> rfl
    all_goals split <;> rfl
  | ldaAbs addr =>
    exact (loads (fun v => s.setAcc v) addr (fun v => ⟨_, rfl, rfl, rfl, fun _ => rfl⟩) rfl).imp_right
      fun h => .inr (.inl h)
  | ldxAbs addr =>
    exact (loads (fun v => s.setX v) addr (fun v => ⟨_, rfl, rfl, rfl, fun _ => rfl⟩) rfl).imp_right
      fun h => .inr (.inl h)
  | ldyAbs addr =>
    exact (loads (fun v => s.setY v) addr (fun v => ⟨_, rfl, rfl, rfl, fun _ => rfl⟩) rfl).imp_right
      fun h => .inr (.inl h)
  | adc addr =>
    exact (loads (fun v => s.setAcc (aluAdd s.cpu.acc v)) addr (fun v => ⟨_, rfl, rfl, rfl, fun _ => rfl⟩)
      rfl).imp_right fun h => .inr (.inl h)
  | cpx addr =>
    exact (loads (fun v => s.setZ (compareFlag v s.cpu.x)) addr
      (fun v => ⟨_, rfl, rfl, rfl, fun h => absurd rfl (h addr)⟩) rfl).imp_right fun h => .inr (.inl h)
  | sta addr =>
    rcases s.names_or_none addr.toNat with ⟨a, ha⟩ | hn
    · refine .inr (.inl ⟨addr, a, s.cpu.acc, .inl rfl, ha, ?_⟩)
      simp only [exec, execSta, State.writeOperand_names ha]; rfl
    · refine .inr (.inr (.inl ⟨.operandSegFault, ?_⟩))
      simp only [exec, execSta, State.writeOperand_none hn]; rfl
  | inc addr =>
    rcases s.names_or_none addr.toNat with ⟨a, ha⟩ | hn
    · refine .inr (.inl ⟨addr, a, aluInc (Memory.read s.mem a), .inr rfl, ha, ?_⟩)
      simp only [exec, execInc, State.readOperand_names ha, Except.bind, State.writeOperand_names ha]; rfl
    · refine .inr (.inr (.inl ⟨.operandSegFault, ?_⟩))
      simp only [exec, execInc, State.readOperand_none hn]; rfl
  | sys =>
    simp only [exec, execSys]
    split
    · exact .inl ⟨s.cpu, _, rfl, rfl, rfl, fun _ => rfl, .inr ⟨trivial, _, rfl⟩⟩
    · split
      · cases s.readString s.cpu.y.toNat with
        | error c => exact .inr (.inr (.inl ⟨c, rfl⟩))
        | ok text => exact .inl ⟨s.cpu, _, rfl, rfl, rfl, fun _ => rfl, .inr ⟨trivial, text, rfl⟩⟩
      · exact .inr (.inr (.inl ⟨.invalidSysArg, rfl⟩))

end Sys2Proof.Machine
end

