-- ==== Sys2Proof/Laws/Disk.lean ====
section
/-! SUPPORT. The disk: locations and their keys, the stored form of a block, reads after writes, and what each
controller operation can do, said once. -/

namespace Sys2Proof.Machine

/-! ## Locations -/

/-- The coordinates of a location on a legal grid are at most 9. -/
theorem DiskLoc.onGrid_lt {c : Config} (hc : c.legal = true) {l : DiskLoc} (hl : l.onGrid c = true) :
    l.t < 10 ∧ l.s < 10 ∧ l.b < 10 := by
  simp [Config.legal, Config.diskOk] at hc
  simp [DiskLoc.onGrid] at hl
  omega

/-- A location whose last two coordinates are bytes is the location of its key. -/
theorem DiskLoc.ofKey_key {l : DiskLoc} (hs : l.s < 256) (hb : l.b < 256) : DiskLoc.ofKey l.key = l := by
  obtain ⟨t, s, b⟩ := l
  simp only [DiskLoc.ofKey, DiskLoc.key, DiskLoc.mk.injEq] at *
  omega

/-- Two locations of a legal grid with one key are one location. -/
theorem DiskLoc.key_inj {c : Config} (hc : c.legal = true) {l m : DiskLoc} (hl : l.onGrid c = true)
    (hm : m.onGrid c = true) (h : l.key = m.key) : l = m := by
  have hl := DiskLoc.onGrid_lt hc hl
  have hm := DiskLoc.onGrid_lt hc hm
  rw [← DiskLoc.ofKey_key (l := l) (by omega) (by omega), h, DiskLoc.ofKey_key (by omega) (by omega)]

theorem mem_trackLocs {c : Config} {t : Nat} {l : DiskLoc} :
    l ∈ trackLocs c t ↔ l.t = t ∧ l.s < c.numSectors ∧ l.b < c.numBlocks := by
  obtain ⟨t', s, b⟩ := l
  simp only [trackLocs, List.mem_flatMap, List.mem_map, List.mem_range, DiskLoc.mk.injEq]
  constructor
  · rintro ⟨s', hs, b', hb, rfl, rfl, rfl⟩; exact ⟨rfl, hs, hb⟩
  · rintro ⟨rfl, hs, hb⟩; exact ⟨s, hs, b, hb, rfl, rfl, rfl⟩

/-- The directory region is track 0 without the boot record (46_disk_fs.md R118). -/
theorem mem_directoryRegion {c : Config} {l : DiskLoc} :
    l ∈ directoryRegion c ↔ l.t = 0 ∧ l.s < c.numSectors ∧ l.b < c.numBlocks ∧ l ≠ bootLoc := by
  simp [directoryRegion, mem_trackLocs, and_assoc]

/-- The content region is every location with `t >= 1` (R118). -/
theorem mem_contentRegion {c : Config} {l : DiskLoc} :
    l ∈ contentRegion c ↔ 1 ≤ l.t ∧ l.t < c.numTracks ∧ l.s < c.numSectors ∧ l.b < c.numBlocks := by
  simp only [contentRegion, List.mem_flatMap, List.mem_range, mem_trackLocs]
  constructor
  · rintro ⟨t, ht, h1, h2, h3⟩; exact ⟨by omega, by omega, h2, h3⟩
  · rintro ⟨h0, h1, h2, h3⟩; exact ⟨l.t - 1, by omega, by omega, h2, h3⟩

theorem directoryRegion_onGrid {c : Config} (hc : c.legal = true) {l : DiskLoc} (h : l ∈ directoryRegion c) :
    l.onGrid c = true := by
  obtain ⟨ht, hs, hb, _⟩ := mem_directoryRegion.1 h
  simp [Config.legal, Config.diskOk] at hc
  simp [DiskLoc.onGrid]; omega

theorem contentRegion_onGrid {c : Config} {l : DiskLoc} (h : l ∈ contentRegion c) : l.onGrid c = true := by
  obtain ⟨_, ht, hs, hb⟩ := mem_contentRegion.1 h
  simp [DiskLoc.onGrid, ht, hs, hb]

/-- No location is in both regions. -/
theorem regions_disjoint {c : Config} {l : DiskLoc} (h : l ∈ directoryRegion c) : l ∉ contentRegion c := by
  intro h'
  have := (mem_directoryRegion.1 h).1
  have := (mem_contentRegion.1 h').1
  omega

/-! ## The stored form -/

theorem BlockState.ofByte_byte (st : BlockState) : BlockState.ofByte st.byte = some st := by
  cases st <;> rfl

@[simp] theorem FsBlock.length_encode (b : FsBlock) : b.encode.length = 4 + b.content.length := by
  simp [FsBlock.encode]; omega

@[simp] theorem length_zeroContent : zeroContent.length = 60 := by simp [zeroContent, Config.blockPayload]

/-- `padTo` fills to `n` bytes. -/
theorem length_padTo {n : Nat} {bs : List Byte} (h : bs.length ≤ n) : (padTo n bs).length = n := by
  simp [padTo]; omega

/-! ## Reads after writes -/

@[simp] theorem Disk.formatted_writeBlock (d : Disk) (l : DiskLoc) (b : FsBlock) :
    (d.writeBlock l b).formatted = d.formatted := rfl

@[simp] theorem Disk.swaps_writeBlock (d : Disk) (l : DiskLoc) (b : FsBlock) :
    (d.writeBlock l b).swaps = d.swaps := rfl

theorem Disk.wf_writeBlock {d : Disk} (hd : Sparse.wf unlistedBlock d.blocks = true) (l : DiskLoc) (b : FsBlock) :
    Sparse.wf unlistedBlock (d.writeBlock l b).blocks = true :=
  Sparse.wf_write hd _ _

/-- The stored bytes of a block after a block is written. -/
theorem Disk.stored_writeBlock {d : Disk} (hd : Sparse.wf unlistedBlock d.blocks = true) (l m : DiskLoc)
    (b : FsBlock) : (d.writeBlock l b).stored m = if m.key = l.key then b.encode else d.stored m :=
  Sparse.read_write hd _ _ _

/-! ## The scans -/

/-- What `findBlock` does when it finds a block: the first one that satisfies the predicate, every block up to it
being readable. -/
theorem Disk.findBlock_some {c : Config} {d : Disk} {p : FsBlock → Bool} {ls : List DiskLoc} {l : DiskLoc}
    (h : d.findBlock c p ls = .ok (some l)) : l ∈ ls ∧ ∃ b, d.readBlock c l = .ok b ∧ p b = true := by
  induction ls with
  | nil => cases h
  | cons m ls ih =>
    rw [Disk.findBlock] at h
    split at h
    · cases h
    · next b hb =>
      split at h
      · next hp => cases h; exact ⟨by simp, b, hb, hp⟩
      · exact ⟨List.mem_cons_of_mem _ (ih h).1, (ih h).2⟩

/-- What `findBlock` does when it finds none: every block is readable and none satisfies the predicate. -/
theorem Disk.findBlock_none {c : Config} {d : Disk} {p : FsBlock → Bool} {ls : List DiskLoc} :
    d.findBlock c p ls = .ok none ↔ ∀ l ∈ ls, ∃ b, d.readBlock c l = .ok b ∧ p b = false := by
  induction ls with
  | nil => simp [Disk.findBlock]
  | cons m ls ih =>
    rw [Disk.findBlock]
    cases hb : d.readBlock c m with
    | error e => simp [hb]
    | ok b =>
      cases hp : p b <;> simp [hb, hp, ih]

/-- What `filterBlocks` answers: every block is readable, and the result is the sublist that satisfies the
predicate. -/
theorem Disk.filterBlocks_ok {c : Config} {d : Disk} {p : FsBlock → Bool} {ls fs : List DiskLoc}
    (h : d.filterBlocks c p ls = .ok fs) :
    fs.Sublist ls ∧ ∀ l ∈ ls, ∃ b, d.readBlock c l = .ok b ∧ (l ∈ fs → p b = true) ∧ (p b = true → l ∈ fs) := by
  induction ls generalizing fs with
  | nil => cases h; simp
  | cons m ls ih =>
    rw [Disk.filterBlocks] at h
    split at h
    · cases h
    · next b hb =>
      split at h
      · cases h
      · next gs hgs =>
        obtain ⟨hsub, hall⟩ := ih hgs
        cases h
        cases hp : p b with
        | true =>
          refine ⟨by simpa using hsub, fun l hl => ?_⟩
          by_cases hlm : l = m
          · subst hlm; exact ⟨b, hb, fun _ => hp, by simp⟩
          · have hl : l ∈ ls := by simpa [hlm] using hl
            obtain ⟨b', h1, h2, h3⟩ := hall l hl
            exact ⟨b', h1, by simpa [hlm] using h2, by simpa [hlm] using h3⟩
        | false =>
          refine ⟨by simpa using hsub.cons m, fun l hl => ?_⟩
          by_cases hl' : l ∈ ls
          · obtain ⟨b', h1, h2, h3⟩ := hall l hl'
            exact ⟨b', h1, by simpa using h2, by simpa using h3⟩
          · have hlm : l = m := by simpa [hl'] using hl
            subst hlm
            exact ⟨b, hb, by simp only [Bool.false_eq_true, if_false]; exact fun h => absurd (hsub.subset h) hl',
              by simp [hp]⟩

/-! ## The operations -/

/-- What `createFile` does when it succeeds (R128): the name is legal and new, and one AVAILABLE directory block
becomes the OCCUPIED, self-pointing block that stores it. -/
theorem Disk.createFile_ok {c : Config} {d d' : Disk} {name : List Byte} (h : d.createFile c name = .ok d') :
    d.formatted = true ∧ validFileName name = true ∧ d.lookup c name = .ok none ∧
      ∃ l, d.claimDir c = .ok l ∧
        d' = d.writeBlock l { state := .occupied, pointer := l, content := padTo Config.blockPayload name } := by
  unfold Disk.createFile at h
  split at h
  · next hf =>
    split at h
    · next hv =>
      split at h
      · cases h
      · cases h
      · next hl =>
        split at h
        · cases h
        · next l hc => cases h; exact ⟨hf, hv, hl, l, hc, rfl⟩
    · cases h
  · cases h

/-- The block `claimDir` answers is an AVAILABLE directory-region block (R124). -/
theorem Disk.claimDir_ok {c : Config} {d : Disk} {l : DiskLoc} (h : d.claimDir c = .ok l) :
    l ∈ directoryRegion c ∧ ∃ b, d.readBlock c l = .ok b ∧ b.isOccupied = false := by
  unfold Disk.claimDir at h
  split at h
  · cases h
  · cases h
  · next m hm =>
    cases h
    obtain ⟨h1, b, h2, h3⟩ := Disk.findBlock_some hm
    exact ⟨h1, b, h2, by simpa using h3⟩

/-- What `extend` does when it succeeds (R129). -/
theorem Disk.extend_ok {c : Config} {d d' : Disk} {t : DiskLoc} {b : FsBlock} {off : Nat} {head : List Byte}
    {pieces : List (List Byte)} (h : d.extend c t b off head pieces = .ok d') :
    ∃ free, d.freeContent c = .ok free ∧ pieces.length ≤ free.length ∧
      d' = (d.writeBlock t { b with
          pointer := (free.take pieces.length).head?.getD b.pointer
          content := patchAt b.content off head }).writeChain (free.take pieces.length) pieces := by
  unfold Disk.extend at h
  split at h
  · cases h
  · next free hf =>
    split at h
    · cases h
    · next hlen =>
      refine ⟨free, hf, by omega, ?_⟩
      cases h
      cases hcl : free.take pieces.length <;> rfl

/-- What `swapLoad` does when it succeeds (R135). -/
theorem Disk.swapLoad_ok {c : Config} {d d' : Disk} {program : List Byte} {pid : Nat}
    (h : d.swapLoad c program pid = .ok d') :
    ∃ d1 d2, d.createFile c (swapName pid) = .ok d1 ∧ d1.appendToFile c (swapName pid) program = .ok d2 ∧
      d' = { d2 with swaps := insertPid pid d2.swaps } := by
  unfold Disk.swapLoad at h
  split at h
  · cases h
  · next d1 h1 =>
    split at h
    · cases h
    · next d2 h2 => cases h; exact ⟨d1, d2, h1, h2, rfl⟩

/-- What `deleteSwap` does when it succeeds (R136). -/
theorem Disk.deleteSwap_ok {c : Config} {d d' : Disk} {pid : Nat} {img : List Byte}
    (h : d.deleteSwap c pid = .ok (img, d')) :
    d.formatted = true ∧ pid ∈ d.swaps ∧ d.readRaw c (swapName pid) = .ok img ∧
      ∃ d1, d.deleteFile c (swapName pid) = .ok d1 ∧ d' = { d1 with swaps := erasePid pid d1.swaps } := by
  unfold Disk.deleteSwap at h
  split at h
  · next hf =>
    split at h
    · next hp =>
      split at h
      · cases h
      · next img' hi =>
        split at h
        · cases h
        · next d1 hd => cases h; exact ⟨hf, hp, hi, d1, hd, rfl⟩
    · cases h
  · cases h

/-- Before `format()` every operation answers `NotFormatted` (R122). -/
theorem Disk.notFormatted {d : Disk} (hf : d.formatted = false) (c : Config) (name data : List Byte) (pid : Nat) :
    d.createFile c name = .error .notFormatted ∧ d.appendToFile c name data = .error .notFormatted ∧
      d.readRaw c name = .error .notFormatted ∧ d.readFile c name = .error .notFormatted ∧
      d.deleteFile c name = .error .notFormatted ∧ d.ls c = .error .notFormatted ∧
      d.swapLoad c data pid = .error .notFormatted ∧ d.deleteSwap c pid = .error .notFormatted := by
  simp [Disk.createFile, Disk.appendToFile, Disk.readRaw, Disk.readFile, Disk.deleteFile, Disk.ls, Disk.swapLoad,
    Disk.deleteSwap, hf, Except.map]

end Sys2Proof.Machine
end

