-- ==== Sys2Proof/Laws/MemoryManager.lean ====
section
/-! SUPPORT. What each memory-manager operation can do, said once. -/

namespace Sys2Proof.Machine

/-! ## Sets of pids -/

theorem mem_insertPid {pid q : Nat} {ps : List Nat} : q ∈ insertPid pid ps ↔ q = pid ∨ q ∈ ps := by
  induction ps with
  | nil => simp [insertPid]
  | cons p ps ih =>
    simp only [insertPid]
    split
    · simp
    · split
      · subst_vars; simp
      · rw [List.mem_cons, ih, List.mem_cons]
        constructor
        · rintro (h | h | h) <;> simp [h]
        · rintro (h | h | h) <;> simp [h]

theorem mem_erasePid {pid q : Nat} {ps : List Nat} : q ∈ erasePid pid ps ↔ q ≠ pid ∧ q ∈ ps := by
  simp [erasePid, and_comm]

/-! ## Placement -/

/-- The first free segment: free, and every earlier one occupied (20_memory.md R42). -/
theorem State.freeSegment_some {s : State} {i : Nat} (h : s.freeSegment = some i) :
    s.occ[i]? = some false ∧ ∀ j < i, s.occ[j]? = some true := by
  unfold State.freeSegment at h
  obtain ⟨hlt, hi, hj⟩ := List.findIdx?_eq_some_iff_getElem.1 h
  refine ⟨by rw [List.getElem?_eq_getElem hlt]; simpa using hi, fun j hj' => ?_⟩
  rw [List.getElem?_eq_getElem (by omega)]
  simpa using hj j hj'

/-- There is no free segment exactly when memory is full (R38). -/
theorem State.freeSegment_none {s : State} : s.freeSegment = none ↔ s.isFull = true := by
  simp [State.freeSegment, State.isFull, List.findIdx?_eq_none_iff]

/-- What placement does when it succeeds: the program's bytes, cut at the segment's end, in the first free segment,
which becomes occupied; nothing else changes (R42, R43). -/
theorem State.place_ok {s t : State} {program : List Byte} {i : Nat} :
    s.place program = .ok (i, t) ↔ s.freeSegment = some i ∧ ∃ g, s.seg[i]? = some g ∧
      t = { s with
        mem := Memory.writeBytes s.mem g.base (program.take s.cfg.segSize)
        occ := s.occ.set i true } := by
  unfold State.place
  cases hf : s.freeSegment with
  | none => simp
  | some j =>
    cases hg : s.seg[j]? with
    | none =>
      constructor
      · intro h; simp [hg] at h
      · rintro ⟨hij, g, hg', _⟩; cases hij; rw [hg] at hg'; cases hg'
    | some g =>
      simp only [hg, Except.ok.injEq, Prod.mk.injEq]
      constructor
      · rintro ⟨rfl, rfl⟩; exact ⟨rfl, g, hg, rfl⟩
      · rintro ⟨hij, g', hg', rfl⟩; cases hij; rw [hg] at hg'; cases hg'; exact ⟨rfl, rfl⟩

/-- What `load` does when it succeeds (R42). -/
theorem State.load_ok {s t : State} {program : List Byte} {pid : Nat} {p : Pcb} (h : s.load program pid = .ok (p, t)) :
    ∃ i u, s.place program = .ok (i, u) ∧
      p = { newPcb pid with occupiedSegment := some i, location := .memory } ∧
      t = { u with reg := insertPid pid u.reg } := by
  unfold State.load at h
  split at h
  · cases h
  · next i u hu => cases h; exact ⟨i, u, hu, rfl, rfl⟩

/-- What `loadFromPCB` does when it succeeds (R43). -/
theorem State.loadFromPcb_ok {s t : State} {program : List Byte} {p q : Pcb}
    (h : s.loadFromPcb p program = .ok (q, t)) :
    ∃ i u, s.place program = .ok (i, u) ∧ q = { p with occupiedSegment := some i, location := .memory } ∧
      t = { u with reg := insertPid p.pid u.reg } := by
  unfold State.loadFromPcb at h
  split at h
  · cases h
  · next i u hu => cases h; exact ⟨i, u, hu, rfl, rfl⟩

/-! ## Freeing -/

/-- What freeing a PCB's segment can do: take the pid out of the registry and, when the PCB has a segment of the table,
zero-fill it and mark it free (R44, R45). -/
theorem State.vacate_cases (s : State) (p : Pcb) :
    (∃ i g, p.occupiedSegment = some i ∧ s.seg[i]? = some g ∧
      s.vacate p = { s with
        mem := Memory.zeroRange s.mem g.base g.size
        occ := s.occ.set i false
        reg := erasePid p.pid s.reg }) ∨
    ((∀ i, p.occupiedSegment = some i → s.seg[i]? = none) ∧
      s.vacate p = { s with reg := erasePid p.pid s.reg }) := by
  unfold State.vacate
  cases hp : p.occupiedSegment with
  | none => exact .inr ⟨by simp, rfl⟩
  | some i =>
    cases hg : s.seg[i]? with
    | none => exact .inr ⟨fun j hj => by cases hj; exact hg, by simp [State.releaseSegment, hg]⟩
    | some g => exact .inl ⟨i, g, rfl, hg, by simp [State.releaseSegment, hg]⟩

/-- What `evacuate` can do (R44): nothing for a PCB outside the registry, else free its segment. -/
theorem State.evacuate_cases (s : State) (p : Pcb) :
    (p.pid ∈ s.reg ∧ s.evacuate p = ({ p with occupiedSegment := none }, s.vacate p)) ∨
      (p.pid ∉ s.reg ∧ s.evacuate p = (p, s)) := by
  unfold State.evacuate
  split
  · next h => exact .inl ⟨h, rfl⟩
  · next h => exact .inr ⟨h, rfl⟩

/-- What `dequeueDiskCandidate` does when it succeeds (R45): the `SEG_SIZE` bytes of the segment, the PCB without a
segment, the state with that segment free and zero. -/
theorem State.dequeueDiskCandidate_ok {s t : State} {p q : Pcb} {image : List Byte}
    (h : s.dequeueDiskCandidate p = .ok (q, image, t)) :
    ∃ i g, p.pid ∈ s.reg ∧ p.occupiedSegment = some i ∧ s.seg[i]? = some g ∧
      q = { p with occupiedSegment := none, location := .undefined } ∧
      image = Memory.readBytes s.mem g.base s.cfg.segSize ∧ t = s.vacate p := by
  unfold State.dequeueDiskCandidate at h
  split at h
  · next hreg =>
    split at h
    · cases h
    · next i hi =>
      split at h
      · cases h
      · next g hg => cases h; exact ⟨i, g, hreg, hi, hg, rfl, rfl, rfl⟩
  · cases h

end Sys2Proof.Machine
end

