-- ==== Sys2Proof/Laws/Scheduler.lean ====
section
/-! SUPPORT. What each operation of the scheduler, the serializer and the kernel can do, said once. -/

namespace Sys2Proof.Machine

/-! ## Queues -/

theorem findPid_some {pid : Nat} {ps : List Pcb} {p : Pcb} (h : findPid pid ps = some p) : p ∈ ps ∧ p.pid = pid :=
  ⟨List.mem_of_find?_eq_some h, by simpa using List.find?_some h⟩

theorem findPid_none {pid : Nat} {ps : List Pcb} : findPid pid ps = none ↔ ∀ p ∈ ps, p.pid ≠ pid := by
  simp [findPid]

theorem mem_insertByPriority {p q : Pcb} {ps : List Pcb} : q ∈ insertByPriority p ps ↔ q = p ∨ q ∈ ps := by
  induction ps with
  | nil => simp [insertByPriority]
  | cons r ps ih =>
    simp only [insertByPriority]
    split
    · simp
    · rw [List.mem_cons, ih, List.mem_cons]
      constructor
      · rintro (h | h | h) <;> simp [h]
      · rintro (h | h | h) <;> simp [h]

/-- The ready queue after an insertion holds the old entries and the new one (45_context_switch.md R105). -/
theorem mem_readyInsert {policy : Policy} {p q : Pcb} {ps : List Pcb} :
    q ∈ readyInsert policy p ps ↔ q = p ∨ q ∈ ps := by
  cases policy <;> simp [readyInsert, mem_insertByPriority, or_comm]

theorem mem_removePid {pid : Nat} {ps : List Pcb} {q : Pcb} (h : q ∈ removePid pid ps) : q ∈ ps :=
  List.eraseP_subset h

theorem mem_replacePid {p q : Pcb} {ps : List Pcb} (h : q ∈ replacePid p ps) : q = p ∨ q ∈ ps := by
  induction ps with
  | nil => cases h
  | cons r ps ih =>
    simp only [replacePid] at h
    split at h
    · rcases List.mem_cons.1 h with h | h <;> simp [h]
    · rcases List.mem_cons.1 h with h | h
      · simp [h]
      · rcases ih h with h | h <;> simp [h]

theorem mem_insertByPid {p q : Pcb} {ps : List Pcb} (h : q ∈ insertByPid p ps) : q = p ∨ q ∈ ps := by
  induction ps with
  | nil => simpa [insertByPid] using h
  | cons r ps ih =>
    simp only [insertByPid] at h
    split at h
    · simpa using h
    · split at h
      · rcases List.mem_cons.1 h with h | h <;> simp [h]
      · rcases List.mem_cons.1 h with h | h
        · simp [h]
        · rcases ih h with h | h <;> simp [h]

/-! ## Residency -/

/-- What the placement of a load can do when it succeeds (R103): the disk when memory is full, else a segment. -/
theorem State.placeProgram_ok {s t : State} {program : List Byte} {pid : Nat} {p : Pcb}
    (h : s.placeProgram program pid = .ok (p, t)) :
    (s.isFull = true ∧ ∃ d, s.disk.swapLoad s.cfg (program.take s.cfg.segSize) pid = .ok d ∧
      p = { newPcb pid with occupiedSegment := none, location := .disk } ∧ t = { s with disk := d }) ∨
    (s.isFull = false ∧ s.load program pid = .ok (p, t)) := by
  unfold State.placeProgram at h
  split at h
  · next hfull =>
    split at h
    · cases h
    · next d hd => cases h; exact .inl ⟨hfull, d, hd, rfl, rfl⟩
  · next hfull =>
    split at h
    · cases h
    · next r hr => cases h; exact .inr ⟨by simpa using hfull, hr⟩

/-- What `requestResidency` does when it succeeds (R103). -/
theorem State.requestResidency_ok {s t : State} {program : List Byte} {priority : Option Int} {pid : Nat}
    (h : s.requestResidency program priority = .ok (pid, t)) :
    pid = s.nextPid ∧ ∃ p u, s.placeProgram program s.nextPid = .ok (p, u) ∧
      t = { u with
        nextPid := s.nextPid + 1
        resident := insertByPid { p with status := .resident, priority := requestedPriority priority } u.resident } := by
  unfold State.requestResidency at h
  split at h
  · cases h
  · next p u hu => cases h; exact ⟨rfl, p, u, hu, rfl⟩

/-- What `requestCPUExecution` does when the pid is found (R104). -/
theorem State.requestCpuExecution_some {s t : State} {pid : Nat} (h : s.requestCpuExecution pid = some t) :
    ∃ p, findPid pid s.resident = some p ∧
      t = { s with
        resident := removePid pid s.resident
        ready := readyInsert s.cfg.policy { p with status := .ready } s.ready } := by
  unfold State.requestCpuExecution at h
  split at h
  · cases h
  · next p hp => cases h; exact ⟨p, hp, rfl⟩

/-! ## Termination -/

/-- What the search for a swap file can answer: there is none (not formatted, not in `SWAPS`, or no such file), it is
there, or the lookup's error (R110, R116). -/
theorem State.swapFilePresent_cases (s : State) (pid : Nat) :
    (s.swapFilePresent pid = .ok false ∧ (s.disk.formatted = false ∨ pid ∉ s.disk.swaps ∨
      s.disk.lookup s.cfg (swapName pid) = .ok none)) ∨
    (s.disk.formatted = true ∧ pid ∈ s.disk.swaps ∧
      ((∃ l, s.disk.lookup s.cfg (swapName pid) = .ok (some l) ∧ s.swapFilePresent pid = .ok true) ∨
       ∃ e, s.disk.lookup s.cfg (swapName pid) = .error e ∧ s.swapFilePresent pid = .error e)) := by
  unfold State.swapFilePresent
  by_cases h : s.disk.formatted = true ∧ pid ∈ s.disk.swaps
  · rw [if_pos h]
    cases hl : s.disk.lookup s.cfg (swapName pid) with
    | error e => exact .inr ⟨h.1, h.2, .inr ⟨e, rfl, rfl⟩⟩
    | ok o =>
      cases o with
      | none => exact .inl ⟨rfl, .inr (.inr rfl)⟩
      | some l => exact .inr ⟨h.1, h.2, .inl ⟨l, rfl, rfl⟩⟩
  · rw [if_neg h]
    refine .inl ⟨rfl, ?_⟩
    by_cases hf : s.disk.formatted = true
    · exact .inr (.inl fun hp => h ⟨hf, hp⟩)
    · exact .inl (by simpa using hf)

/-- An image is lost exactly in the three ways of R110. -/
theorem State.imageLost_iff {s : State} {h : Pcb} :
    s.imageLost h = true ↔ s.disk.formatted = false ∨ h.pid ∉ s.disk.swaps ∨
      s.disk.lookup s.cfg (swapName h.pid) = .ok none := by
  unfold State.imageLost
  rcases s.swapFilePresent_cases h.pid with ⟨hp, hw⟩ | ⟨hf, hs, ⟨l, hl, hp⟩ | ⟨e, hl, hp⟩⟩
  · simp [hp, hw]
  · simp [hp, hf, hs, hl]
  · simp [hp, hf, hs, hl]

/-- What reclaiming a swap file can do: nothing when there is none; delete it; or report the error met (R116,
60_exceptions.md R151). -/
theorem State.reclaimSwap_cases (s : State) (pid : Nat) :
    (s.swapFilePresent pid = .ok false ∧ s.reclaimSwap pid = s) ∨
    (s.swapFilePresent pid = .ok true ∧
      ∃ img d, s.disk.deleteSwap s.cfg pid = .ok (img, d) ∧ s.reclaimSwap pid = { s with disk := d }) ∨
    (∃ e, (s.swapFilePresent pid = .error e ∨
        s.swapFilePresent pid = .ok true ∧ s.disk.deleteSwap s.cfg pid = .error e) ∧
      s.reclaimSwap pid = s.report (.reclaimFailed pid e)) := by
  unfold State.reclaimSwap
  cases hs : s.swapFilePresent pid with
  | error e => exact .inr (.inr ⟨e, .inl rfl, rfl⟩)
  | ok present =>
    cases present with
    | false => exact .inl ⟨rfl, rfl⟩
    | true =>
      cases hd : s.disk.deleteSwap s.cfg pid with
      | error e => exact .inr (.inr ⟨e, .inr ⟨rfl, rfl⟩, by simp⟩)
      | ok r => exact .inr (.inl ⟨rfl, r.1, r.2, rfl, by simp⟩)

/-- What reclaiming can do: evacuate a PCB in memory, reclaim the swap file of one on disk, or nothing (R116). -/
theorem State.reclaim_cases (s : State) (p : Pcb) :
    (p.location = .memory ∧ s.reclaim p = s.evacuate p) ∨
    (p.location = .disk ∧ s.reclaim p = (p, s.reclaimSwap p.pid)) ∨
    (p.location = .undefined ∧ s.reclaim p = (p, s)) := by
  unfold State.reclaim
  cases hl : p.location with
  | memory => exact .inl ⟨rfl, rfl⟩
  | disk => exact .inr (.inl ⟨rfl, rfl⟩)
  | undefined => exact .inr (.inr ⟨rfl, rfl⟩)

/-- What `terminate` does when the pid is active (R116): it was executing, or it was ready. -/
theorem State.terminate_some {s t : State} {pid : Nat} (h : s.terminate pid = some t) :
    (∃ p, s.executing = some p ∧ p.pid = pid ∧
      t = State.finishTermination { s with executing := none } p true) ∨
    ((∀ p, s.executing = some p → p.pid ≠ pid) ∧ ∃ p, findPid pid s.ready = some p ∧
      t = State.finishTermination { s with ready := removePid pid s.ready } p false) := by
  simp only [State.terminate] at h
  cases he : s.executing with
  | none =>
    rw [he] at h
    simp only at h
    split at h
    · next p hp => cases h; exact .inr ⟨by simp, p, hp, rfl⟩
    · cases h
  | some p =>
    rw [he] at h
    simp only at h
    split at h
    · next hpid => cases h; exact .inl ⟨p, rfl, hpid, rfl⟩
    · next hpid =>
      split at h
      · next q hq => cases h; exact .inr ⟨fun p' hp' => by cases hp'; exact hpid, q, hq, rfl⟩
      · cases h

/-- `terminate` finds no pid exactly when it is neither executing nor ready (R116). -/
theorem State.terminate_none {s : State} {pid : Nat} :
    s.terminate pid = none ↔ (∀ p, s.executing = some p → p.pid ≠ pid) ∧ findPid pid s.ready = none := by
  simp only [State.terminate]
  cases s.executing with
  | none => cases findPid pid s.ready <;> simp
  | some p => by_cases hp : p.pid = pid <;> cases findPid pid s.ready <;> simp [hp]

/-- Forgetting a quantum changes only `qPid` and `qCount`, and forgets exactly its own pid's (R116). -/
theorem State.forgetQuantum_cases (s : State) (pid : Nat) :
    (s.qPid = some pid ∧ s.forgetQuantum pid = { s with qPid := none, qCount := 0 }) ∨
      (s.qPid ≠ some pid ∧ s.forgetQuantum pid = s) := by
  unfold State.forgetQuantum
  split
  · next h => exact .inl ⟨h, rfl⟩
  · next h => exact .inr ⟨h, rfl⟩

/-! ## Roll-out and roll-in -/

/-- What `rollOut` does when it succeeds (R109). -/
theorem State.rollOut_ok {s t : State} {v : Pcb} (h : s.rollOut v = .ok t) :
    ∃ w image u d, s.dequeueDiskCandidate v = .ok (w, image, u) ∧ u.disk.swapLoad u.cfg image w.pid = .ok d ∧
      t = { u with disk := d, ready := replacePid { w with location := .disk } u.ready } := by
  unfold State.rollOut at h
  split at h
  · cases h
  · next w image u hu =>
    split at h
    · cases h
    · next d hd => cases h; exact ⟨w, image, u, d, hu, hd, rfl⟩

/-- The victim is a ready PCB in memory (R108). -/
theorem State.victim_some {s : State} {v : Pcb} (h : s.victim = some v) : v ∈ s.ready ∧ v.location = .memory := by
  refine ⟨by simpa using List.mem_of_find?_eq_some h, ?_⟩
  simpa [Pcb.inMemory] using List.find?_some h

/-- What `makeRoom` does when it succeeds: nothing, or one roll-out (R110). -/
theorem State.makeRoom_ok {s t : State} (h : s.makeRoom = .ok t) :
    (s.isFull = false ∧ t = s) ∨ (s.isFull = true ∧ ∃ v, s.victim = some v ∧ s.rollOut v = .ok t) := by
  unfold State.makeRoom at h
  split at h
  · next hfull =>
    split at h
    · cases h
    · next v hv =>
      split at h
      · cases h
      · next u hu => cases h; exact .inr ⟨hfull, v, hv, hu⟩
  · next hfull => cases h; exact .inl ⟨by simpa using hfull, rfl⟩

/-- What reading a swap image back into memory does when it succeeds (R110). -/
theorem State.loadImage_ok {s t : State} {h h' : Pcb} (hl : s.loadImage h = .ok (h', t)) :
    ∃ img d, s.disk.deleteSwap s.cfg h.pid = .ok (img, d) ∧
      State.loadFromPcb { s with disk := d } h img = .ok (h', t) := by
  unfold State.loadImage at hl
  split at hl
  · cases hl
  · next img d hd =>
    split at hl
    · cases hl
    · next r hr => cases hl; exact ⟨img, d, hd, hr⟩

/-- What `rollIn` can do, said once (R110): report and terminate when the image is lost; report and change nothing
else when there is no room or no reading; else the PCB is in memory. -/
theorem State.rollIn_cases (s : State) (h : Pcb) :
    (s.imageLost h = true ∧ s.rollIn h = s.rollInDrop h) ∨
    (s.imageLost h = false ∧ ∃ why, s.rollIn h = .failKeep (s.report (.rollInFailed h.pid why))) ∨
    (s.imageLost h = false ∧ ∃ t h' u, s.makeRoom = .ok t ∧ t.loadImage h = .ok (h', u) ∧ s.rollIn h = .ok h' u) := by
  unfold State.rollIn
  cases hl : s.imageLost h with
  | true => exact .inl ⟨rfl, rfl⟩
  | false =>
    refine .inr ?_
    cases hm : s.makeRoom with
    | error why => exact .inl ⟨rfl, why, rfl⟩
    | ok t =>
      cases hi : t.loadImage h with
      | error why => exact .inl ⟨rfl, why, by simp [hi, State.rollInKeep]⟩
      | ok r => exact .inr ⟨rfl, t, r.1, r.2, rfl, hi, by simp [hi]⟩

/-! ## Dispatch -/

/-- What `next()` can do, said once (R106): nothing; start the head when it is in memory; or what its roll-in does. -/
theorem State.nextProcess_cases (s : State) :
    (s.nextProcess = s ∧ (s.executing ≠ none ∨ s.ready = [])) ∨
    (∃ h rest, s.executing = none ∧ s.ready = h :: rest ∧ h.location ≠ .disk ∧ s.nextProcess = s.startProcess h) ∨
    (∃ h rest, s.executing = none ∧ s.ready = h :: rest ∧ h.location = .disk ∧
      ((∃ t, (s.rollIn h = .failKeep t ∨ s.rollIn h = .failDrop t) ∧ s.nextProcess = t) ∨
       ∃ h' t, s.rollIn h = .ok h' t ∧ s.nextProcess = t.startProcess h')) := by
  unfold State.nextProcess
  cases he : s.executing with
  | some p => exact .inl ⟨rfl, .inl (by simp)⟩
  | none =>
    cases hr : s.ready with
    | nil => exact .inl ⟨rfl, .inr rfl⟩
    | cons h rest =>
      by_cases hd : h.location = .disk
      · refine .inr (.inr ⟨h, rest, rfl, rfl, hd, ?_⟩)
        cases hi : s.rollIn h with
        | failKeep t => exact .inl ⟨t, .inl rfl, by simp [hd, hi]⟩
        | failDrop t => exact .inl ⟨t, .inr rfl, by simp [hd, hi]⟩
        | ok h' t => exact .inr ⟨h', t, rfl, by simp [hd, hi]⟩
      · exact .inr (.inl ⟨h, rest, rfl, rfl, hd, by simp [hd]⟩)

/-- What dispatching the head can do when the queue is not empty (R107). -/
theorem State.switchToHead_cases {s : State} {h : Pcb} {rest : List Pcb} (hr : s.ready = h :: rest) (c : Pcb) :
    (h.location ≠ .disk ∧ s.switchToHead c = s.switchTo h) ∨
    (h.location = .disk ∧ ∃ t, (s.rollIn h = .failKeep t ∨ s.rollIn h = .failDrop t) ∧
      s.switchToHead c = t.undoSwitch c) ∨
    (h.location = .disk ∧ ∃ h' t, s.rollIn h = .ok h' t ∧ s.switchToHead c = t.switchTo h') := by
  unfold State.switchToHead
  rw [hr]
  by_cases hd : h.location = .disk
  · refine .inr ?_
    cases hi : s.rollIn h with
    | failKeep t => exact .inl ⟨hd, t, .inl rfl, by simp [hd, hi]⟩
    | failDrop t => exact .inl ⟨hd, t, .inr rfl, by simp [hd, hi]⟩
    | ok h' t => exact .inr ⟨hd, h', t, rfl, by simp [hd, hi]⟩
  · exact .inl ⟨hd, by simp [hd]⟩

/-- The queue after a re-queue is not empty. -/
theorem State.requeue_ready (s : State) (c : Pcb) : ∃ h rest, (s.requeue c).ready = h :: rest := by
  cases hq : (s.requeue c).ready with
  | nil =>
    have h : c ∈ (s.requeue c).ready := mem_readyInsert.2 (.inl rfl)
    rw [hq] at h; cases h
  | cons h rest => exact ⟨h, rest, rfl⟩

/-- What `contextSwitch()` can do, said once (R107): nothing without an executing process; a trace report with an
empty ready queue; else re-queue and dispatch the head. -/
theorem State.contextSwitch_cases (s : State) :
    (s.executing = none ∧ s.contextSwitch = s) ∨
    (∃ p, s.executing = some p ∧ s.ready = [] ∧ s.contextSwitch = s.report .switchNoop) ∨
    (∃ p, s.executing = some p ∧ s.ready ≠ [] ∧
      s.contextSwitch = (s.requeue (p.serialized s.cpu)).switchToHead (p.serialized s.cpu)) := by
  unfold State.contextSwitch
  cases he : s.executing with
  | none => exact .inl ⟨rfl, rfl⟩
  | some p =>
    refine .inr ?_
    by_cases hr : s.ready = []
    · exact .inl ⟨p, rfl, hr, by simp [hr]⟩
    · exact .inr ⟨p, rfl, hr, by simp [hr]⟩

/-- What the policy can do after an `OK` cycle (R112, R113): nothing outside round robin; under it, count, and at the
quantum restart the count and request a switch. -/
theorem State.policyAfterInstruction_cases (s : State) (pid : Nat) :
    (s.cfg.policy ≠ .rr ∧ s.policyAfterInstruction pid = s) ∨
    (s.cfg.policy = .rr ∧ s.quantumCount pid < s.cfg.quantum ∧
      s.policyAfterInstruction pid = { s with qPid := some pid, qCount := s.quantumCount pid }) ∨
    (s.cfg.policy = .rr ∧ s.cfg.quantum ≤ s.quantumCount pid ∧
      s.policyAfterInstruction pid =
        { s with qPid := some pid, qCount := 0, intq := s.intq ++ [.contextSwitch] }) := by
  unfold State.policyAfterInstruction
  cases hp : s.cfg.policy with
  | rr =>
    by_cases hq : s.cfg.quantum ≤ s.quantumCount pid
    · exact .inr (.inr ⟨rfl, hq, by simp [hq, State.enqueue]⟩)
    · exact .inr (.inl ⟨rfl, by omega, by simp [hq]⟩)
  | fcfs => exact .inl ⟨by simp, rfl⟩
  | priority => exact .inl ⟨by simp, rfl⟩

end Sys2Proof.Machine
end

