-- ==== Sys2Proof/Laws/Cycle.lean ====
section
/-! SUPPORT. What fetch, a cycle and a tick can do, said once. -/

namespace Sys2Proof.Machine

/-- Fetching one argument byte answers the byte an address of at most 255 holds (20_memory.md R51). -/
theorem State.fetchArg_ok {s : State} {pc : Nat} {b : Byte} : s.fetchArg pc = .ok b ↔ pc ≤ 255 ∧ s.Holds pc b := by
  unfold State.fetchArg
  split
  · next h =>
    rw [← State.memRead_ok]
    cases s.memRead pc with
    | error e => simp
    | ok v => simp; omega
  · next h => simp; omega

/-- Fetching one argument byte fails only as `ArgSegFault`: past 255, or at an address that names no byte. -/
theorem State.fetchArg_error {s : State} {pc : Nat} {c : FaultCause} :
    s.fetchArg pc = .error c ↔ c = .argSegFault ∧ (256 ≤ pc ∨ s.NamesNone pc) := by
  unfold State.fetchArg
  split
  · next h =>
    rcases s.access_cases pc with ⟨a, ha, hr, _⟩ | ⟨hn, hr, _⟩
    · simp only [hr, reduceCtorEq, false_iff]
      rintro ⟨_, h' | h'⟩
      · omega
      · exact h' a ha
    · simp [hr, hn, eq_comm]
  · next h => simp [eq_comm]; omega

/-- What fetching argument bytes can do: answer the bytes that stand at the following argument addresses, or
`ArgSegFault` (40_cycle.md R70). -/
theorem State.fetchArgs_ok {s : State} {n pc last : Nat} {args : List Byte} (h : s.fetchArgs n pc = .ok (args, last)) :
    args.length = n ∧ last = argAddress s.cfg pc n ∧
      ∀ j b, args[j]? = some b →
        argAddress s.cfg pc (j + 1) ≤ 255 ∧ s.Holds (argAddress s.cfg pc (j + 1)) b := by
  have shift : ∀ m, argAddress s.cfg (incArg s.cfg pc) m = argAddress s.cfg pc (m + 1) := by
    intro m
    induction m with
    | zero => rfl
    | succ m ih => simp only [argAddress] at ih ⊢; rw [ih]
  induction n generalizing pc args with
  | zero => cases h; simp [argAddress]
  | succ n ih =>
    rw [State.fetchArgs] at h
    split at h
    · cases h
    · next b hb =>
      split at h
      · cases h
      · next bs last' hrec =>
        cases h
        have shift' : ∀ m, argAddress s.cfg (incArg s.cfg (incArg s.cfg pc)) m =
            argAddress s.cfg (incArg s.cfg pc) (m + 1) := by
          intro m
          induction m with
          | zero => rfl
          | succ m ih => simp only [argAddress] at ih ⊢; rw [ih]
        obtain ⟨h1, h2, h3⟩ := ih hrec shift'
        refine ⟨by simp [h1], by rw [h2, shift], fun j c hj => ?_⟩
        cases j with
        | zero => cases hj; exact State.fetchArg_ok.1 hb
        | succ j => rw [← shift]; exact h3 j c (by simpa using hj)

/-- Fetching argument bytes fails only as `ArgSegFault`. -/
theorem State.fetchArgs_error {s : State} {n pc : Nat} {c : FaultCause} (h : s.fetchArgs n pc = .error c) :
    c = .argSegFault := by
  induction n generalizing pc with
  | zero => cases h
  | succ n ih =>
    rw [State.fetchArgs] at h
    split at h
    · next e he => cases h; exact (State.fetchArg_error.1 he).1
    · split at h
      · next e he => cases h; exact ih he
      · cases h

/-- What fetch can do, said once (R68 to R70): one of its three causes, or an instruction and the state at execute
time. -/
theorem State.fetch_cases (s : State) :
    (s.fetch = .error .fetchSegFault ∧ s.NamesNone s.cpu.pc.toNat) ∨
    (∃ op, s.Holds s.cpu.pc.toNat op ∧ decodeOpcode op = none ∧ s.fetch = .error .illegalOpcode) ∨
    (∃ op o, s.Holds s.cpu.pc.toNat op ∧ decodeOpcode op = some o ∧
      ((s.fetchArgs o.argCount s.cpu.pc.toNat = .error .argSegFault ∧ s.fetch = .error .argSegFault) ∨
       ∃ args last, s.fetchArgs o.argCount s.cpu.pc.toNat = .ok (args, last) ∧
         s.fetch = .ok (o.instrOfArgs args, s.atExecute op last))) := by
  unfold State.fetch
  cases hr : s.memRead s.cpu.pc.toNat with
  | error e => exact .inl ⟨rfl, (State.memRead_error.1 hr).2⟩
  | ok op =>
    have hop := State.memRead_ok.1 hr
    cases hd : decodeOpcode op with
    | none => exact .inr (.inl ⟨op, hop, hd, by simp [hd]⟩)
    | some o =>
      refine .inr (.inr ⟨op, o, hop, hd, ?_⟩)
      cases ha : s.fetchArgs o.argCount s.cpu.pc.toNat with
      | error c =>
        have := State.fetchArgs_error ha
        subst this
        exact .inl ⟨rfl, by simp [hd, ha]⟩
      | ok r => exact .inr ⟨r.1, r.2, rfl, by simp [hd, ha]⟩

/-- What a cycle can do, said once (R79): take the fault path of a fetch cause, or execute the instruction fetched. -/
theorem cycle_cases (s : State) :
    (∃ c, s.restoreIfFresh.fetch = .error c ∧ cycle s = .next (s.restoreIfFresh.takeFault c)) ∨
    (∃ i op last, s.restoreIfFresh.fetch = .ok (i, s.restoreIfFresh.atExecute op last) ∧
      cycle s = exec i (s.restoreIfFresh.atExecute op last)) := by
  unfold cycle
  rcases s.restoreIfFresh.fetch_cases with ⟨h, _⟩ | ⟨op, _, _, h⟩ | ⟨op, o, _, _, ⟨_, h⟩ | ⟨args, last, _, h⟩⟩
  · exact .inl ⟨_, h, by rw [h]⟩
  · exact .inl ⟨_, h, by rw [h]⟩
  · exact .inl ⟨_, h, by rw [h]⟩
  · exact .inr ⟨_, _, _, h, by rw [h]⟩

/-- What follows a cycle changes only the statistics and the quantum state, and appends at most the switch request
(60_exceptions.md R147). -/
theorem State.afterCycle_cases (s : State) (pid : Nat) :
    (s.cycleResult = some .ok ∧ s.afterCycle pid = s.updateStats.policyAfterInstruction pid) ∨
      (s.cycleResult ≠ some .ok ∧ s.afterCycle pid = s.updateStats) := by
  unfold State.afterCycle
  split
  · next h => exact .inl ⟨h, rfl⟩
  · next h => exact .inr ⟨h, rfl⟩

/-- The four kinds of tick (R146, R147): halted, interrupt, idle, instruction. -/
theorem tickStep_cases (s : State) :
    (s.halted = true ∧ tickStep s = .next s) ∨
    (∃ r rest, s.halted = false ∧ s.intq = r :: rest ∧ tickStep s = .next (State.handle { s with intq := rest } r)) ∨
    (s.halted = false ∧ s.intq = [] ∧ s.nextProcess.executing = none ∧ tickStep s = .next s.nextProcess) ∨
    (∃ p, s.halted = false ∧ s.intq = [] ∧ s.nextProcess.executing = some p ∧
      tickStep s = instructionTick s.nextProcess p.pid) := by
  unfold tickStep
  cases hh : s.halted with
  | true => exact .inl ⟨rfl, rfl⟩
  | false =>
    refine .inr ?_
    cases hq : s.intq with
    | cons r rest => exact .inl ⟨r, rest, rfl, rfl, by simp⟩
    | nil =>
      refine .inr ?_
      cases he : s.nextProcess.executing with
      | none => exact .inl ⟨rfl, rfl, rfl, by simp⟩
      | some p => exact .inr ⟨p, rfl, rfl, rfl, by simp⟩

end Sys2Proof.Machine
end

