-- ==== Sys2Proof/Laws/PerInstr.lean ====
section
/-! SUPPORT. The statement made for every instruction, one lemma per constructor. -/

namespace Sys2Proof.Laws.EncodedShape

/-- The encoding of an instruction starts with the opcode byte of its row, which the opcode map finds, is as long as
the row's format says (30_encoding.md R55, R56, R60), and the instruction is well formed. -/
def Statement (i : Instr) : Prop :=
  i.wellFormed = true ∧ (encode i).head? = some i.opcode.code ∧ decodeOpcode i.opcode.code = some i.opcode ∧
    (encode i).length = i.length ∧ i.length ≤ maxInstrBytes ∧ i.opcode.instrOfArgs i.argBytes = i

/-- The two address bytes put together are the address. -/
theorem absAddress_lo_hi (a : Addr) : absAddress (addressLo a) (addressHi a) = a := by
  have h : absAddress (addressLo a) (addressHi a) = a.extractLsb' 8 8 ++ a.extractLsb' 0 8 := rfl
  rw [h, BitVec.extractLsb'_append_extractLsb'_eq_extractLsb' (by decide), BitVec.extractLsb'_eq_self]

/-- The opcode map finds every row by its own opcode byte: no two rows share one (R60, R61). -/
theorem decodeOpcode_code (o : Opcode) : decodeOpcode o.code = some o := by cases o <;> decide

/-- No instruction is longer than three bytes (R55). -/
theorem length_le (i : Instr) : i.length ≤ maxInstrBytes := by
  cases i <;> simp [Instr.length, Instr.opcode, Opcode.argCount, Opcode.format, Format.argCount, maxInstrBytes]

theorem brk : Statement .brk := ⟨rfl, rfl, decodeOpcode_code _, rfl, length_le _, rfl⟩

theorem adc (addr : Addr) : Statement (.adc addr) :=
  ⟨rfl, rfl, decodeOpcode_code _, rfl, length_le _, congrArg Instr.adc (absAddress_lo_hi addr)⟩

theorem sta (addr : Addr) : Statement (.sta addr) :=
  ⟨rfl, rfl, decodeOpcode_code _, rfl, length_le _, congrArg Instr.sta (absAddress_lo_hi addr)⟩

theorem ldyImm (imm : Byte) : Statement (.ldyImm imm) := ⟨rfl, rfl, decodeOpcode_code _, rfl, length_le _, rfl⟩

theorem ldxImm (imm : Byte) : Statement (.ldxImm imm) := ⟨rfl, rfl, decodeOpcode_code _, rfl, length_le _, rfl⟩

theorem ldaImm (imm : Byte) : Statement (.ldaImm imm) := ⟨rfl, rfl, decodeOpcode_code _, rfl, length_le _, rfl⟩

theorem ldyAbs (addr : Addr) : Statement (.ldyAbs addr) :=
  ⟨rfl, rfl, decodeOpcode_code _, rfl, length_le _, congrArg Instr.ldyAbs (absAddress_lo_hi addr)⟩

theorem ldaAbs (addr : Addr) : Statement (.ldaAbs addr) :=
  ⟨rfl, rfl, decodeOpcode_code _, rfl, length_le _, congrArg Instr.ldaAbs (absAddress_lo_hi addr)⟩

theorem ldxAbs (addr : Addr) : Statement (.ldxAbs addr) :=
  ⟨rfl, rfl, decodeOpcode_code _, rfl, length_le _, congrArg Instr.ldxAbs (absAddress_lo_hi addr)⟩

theorem bne (rel : Byte) : Statement (.bne rel) := ⟨rfl, rfl, decodeOpcode_code _, rfl, length_le _, rfl⟩

theorem nop : Statement .nop := ⟨rfl, rfl, decodeOpcode_code _, rfl, length_le _, rfl⟩

theorem cpx (addr : Addr) : Statement (.cpx addr) :=
  ⟨rfl, rfl, decodeOpcode_code _, rfl, length_le _, congrArg Instr.cpx (absAddress_lo_hi addr)⟩

theorem inc (addr : Addr) : Statement (.inc addr) :=
  ⟨rfl, rfl, decodeOpcode_code _, rfl, length_le _, congrArg Instr.inc (absAddress_lo_hi addr)⟩

theorem sys : Statement .sys := ⟨rfl, rfl, decodeOpcode_code _, rfl, length_le _, rfl⟩

end Sys2Proof.Laws.EncodedShape
end

