-- ==== Sys2Proof/Tests/Slice0.lean ====
section
/-! SUPPORT. Tests: the refusal of ill-formed terms, one word of every row written out from its encoding, the
instruction vectors of 95_test_vectors.md one step each, and a witness for the hypotheses of every statement. -/

set_option Elab.async false

namespace Sys2Proof.Tests

open Sys2Proof.Machine

/-! ## Helpers -/

/-- The next state, if the outcome is one. -/
def nextState : Host.Outcome State Fault Refusal → Option State
  | .next t => some t
  | _ => none

/-- One step, observed. -/
def stepSees {α : Type} (s : State) (f : State → α) : Option α := (nextState (step s)).map f

/-- What `nextState` finds is the next state. -/
theorem next_of {o : Host.Outcome State Fault Refusal} (h : (nextState o).isSome = true) : ∃ t, o = .next t := by
  cases o with
  | next t => exact ⟨t, rfl⟩
  | fault f => cases h
  | refused r => cases h

/-- A next state that passes a check. -/
theorem next_with {o : Host.Outcome State Fault Refusal} {c : State → Bool} (h : ((nextState o).map c) = some true) :
    ∃ t, o = .next t ∧ c t = true := by
  cases o with
  | next t => exact ⟨t, rfl, by simpa [nextState] using h⟩
  | fault f => cases h
  | refused r => cases h

/-- A result that is no error is some value. -/
theorem ok_of {ε α : Type} {e : Except ε α} (h : e.toOption.isSome = true) : ∃ a, e = .ok a := by
  cases e with
  | ok a => exact ⟨a, rfl⟩
  | error x => cases h

/-- A running process of pid 0 in segment 0. -/
def pid0 : Pcb :=
  { newPcb 0 with occupiedSegment := some 0, location := .memory, status := .running, fresh := false }

/-- A process of another pid in another segment, ready to run. -/
def waiting (pid seg : Nat) : Pcb :=
  { newPcb pid with occupiedSegment := some seg, location := .memory, status := .ready }

/-- The registers of a running process. -/
def regs (pc acc x y : Byte) (z : Bool) : Cpu :=
  { pc := pc, acc := acc, x := x, y := y, z := z, ir := 0x00#8, isExecuting := true }

/-- The default machine with pid 0 running in segment 0 with the given registers and bytes. -/
def machine (cpu : Cpu) (mem : Memory) : State :=
  { State.reset with
    cpu := cpu
    mem := mem
    occ := [true, false, false]
    reg := [0]
    executing := some pid0
    nextPid := 1 }

/-- All registers zero, running. -/
def zeros : Cpu := regs 0x00#8 0x00#8 0x00#8 0x00#8 false

/-! ## Well-formedness: each check refuses an ill-formed term -/

/-- 95_test_vectors.md FC10: `10 mod 3 != 0`. -/
theorem test_refused_memSize_not_multiple : Config.segmentsOk { Config.default with memSize := 10 } = false := by decide
theorem test_refused_no_memory : Config.segmentsOk { Config.default with memSize := 0 } = false := by decide
theorem test_refused_no_segments : Config.segmentsOk { Config.default with numSegments := 0 } = false := by decide
theorem test_refused_quantum_zero : Config.quantumOk { Config.default with quantum := 0 } = false := by decide
theorem test_refused_one_track : Config.diskOk { Config.default with numTracks := 1 } = false := by decide
theorem test_refused_eleven_tracks : Config.diskOk { Config.default with numTracks := 11 } = false := by decide
theorem test_refused_eleven_sectors : Config.diskOk { Config.default with numSectors := 11 } = false := by decide
theorem test_refused_no_block : Config.diskOk { Config.default with numBlocks := 0 } = false := by decide
theorem test_refused_no_directory_block :
    Config.diskOk { Config.default with numSectors := 1, numBlocks := 1 } = false := by decide
theorem test_construct_refuses_FC10 :
    (State.construct { Config.default with memSize := 10 }).toOption = none := by decide
/-- FS4: the empty name, a name of 61 bytes, a name with a 0x00 byte. -/
theorem test_refused_file_names : validFileName [] = false ∧ validFileName (List.replicate 61 0x41#8) = false ∧
    validFileName [0x41#8, 0x00#8] = false ∧ validFileName (List.replicate 60 0x41#8) = true := by decide
/-- An opcode byte outside the map, and a missing argument byte, are no instruction (R62). -/
theorem test_decode_refuses : decode [0x4C#8, 0x00#8, 0x00#8] = .error (.illegalOpcode 0x4C#8) ∧
    decode [0x6D#8, 0x10#8] = .error (.truncated 0x6D#8) ∧ decode [] = .error .empty := ⟨rfl, rfl, rfl⟩
/-- No check refuses an instruction: every operand value is legal (R61). -/
theorem test_wellFormed_extremes : Instr.wellFormed (.sta 0xFFFF#16) = true ∧
    Instr.wellFormed (.bne 0xFF#8) = true := by decide

/-! ## Decoding: the words of 30_encoding.md R56 and R60, each bit written out -/

theorem test_decode_brk : decode [0b00000000#8] = .ok (.brk, []) := rfl
theorem test_decode_adc : decode [0b01101101#8, 0b00010000#8, 0b00000001#8] = .ok (.adc 0x0110#16, []) := rfl
theorem test_decode_sta : decode [0b10001101#8, 0b00110100#8, 0b00010010#8] = .ok (.sta 0x1234#16, []) := rfl
theorem test_decode_ldyImm : decode [0b10100000#8, 0b10000000#8] = .ok (.ldyImm 0x80#8, []) := rfl
theorem test_decode_ldxImm : decode [0b10100010#8, 0b00000001#8] = .ok (.ldxImm 0x01#8, []) := rfl
theorem test_decode_ldaImm : decode [0b10101001#8, 0b01111111#8] = .ok (.ldaImm 0x7F#8, []) := rfl
theorem test_decode_ldyAbs : decode [0b10101100#8, 0b00001011#8, 0b00000000#8] = .ok (.ldyAbs 0x000B#16, []) := rfl
theorem test_decode_ldaAbs : decode [0b10101101#8, 0b00000000#8, 0b00000001#8] = .ok (.ldaAbs 0x0100#16, []) := rfl
theorem test_decode_ldxAbs : decode [0b10101110#8, 0b00000101#8, 0b10000000#8] = .ok (.ldxAbs 0x8005#16, []) := rfl
theorem test_decode_bne : decode [0b11010000#8, 0b11110101#8] = .ok (.bne 0xF5#8, []) := rfl
theorem test_decode_nop : decode [0b11101010#8] = .ok (.nop, []) := rfl
theorem test_decode_cpx : decode [0b11101100#8, 0b00000001#8, 0b00000000#8] = .ok (.cpx 0x0001#16, []) := rfl
theorem test_decode_inc : decode [0b11101110#8, 0b00001011#8, 0b00000000#8] = .ok (.inc 0x000B#16, []) := rfl
theorem test_decode_sys : decode [0b11111111#8] = .ok (.sys, []) := rfl
/-- The table's numbering: bits 7..0 the opcode byte, bits 15..8 the low address byte, bits 23..16 the high one. -/
theorem test_tableWord : decodeTableWord 24 0x12348D = some (.sta 0x1234#16) ∧
    decodeTableWord 16 0xF5D0 = some (.bne 0xF5#8) ∧ decodeTableWord 8 0xFF = some .sys ∧
    decodeTableWord 8 0x6D = some (.adc 0x0000#16) ∧
    decodeTableWord 8 0x4C = none := by decide

/-! ## One step of every instruction: the vectors of 95_test_vectors.md section 2 -/

/-- LS1. -/
theorem test_ldaImm : stepSees (machine (regs 0 0 0 0 true) [(0, 0xA9), (1, 0x7F)])
    (fun t => (t.cpu.acc, t.cpu.pc, t.cpu.z)) = some (0x7F, 0x02, true) := by decide +kernel
/-- LS4. -/
theorem test_ldaAbs : stepSees (machine zeros [(0, 0xAD), (1, 0xFF), (0xFF, 0x11)])
    (fun t => (t.cpu.acc, t.cpu.pc)) = some (0x11, 0x03) := by decide +kernel
/-- LS5. -/
theorem test_ldaAbs_beyond : stepSees (machine zeros [(0, 0xAD), (2, 0x01)])
    (fun t => (t.cycleResult, t.intq)) = some (some (.fault .operandSegFault), [.errProgram 0]) := by decide +kernel
/-- LS7. -/
theorem test_sta : stepSees (machine (regs 0 0x42 0 0 false) [(0, 0x8D), (1, 0x20)])
    (fun t => (t.mem, t.cpu.pc)) = some ([(0, 0x8D), (1, 0x20), (0x20, 0x42)], 0x03) := by decide +kernel
/-- LS9. -/
theorem test_sta_beyond : stepSees (machine (regs 0 0x99 0 0 false) [(0, 0x8D), (1, 0x34), (2, 0x12)])
    (fun t => (t.mem, t.cycleResult)) =
      some ([(0, 0x8D), (1, 0x34), (2, 0x12)], some (.fault .operandSegFault)) := by decide +kernel
/-- LS10. -/
theorem test_ldxImm : stepSees (machine zeros [(0, 0xA2), (1, 0xFF)])
    (fun t => (t.cpu.x, t.cpu.pc)) = some (0xFF, 0x02) := by decide +kernel
/-- LS11. -/
theorem test_ldxAbs : stepSees (machine zeros [(0, 0xAE), (1, 0x05), (5, 0x03)])
    (fun t => (t.cpu.x, t.cpu.pc)) = some (0x03, 0x03) := by decide +kernel
/-- LS12. -/
theorem test_ldyImm : stepSees (machine zeros [(0, 0xA0), (1, 0x80)])
    (fun t => (t.cpu.y, t.cpu.x)) = some (0x80, 0x00) := by decide +kernel
/-- LS13. -/
theorem test_ldyAbs : stepSees (machine zeros [(0, 0xAC), (1, 0x06), (6, 0x0C)])
    (fun t => (t.cpu.y, t.cpu.x)) = some (0x0C, 0x00) := by decide +kernel
/-- AR1. -/
theorem test_adc : stepSees (machine (regs 0 0x10 0 0 true) [(0, 0x6D), (1, 0x30), (0x30, 0x22)])
    (fun t => (t.cpu.acc, t.cpu.z)) = some (0x32, true) := by decide +kernel
/-- AR2. -/
theorem test_adc_wraps : stepSees (machine (regs 0 0xFF 0 0 false) [(0, 0x6D), (1, 0x30), (0x30, 0x01)])
    (fun t => (t.cpu.acc, t.cpu.z)) = some (0x00, false) := by decide +kernel
/-- IN1. -/
theorem test_inc : stepSees (machine zeros [(0, 0xEE), (1, 0x40), (0x40, 0x41)])
    (fun t => (Memory.read t.mem 0x40, t.cpu.acc)) = some (0x42, 0x00) := by decide +kernel
/-- IN2: the byte becomes what an unlisted one reads as, and its entry goes. -/
theorem test_inc_wraps : stepSees (machine zeros [(0, 0xEE), (1, 0x40), (0x40, 0xFF)])
    (fun t => t.mem) = some [(0, 0xEE), (1, 0x40)] := by decide +kernel
/-- CP1. -/
theorem test_cpx_equal : stepSees (machine (regs 0 0 0x05 0 false) [(0, 0xEC), (1, 0x50), (0x50, 0x05)])
    (fun t => (t.cpu.z, t.cpu.pc)) = some (true, 0x03) := by decide +kernel
/-- CP5. -/
theorem test_cpx_less : stepSees (machine (regs 0 0 0x05 0 true) [(0, 0xEC), (1, 0x50), (0x50, 0x04)])
    (fun t => t.cpu.z) = some false := by decide +kernel
/-- BR8. -/
theorem test_bne_taken : stepSees (machine (regs 0x05 0 0 0 false) [(5, 0xD0), (6, 0xF9)])
    (fun t => t.cpu.pc) = some 0x00 := by decide +kernel
/-- BR2. -/
theorem test_bne_not_taken : stepSees (machine (regs 0x10 0 0 0 true) [(0x10, 0xD0), (0x11, 0x05)])
    (fun t => t.cpu.pc) = some 0x12 := by decide +kernel
/-- BR9: the offset byte of a BNE at 0xFF is at logical 0. -/
theorem test_bne_wraps : stepSees (machine (regs 0xFF 0 0 0 false) [(0, 0x03), (0xFF, 0xD0)])
    (fun t => t.cpu.pc) = some 0x04 := by decide +kernel
/-- BR10: without the wrap it is beyond the segment. -/
theorem test_bne_no_wrap :
    stepSees { machine (regs 0xFF 0 0 0 false) [(0, 0x03), (0xFF, 0xD0)] with
      cfg := { Config.default with argFetchWrap := false } }
    (fun t => t.cycleResult) = some (some (.fault .argSegFault)) := by decide +kernel
/-- 93_implementation_defined.md I10: nor past 0xFF in a segment of 512 bytes. -/
theorem test_lda_no_wrap_large_segment :
    let c : Config := { Config.default with memSize := 1536, argFetchWrap := false }
    stepSees { machine (regs 0xFF 0 0 0 false) [(0, 0x03), (0xFF, 0xA9), (0x100, 0x05)] with
      cfg := c
      seg := segmentTable c }
    (fun t => t.cycleResult) = some (some (.fault .argSegFault)) := by decide +kernel
/-- NP1. -/
theorem test_nop : stepSees (machine (regs 0x04 0 0 0 false) [(4, 0xEA)])
    (fun t => (t.cpu.pc, t.cpu.ir)) = some (0x05, 0xEA) := by decide +kernel
/-- BK1. -/
theorem test_brk : stepSees (machine (regs 0x07 0x03 0 0 false) [])
    (fun t => (t.cpu, t.intq, t.executing.map (·.programCounter), t.cycleResult)) =
      some (zeroCpu, [.breakProgram 0], some 0x00, some .brk) := by decide +kernel
/-- SY2: "255". -/
theorem test_sys_decimal : stepSees (machine (regs 0 0 0x01 0xFF false) [(0, 0xFF)])
    (fun t => t.console) = some [.putText [0x32, 0x35, 0x35]] := by decide +kernel
/-- SY4: "HELLO". -/
theorem test_sys_string :
    stepSees (machine (regs 0 0 0x02 0x10 false)
      [(0, 0xFF), (0x10, 0x48), (0x11, 0x45), (0x12, 0x4C), (0x13, 0x4C), (0x14, 0x4F)])
    (fun t => t.console) = some [.putText [0x48, 0x45, 0x4C, 0x4C, 0x4F]] := by decide +kernel
/-- FC2: nothing is fetched after an illegal opcode and `IR` is not written. -/
theorem test_illegal : stepSees (machine zeros [(0, 0x02)])
    (fun t => (t.cycleResult, t.cpu.ir, t.intq)) = some (some (.fault .illegalOpcode), 0x00, [.errProgram 0]) := by
  decide +kernel
/-- FC9: the restore precedes the fetch. -/
theorem test_restore :
    stepSees { machine (regs 0x20 0x55 0 0 true) [(3, 0xEA)] with
      executing := some { pid0 with programCounter := 0x03, accumulator := 0x07, fresh := true } }
    (fun t => (t.cpu.pc, t.cpu.acc, t.cpu.z, t.executing.map (·.fresh))) =
      some (0x04, 0x07, false, some false) := by decide +kernel

/-! ## The rest of the machine -/

/-- S1. -/
theorem test_parse : parseProgram ['a', '9', ' ', ' ', '0', '1', '\n', '0', '0'] = .ok [0xA9, 0x01, 0x00] ∧
    parseProgram ['A', '9', ' ', '0', 'G'] = .error (.malformedToken ['0', 'G']) := ⟨rfl, rfl⟩

/-- FS13: the stored form of a fresh block. -/
theorem test_fresh_block :
    (freshBlock ⟨2, 3, 4⟩).encode = [0x00, 0x02, 0x03, 0x04] ++ List.replicate 60 0x00 := by decide

/-- A formatted disk that holds nothing. -/
def emptyDisk : Disk := { blocks := [], formatted := true, swaps := [] }

/-- The smallest useful machine: three segments of four bytes, a disk of three directory and four content blocks. -/
def tiny : Config := { Config.default with memSize := 12, numTracks := 2, numSectors := 2, numBlocks := 2 }

/-- The disk of S3 after its append. -/
def diskS3 : Option Disk :=
  ((emptyDisk.createFile tiny [0x78]).bind fun d => d.appendToFile tiny [0x78] [0x68, 0x65, 0x6C, 0x6C, 0x6F]).toOption

/-- S3, FS11, FS12. -/
theorem test_disk_S3 : diskS3.map (fun d => (d.stored ⟨1, 0, 0⟩, d.stored ⟨0, 0, 1⟩)) =
    some ([0x01, 0x01, 0x00, 0x00, 0x68, 0x65, 0x6C, 0x6C, 0x6F] ++ List.replicate 55 0x00,
      [0x01, 0x01, 0x00, 0x00, 0x78] ++ List.replicate 59 0x00) := by decide +kernel

/-- IT2: a record of an unrecognized kind halts the machine. -/
theorem test_fatal_trap : stepSees { State.reset with intq := [.unrecognized 99, .timer] }
    (fun t => (t.halted, t.intq)) = some (true, [.timer]) := by decide +kernel

/-- The host's probe: an instruction put where the next step fetches runs as the first one after reset. -/
theorem test_fetchWord : stepSees (State.reset.withFetchWord 16 0x7FA9)
    (fun t => (t.cpu.acc, t.cpu.pc, t.cycleResult)) = some (0x7F, 0x02, some .ok) := by decide +kernel

/-! ## Witnesses: a concrete state and operands that meet the hypotheses of each statement

A clause over a range has its boundary values: 0xFF is the last address of the 256-byte segment, 0x0100 the first
beyond it. -/

/-- A segment of the tests' machine has 256 bytes. -/
theorem segSize_default : Config.default.segSize = 256 := by decide

/-- The machine of the tests runs pid 0 in segment 0. -/
theorem runsIn_machine (cpu : Cpu) (mem : Memory) : (machine cpu mem).RunsIn pid0 0 :=
  ⟨(by decide : Config.default.legal = true), rfl, rfl, rfl, (by decide : 0 < Config.default.numSegments)⟩

/-- Every byte the machine of the tests names holds what its byte store reads. -/
theorem holds_machine (cpu : Cpu) (mem : Memory) {k : Nat} (hk : k < 256) :
    (machine cpu mem).Holds k (Memory.read mem k) := by
  have hk : k < (machine cpu mem).cfg.segSize := Nat.lt_of_lt_of_eq hk segSize_default.symm
  refine ⟨_, State.runsIn_names (runsIn_machine cpu mem) hk, ?_⟩
  rw [Nat.zero_mul, Nat.zero_add]
  rfl

theorem test_witness_DecodeEncodeAgree : Instr.wellFormed (.inc 0x000B#16) = true ∧
    decode [0xEE#8, 0x0B#8, 0x00#8, 0xEA#8] = .ok (.inc 0x000B#16, [0xEA#8]) := ⟨rfl, rfl⟩

theorem test_witness_IllegalOpcodesRejected : (machine zeros [(0, 0x02)]).Holds (machine zeros [(0, 0x02)]).cpu.pc.toNat 0x02 ∧
    decodeOpcode 0x02 = none := ⟨holds_machine zeros [(0, 0x02)] (k := 0) (by decide), by decide⟩

/-- LoadAbsoluteResult: an address inside, the last one, and the first outside. -/
theorem test_witness_LoadAbsoluteResult : (machine zeros []).RunsIn pid0 0 ∧
    (0x00#8).toNat * 256 + (0xFF#8).toNat < (machine zeros []).cfg.segSize ∧
    (machine zeros []).cfg.segSize ≤ (0x01#8).toNat * 256 + (0x00#8).toNat :=
  ⟨runsIn_machine _ _, by decide, by decide⟩

theorem test_witness_StoreResult : (machine zeros [(1, 0x20)]).RunsIn pid0 0 ∧
    Memory.wf (machine zeros [(1, 0x20)]).mem = true ∧
    (0x00#8).toNat * 256 + (0xFF#8).toNat < (machine zeros [(1, 0x20)]).cfg.segSize ∧
    (machine zeros [(1, 0x20)]).cfg.segSize ≤ (0x01#8).toNat * 256 + (0x00#8).toNat :=
  ⟨runsIn_machine _ _, by decide, by decide, by decide⟩

theorem test_witness_AddResult : (machine (regs 0 0xFF 0 0 false) [(0xFF, 0x01)]).RunsIn pid0 0 ∧
    (0x00#8).toNat * 256 + (0xFF#8).toNat < Config.default.segSize ∧
    Config.default.segSize ≤ (0x01#8).toNat * 256 + (0x00#8).toNat :=
  ⟨runsIn_machine _ _, by decide, by decide⟩

theorem test_witness_IncrementResult : (machine zeros [(0xFF, 0xFF)]).RunsIn pid0 0 ∧
    Memory.wf (machine zeros [(0xFF, 0xFF)]).mem = true ∧
    (0x00#8).toNat * 256 + (0xFF#8).toNat < Config.default.segSize ∧
    Config.default.segSize ≤ (0x01#8).toNat * 256 + (0x00#8).toNat :=
  ⟨runsIn_machine _ _, by decide, by decide, by decide⟩

theorem test_witness_CompareResult : (machine (regs 0 0 0x05 0 true) [(0xFF, 0x05)]).RunsIn pid0 0 ∧
    (0x00#8).toNat * 256 + (0xFF#8).toNat < Config.default.segSize ∧
    Config.default.segSize ≤ (0x01#8).toNat * 256 + (0x00#8).toNat :=
  ⟨runsIn_machine _ _, by decide, by decide⟩

/-- BranchResult: a BNE whose opcode is at 0xFF, taken and not taken. -/
theorem test_witness_BranchResult : (machine (regs 0x00 0 0 0 false) []).cpu.pc = 0xFF#8 + 1#8 ∧
    (machine (regs 0x00 0 0 0 false) []).cpu.z = false ∧ (machine (regs 0x00 0 0 0 true) []).cpu.pc = 0xFF#8 + 1#8 ∧
    (machine (regs 0x00 0 0 0 true) []).cpu.z = true := by decide

theorem test_witness_BreakResult : (machine zeros []).executing = some pid0 := rfl

/-- SysResult, service 1. -/
theorem test_witness_SysResult_decimal : (machine (regs 0 0 0x01 0xFF false) []).RunsIn pid0 0 ∧
    (machine (regs 0 0 0x01 0xFF false) []).cpu.x = 1#8 := ⟨runsIn_machine _ _, rfl⟩

/-- SysResult, service 2 (SY10): the empty string whose 0x00 byte is at 0xFE, and "A" before the 0x00 byte at 0xFF. -/
theorem test_witness_SysResult_string : (machine (regs 0 0 0x02 0xFE false) [(0xFE, 0x41)]).RunsIn pid0 0 ∧
    (machine (regs 0 0 0x02 0xFE false) [(0xFE, 0x41)]).cpu.x = 2#8 ∧
    (machine (regs 0 0 0x02 0xFE false) [(0xFE, 0x41)]).cpu.y.toNat + [(0x41#8 : Byte)].length < Config.default.segSize ∧
    (∀ (j : Nat) (b : Byte), [(0x41#8 : Byte)][j]? = some b →
      b ≠ 0#8 ∧ (machine (regs 0 0 0x02 0xFE false) [(0xFE, 0x41)]).segByte 0 (0xFE + j) = b) ∧
    (machine (regs 0 0 0x02 0xFE false) [(0xFE, 0x41)]).segByte 0 (0xFE + 1) = 0#8 := by
  refine ⟨runsIn_machine _ _, rfl, by decide, ?_, by decide⟩
  intro j b h
  cases j with
  | zero => cases h; decide
  | succ j => simp at h

/-- SysResult, service 2 (SY8): no 0x00 byte up to the segment's end. -/
theorem test_witness_SysResult_unterminated :
    (machine (regs 0 0 0x02 0xFE false) [(0xFE, 0x41), (0xFF, 0x42)]).RunsIn pid0 0 ∧
    (machine (regs 0 0 0x02 0xFE false) [(0xFE, 0x41), (0xFF, 0x42)]).cpu.x = 2#8 ∧
    ∀ k, (0xFE#8).toNat ≤ k → k < Config.default.segSize →
      (machine (regs 0 0 0x02 0xFE false) [(0xFE, 0x41), (0xFF, 0x42)]).segByte 0 k ≠ 0#8 := by
  refine ⟨runsIn_machine _ _, rfl, ?_⟩
  intro k h1 h2
  have h1 : 254 ≤ k := h1
  have h2 : k < 256 := h2
  obtain rfl | rfl : k = 254 ∨ k = 255 := by omega
  · decide
  · decide

/-- SysResult, an invalid selector (SY6, SY7). -/
theorem test_witness_SysResult_invalid : (machine zeros []).RunsIn pid0 0 ∧ (machine zeros []).cpu.x ≠ 1#8 ∧
    (machine zeros []).cpu.x ≠ 2#8 ∧ (machine (regs 0 0 0x03 0 false) []).cpu.x ≠ 2#8 :=
  ⟨runsIn_machine _ _, by decide, by decide, by decide⟩

theorem test_witness_StepRunsDecodedInstruction : (machine zeros [(0, 0xA9), (1, 0x7F)]).halted = false ∧
    (machine zeros [(0, 0xA9), (1, 0x7F)]).intq = [] ∧ (machine zeros [(0, 0xA9), (1, 0x7F)]).executing = some pid0 ∧
    pid0.fresh = false ∧ (machine zeros [(0, 0xA9), (1, 0x7F)]).FetchesBytes [0xA9, 0x7F] ∧
    decode [0xA9, 0x7F] = .ok (.ldaImm 0x7F, []) ∧
    ∃ t, exec (.ldaImm 0x7F) { machine zeros [(0, 0xA9), (1, 0x7F)] with cpu := { zeros with
      ir := (Instr.ldaImm 0x7F).opcode.code
      pc := BitVec.ofNat 8 (argAddress Config.default 0 ((Instr.ldaImm 0x7F).length - 1)) } } = .next t := by
  refine ⟨rfl, rfl, rfl, rfl, ?_, rfl, next_of (by decide +kernel)⟩
  intro j b h
  match j, h with
  | 0, h => cases h; exact ⟨by decide, holds_machine zeros [(0, 0xA9), (1, 0x7F)] (k := 0) (by decide)⟩
  | 1, h => cases h; exact ⟨by decide, holds_machine zeros [(0, 0xA9), (1, 0x7F)] (k := 1) (by decide)⟩
  | j + 2, h => simp at h

theorem test_witness_FreshProcessIsRestored :
    let p : Pcb := { pid0 with programCounter := 0x03, fresh := true }
    let s : State := { machine zeros [] with executing := some p }
    s.halted = false ∧ s.intq = [] ∧ s.executing = some p ∧ p.fresh = true := ⟨rfl, rfl, rfl, rfl⟩

/-- FetchFaultsInOrder: FC1, a segment of 100 bytes with `PC` at 100, the first address beyond it. -/
theorem test_witness_FetchFaultsInOrder_opcode :
    let s : State := { machine (regs 100 0 0 0 false) [] with
      cfg := { Config.default with memSize := 300 }
      seg := segmentTable { Config.default with memSize := 300 } }
    s.halted = false ∧ s.intq = [] ∧ s.executing = some pid0 ∧ pid0.fresh = false ∧ s.NamesNone s.cpu.pc.toNat := by
  refine ⟨rfl, rfl, rfl, rfl, ?_⟩
  exact State.runsIn_namesNone (p := pid0) (i := 0) ⟨by decide, rfl, rfl, rfl, by decide⟩ (by decide)

/-- FetchFaultsInOrder: FC2. -/
theorem test_witness_FetchFaultsInOrder_illegal :
    let s := machine zeros [(0, 0x02)]
    s.halted = false ∧ s.intq = [] ∧ s.executing = some pid0 ∧ pid0.fresh = false ∧ s.Holds s.cpu.pc.toNat 0x02 ∧
      decodeOpcode 0x02 = none :=
  ⟨rfl, rfl, rfl, rfl, holds_machine zeros [(0, 0x02)] (k := 0) (by decide), by decide⟩

/-- FetchFaultsInOrder: FC3, the argument of an LDA in the last byte of a segment of 100 bytes. -/
theorem test_witness_FetchFaultsInOrder_argument :
    let s : State := { machine (regs 99 0 0 0 false) [(99, 0xA9)] with
      cfg := { Config.default with memSize := 300 }
      seg := segmentTable { Config.default with memSize := 300 } }
    s.halted = false ∧ s.intq = [] ∧ s.executing = some pid0 ∧ pid0.fresh = false ∧ s.Holds s.cpu.pc.toNat 0xA9 ∧
      decodeOpcode 0xA9 = some .ldaImm ∧ 1 ≤ 1 ∧ 1 ≤ Opcode.ldaImm.argCount ∧
      s.NamesNone (argAddress s.cfg s.cpu.pc.toNat 1) := by
  refine ⟨rfl, rfl, rfl, rfl, ⟨99, ?_, rfl⟩, rfl, by decide, by decide, ?_⟩
  · exact State.runsIn_names (p := pid0) (i := 0) (k := 99) ⟨by decide, rfl, rfl, rfl, by decide⟩ (by decide)
  · exact State.runsIn_namesNone (p := pid0) (i := 0) ⟨by decide, rfl, rfl, rfl, by decide⟩ (by decide)

/-- FetchFaultsInOrder: without the wrap, the argument of an LDA at 0xFF, in a segment of 512 bytes. -/
theorem test_witness_FetchFaultsInOrder_past_255 :
    let c : Config := { Config.default with memSize := 1536, argFetchWrap := false }
    let s : State := { machine (regs 0xFF 0 0 0 false) [(0xFF, 0xA9)] with cfg := c, seg := segmentTable c }
    s.halted = false ∧ s.intq = [] ∧ s.executing = some pid0 ∧ pid0.fresh = false ∧ s.Holds s.cpu.pc.toNat 0xA9 ∧
      decodeOpcode 0xA9 = some .ldaImm ∧ 1 ≤ 1 ∧ 1 ≤ Opcode.ldaImm.argCount ∧
      255 < argAddress s.cfg s.cpu.pc.toNat 1 := by
  refine ⟨rfl, rfl, rfl, rfl, ⟨0xFF, ?_, rfl⟩, rfl, by decide, by decide, by decide⟩
  exact State.runsIn_names (p := pid0) (i := 0) (k := 0xFF) ⟨by decide, rfl, rfl, rfl, by decide⟩ (by decide)

/-- FileSystemRecordsAndFatalTrap: a halted machine and records of no known kind or sub-kind; each known sub-kind, with
success and with an error. -/
theorem test_witness_FileSystemRecordsAndFatalTrap : ({ State.reset with halted := true } : State).halted = true ∧
    State.reset.halted = false ∧
    ({ State.reset with intq := [.unrecognized 12] } : State).intq = .unrecognized 12 :: [] ∧
    ({ State.reset with intq := [.fileSystem (.unrecognized 5)] } : State).intq =
      .fileSystem (.unrecognized 5) :: [] ∧
    ({ State.reset with intq := [.fileSystem .format] } : State).intq = .fileSystem .format :: [] ∧
    Config.default.legal = true ∧ DiskLoc.onGrid Config.default ⟨3, 7, 7⟩ = true ∧
    ({ State.reset with intq := [.fileSystem (.create [0x78])] } : State).intq =
      .fileSystem (.create [0x78]) :: [] ∧
    (∃ d, emptyDisk.createFile tiny [0x78] = .ok d) ∧
    State.reset.disk.createFile Config.default [0x78] = .error .notFormatted ∧
    (∃ d, (diskS3.getD emptyDisk).appendToFile tiny [0x78] [0x21] = .ok d) ∧
    State.reset.disk.appendToFile Config.default [0x78] [0x21] = .error .notFormatted ∧
    (∃ d, (diskS3.getD emptyDisk).deleteFile tiny [0x78] = .ok d) ∧
    State.reset.disk.deleteFile Config.default [0x78] = .error .notFormatted ∧
    (∃ text, (diskS3.getD emptyDisk).readFile tiny [0x78] = .ok text) ∧
    State.reset.disk.readFile Config.default [0x78] = .error .notFormatted :=
  ⟨rfl, rfl, rfl, rfl, rfl, by decide, by decide, rfl, ok_of (by decide +kernel), rfl, ok_of (by decide +kernel), rfl,
    ok_of (by decide +kernel), rfl, ok_of (by decide +kernel), rfl⟩

theorem test_witness_TicksWithoutEffect : State.reset.halted = false ∧
    ({ State.reset with intq := [.timer] } : State).intq = .timer :: [] ∧
    ({ State.reset with intq := [.keyboard [0x41]] } : State).intq = .keyboard [0x41] :: [] ∧
    State.reset.intq = [] ∧ State.reset.executing = none ∧ State.reset.ready = [] := ⟨rfl, rfl, rfl, rfl, rfl, rfl⟩

theorem test_witness_InterruptTickTakesTheHead :
    let s : State := { State.reset with intq := [.fileSystem .format, .timer] }
    s.halted = false ∧ s.intq = .fileSystem .format :: [.timer] ∧ ∃ t, step s = .next t :=
  ⟨rfl, rfl, next_of (by decide +kernel)⟩

/-- InstructionFrame: an instruction that stores nothing, and a store whose operand translates to 0xFF and to no other
address. -/
theorem test_witness_InstructionFrame : (∃ t, exec .nop (machine zeros []) = .next t) ∧
    (∀ addr, Instr.nop ≠ .sta addr ∧ Instr.nop ≠ .inc addr) ∧
    (∃ t, exec (.sta 0x00FF) (machine (regs 0 0x42 0 0 false) []) = .next t) ∧
    Memory.wf (machine (regs 0 0x42 0 0 false) []).mem = true ∧
    ((machine (regs 0 0x42 0 0 false) []).translate (absLogical 0x00FF)).toOption = some 0xFF :=
  ⟨next_of (by decide +kernel), fun addr => ⟨fun h => (by cases h), fun h => (by cases h)⟩,
    next_of (by decide +kernel), rfl, by decide +kernel⟩

theorem test_witness_OnlyCompareWritesZ :
    (∃ t, exec (.ldaImm 0x00) (machine zeros []) = .next t ∧ decide (t.cycleResult = some .ok) = true) ∧
    (∃ t, exec .sys (machine zeros []) = .next t ∧ decide (t.cycleResult ≠ some .ok) = true) ∧
    (∀ addr, Instr.ldaImm 0x00 ≠ .cpx addr) ∧ ∀ addr, Instr.ldaImm 0x00 ≠ .sta addr ∧
    Instr.ldaImm 0x00 ≠ .inc addr := by
  refine ⟨next_with (by decide +kernel), next_with (by decide +kernel), ?_, ?_⟩
  · intro addr h; cases h
  · exact fun addr => ⟨fun h => (by cases h), fun h => (by cases h)⟩

theorem test_witness_FaultsArePrecise : (machine zeros []).executing = some pid0 ∧
    ∃ t, exec (.sta 0x0100) (machine zeros []) = .next t ∧
      decide (t.cycleResult = some (.fault .operandSegFault)) = true := ⟨rfl, next_with (by decide +kernel)⟩

/-- AtMostOneRecordPerTick: a tick that enqueues `BREAK_PROGRAM`, one that uses up the quantum, one that enqueues none. -/
theorem test_witness_AtMostOneRecordPerTick : (machine zeros []).intq = [] ∧
    (∃ t, step (machine zeros []) = .next t ∧ decide (t.intq = [.breakProgram 0]) = true) ∧
    (∃ t, step { machine zeros [(0, 0xEA)] with qPid := some 0, qCount := 5 } = .next t ∧
      decide (t.intq = [.contextSwitch]) = true) ∧
    ∃ t, step (machine zeros [(0, 0xEA)]) = .next t ∧ decide (t.intq = []) = true :=
  ⟨rfl, next_with (by decide +kernel), next_with (by decide +kernel), next_with (by decide +kernel)⟩

/-- SegmentProtection: a store to the last byte of the segment, and the byte just after the segment. -/
theorem test_witness_SegmentProtection : (machine (regs 0 0x42 0 0 false) []).RunsIn pid0 0 ∧
    Memory.wf (machine (regs 0 0x42 0 0 false) []).mem = true ∧
    (∃ t, exec (.sta 0x00FF) (machine (regs 0 0x42 0 0 false) []) = .next t) ∧
    ¬ (0 * Config.default.segSize ≤ 256 ∧ 256 < 0 * Config.default.segSize + Config.default.segSize) :=
  ⟨runsIn_machine _ _, rfl, next_of (by decide +kernel), by decide⟩

/-- ProcessIsolation: two byte stores that differ in the byte just after the segment only. -/
theorem test_witness_ProcessIsolation : (machine zeros [(0xFF, 0x41)]).RunsIn pid0 0 ∧
    Memory.wf (machine zeros [(0xFF, 0x41)]).mem = true ∧ Memory.wf [(0xFF, 0x41), (0x100, 0x77)] = true ∧
    (∀ k < Config.default.segSize, Memory.read [(0xFF, 0x41), (0x100, 0x77)] (0 * Config.default.segSize + k) =
      (machine zeros [(0xFF, 0x41)]).segByte 0 k) ∧
    ∃ t, exec (.ldaAbs 0x00FF) (machine zeros [(0xFF, 0x41)]) = .next t := by
  refine ⟨runsIn_machine _ _, by decide, by decide, ?_, next_of (by decide +kernel)⟩
  intro k hk
  have hk : k < 256 := hk
  have h : 0 * Config.default.segSize + k = k := by rw [Nat.zero_mul, Nat.zero_add]
  have h' : (machine zeros [(0xFF, 0x41)]).segByte 0 k = Memory.read [(0xFF, 0x41)] (0 * Config.default.segSize + k) := rfl
  rw [h', h]
  simp only [Memory.read, Sparse.read]
  split
  · rfl
  · rw [if_neg (by omega)]

theorem test_witness_ParametersAndHistoryKept :
    ∃ t, step (machine zeros [(0, 0xEA)]) = .next t := next_of (by decide +kernel)

/-- TranslationBoundary: the last address inside, the first outside, no process, and a process without a segment. -/
theorem test_witness_TranslationBoundary : (machine zeros []).RunsIn pid0 0 ∧ 255 < (machine zeros []).cfg.segSize ∧
    (machine zeros []).cfg.segSize ≤ 256 ∧ State.reset.executing = none ∧
    ({ machine zeros [] with executing := some (newPcb 1) } : State).executing = some (newPcb 1) ∧
    (newPcb 1).occupiedSegment = none := ⟨runsIn_machine _ _, by decide, by decide, rfl, rfl, rfl⟩

/-- PhysicalReadAfterWrite: the last physical address 0x2FF and the first that is none, 0x300 (S6). -/
theorem test_witness_PhysicalReadAfterWrite : Memory.wf (machine zeros [(0x2FF, 0x01)]).mem = true ∧
    0x2FF < (machine zeros [(0x2FF, 0x01)]).cfg.memSize ∧ (machine zeros [(0x2FF, 0x01)]).cfg.memSize ≤ 0x300 ∧
    0x2FE ≠ 0x2FF := by decide

theorem test_witness_SegmentsPartitionTheStore : Config.default.legal = true ∧ 0x2FF < Config.default.memSize ∧
    (segmentTable Config.default)[2]? = some ⟨0x200, 0x2FF⟩ := by decide

/-- The tests' machine meets `memoryOk` when its byte store does. -/
theorem memoryOk_machine : (machine zeros [(0, 0xEA), (0x2FF, 0x01)]).memoryOk :=
  ⟨by decide, rfl, by decide, by decide⟩

/-- LoadPlacesProgram: no segment free, and segment 1 the first free one. -/
theorem test_witness_LoadPlacesProgram :
    let full : State := { machine zeros [(0, 0xEA), (0x2FF, 0x01)] with occ := [true, true, true] }
    let s := machine zeros [(0, 0xEA), (0x2FF, 0x01)]
    (full.memoryOk ∧ full.occ.length = full.cfg.numSegments ∧ ∀ i < full.cfg.numSegments, full.occ[i]? = some true) ∧
    s.memoryOk ∧ s.occ.length = s.cfg.numSegments ∧ s.occ[1]? = some false ∧ ∀ j < 1, s.occ[j]? = some true := by
  refine ⟨⟨memoryOk_machine, rfl, ?_⟩, memoryOk_machine, rfl, rfl, ?_⟩ <;> decide

theorem test_witness_EvacuateUndoesLoad : State.reset.memoryOk ∧ State.reset.freeSegmentsZero ∧
    ∃ r, State.reset.load [0xA9, 0x01, 0x00] 0 = .ok r :=
  ⟨⟨by decide, rfl, rfl, by decide⟩, fun _ _ _ _ _ _ _ => rfl, ok_of (by decide +kernel)⟩

/-- pid 0 executing, pid 1 and pid 2 ready, a `CONTEXT_SWITCH` record pending. -/
def switching : State :=
  { machine (regs 0x05 0x01 0x02 0x03 true) [] with
    occ := [true, true, true]
    reg := [0, 1, 2]
    ready := [waiting 1 1, waiting 2 2]
    nextPid := 3
    intq := [.contextSwitch] }

/-- ContextSwitchSwapsProcesses: round robin, and the priority policy with the executing process its own successor. -/
theorem test_witness_ContextSwitchSwapsProcesses :
    let c : Pcb := { mirrored pid0 switching.cpu with fresh := true, status := .ready }
    let urgent : Pcb := { pid0 with priority := .finite 0 }
    let c' : Pcb := { mirrored urgent switching.cpu with fresh := true, status := .ready }
    (switching.halted = false ∧ switching.intq = .contextSwitch :: [] ∧ switching.executing = some pid0 ∧
      switching.ready ≠ [] ∧ readyInsert switching.cfg.policy c switching.ready = waiting 1 1 :: [waiting 2 2, c] ∧
      (waiting 1 1).location ≠ .disk) ∧
    readyInsert .priority c' switching.ready = c' :: [waiting 1 1, waiting 2 2] ∧ c'.location ≠ .disk := by decide

/-- A process whose image is on the disk. -/
def away (pid : Nat) : Pcb := { newPcb pid with location := .disk, status := .ready }

/-- The disk of the smallest machine with the swap file of pid 3. -/
def swapped : Disk := ((emptyDisk.swapLoad tiny [0xA2, 0x01] 3).toOption).getD emptyDisk

/-- The same with a swap file that cannot be read: its directory block points to an AVAILABLE block. -/
def damaged : Disk := swapped.resetBlock ⟨1, 0, 0⟩

/-- The smallest machine with pid 3 on disk: `READY` as given, with segments 0 and 1 occupied and segment 2 as given. -/
def tinyWith (full : Bool) (d : Disk) (ready : List Pcb) : State :=
  { State.powerOn tiny with occ := [true, true, full], reg := [0, 1], ready := ready, disk := d, nextPid := 4 }

/-- The same with pid 0 executing and a `CONTEXT_SWITCH` record pending. -/
def switchingTiny (full : Bool) (d : Disk) (ready : List Pcb) : State :=
  { tinyWith full d ready with executing := some pid0, intq := [.contextSwitch] }

/-- The tests' small machines meet `memoryOk`. -/
theorem memoryOk_tinyWith (full : Bool) (d : Disk) (ready : List Pcb) : (tinyWith full d ready).memoryOk :=
  ⟨(by decide : tiny.legal = true), rfl, rfl, fun e he => by cases he⟩

/-- Equality of results is seen through `toOption`. -/
theorem ok_eq {ε α : Type} {e : Except ε α} {a : α} (h : e.toOption = some a) : e = .ok a := by
  cases e with
  | ok b => cases h; rfl
  | error x => cases h

/-- A result that passes a check. -/
theorem ok_with {ε α : Type} {e : Except ε α} {c : α → Bool} (h : e.toOption.map c = some true) :
    ∃ a, e = .ok a ∧ c a = true := by
  cases e with
  | ok a => exact ⟨a, rfl, by simpa [Except.toOption] using h⟩
  | error x => cases h

/-- An error is some error. -/
theorem error_of {ε α : Type} {e : Except ε α} (h : e.toOption.isNone = true) : ∃ x, e = .error x := by
  cases e with
  | ok a => cases h
  | error x => exact ⟨x, rfl⟩

/-- The swap file of pid 3 is on both disks. -/
theorem swap_found : swapped.lookup tiny (swapName 3) = .ok (some ⟨0, 0, 1⟩) ∧
    damaged.lookup tiny (swapName 3) = .ok (some ⟨0, 0, 1⟩) :=
  ⟨ok_eq (by decide +kernel), ok_eq (by decide +kernel)⟩

/-- A machine whose disk is one of the two has not lost the image of pid 3. -/
theorem not_gone {s : State} (hc : s.cfg = tiny) (hd : s.disk = swapped ∨ s.disk = damaged) : ¬ s.SwapImageGone 3 := by
  have hw : swapped.formatted = true ∧ 3 ∈ swapped.swaps := by decide +kernel
  have hm : damaged.formatted = true ∧ 3 ∈ damaged.swaps := by decide +kernel
  unfold State.SwapImageGone
  rcases hd with hd | hd
  · rw [hc, hd, swap_found.1]; simp [hw]
  · rw [hc, hd, swap_found.2]; simp [hm]

/-- The swap image of pid 3 reads back. -/
theorem swap_reads : ∃ r, swapped.deleteSwap tiny 3 = .ok r := ok_of (by decide +kernel)

/-- The damaged one does not. -/
theorem swap_fails : ∃ e, damaged.deleteSwap tiny 3 = .error e := error_of (by decide +kernel)

/-- ContextSwitchSwapsProcesses with a head on disk: a segment is free, and none is (pid 0 itself is the
victim). -/
theorem test_witness_ContextSwitchSwapsProcesses_rollIn :
    let c : Pcb := { mirrored pid0 Cpu.initial with fresh := true, status := .ready }
    let s := switchingTiny false swapped [away 3]
    let f := switchingTiny true swapped [away 3, waiting 1 1]
    (s.halted = false ∧ s.intq = .contextSwitch :: [] ∧ s.executing = some pid0 ∧ s.ready ≠ [] ∧
      readyInsert s.cfg.policy c s.ready = away 3 :: [c] ∧ (away 3).location = .disk ∧ s.memoryOk ∧
      s.occ.length = s.cfg.numSegments ∧ ¬ s.SwapImageGone (away 3).pid ∧
      State.RoomMade { s with intq := [], executing := none, ready := away 3 :: [c] }
        { s with intq := [], executing := none, ready := away 3 :: [c] } ∧
      (∃ r, s.disk.deleteSwap s.cfg (away 3).pid = .ok r) ∧ s.occ[2]? = some false ∧
      ∀ k < 2, s.occ[k]? = some true) ∧
    readyInsert f.cfg.policy c f.ready = away 3 :: [waiting 1 1, c] ∧
    ∃ m, State.RoomMade { f with intq := [], executing := none, ready := away 3 :: [waiting 1 1, c] } m ∧
      m.occ[0]? = some false ∧ ∃ r, m.disk.deleteSwap m.cfg (away 3).pid = .ok r := by
  refine ⟨⟨rfl, rfl, rfl, by decide, rfl, rfl, memoryOk_tinyWith false swapped [away 3], rfl,
    not_gone rfl (.inl rfl), .inl ⟨⟨false, by decide, rfl⟩, rfl⟩, swap_reads, rfl, by decide⟩, rfl, ?_⟩
  obtain ⟨m, hm, h⟩ := ok_with (e := State.rollOut { switchingTiny true swapped [away 3, waiting 1 1] with
      intq := []
      executing := none
      ready := away 3 :: [waiting 1 1, { mirrored pid0 Cpu.initial with fresh := true, status := .ready }] }
    { mirrored pid0 Cpu.initial with fresh := true, status := .ready })
    (c := fun m => (m.occ[0]? == some false) && (m.disk.deleteSwap m.cfg 3).toOption.isSome) (by decide +kernel)
  rw [Bool.and_eq_true, beq_iff_eq] at h
  exact ⟨m, .inr ⟨by decide, _, rfl, hm⟩, h.1, ok_of h.2⟩

/-- ContextSwitchNoops with a head on disk: the read-back fails, and the image is lost. -/
theorem test_witness_ContextSwitchNoops_undone :
    let c : Pcb := { mirrored pid0 Cpu.initial with fresh := true, status := .ready }
    let s := switchingTiny false damaged [away 3]
    let l := switchingTiny false emptyDisk [away 3]
    (s.halted = false ∧ s.intq = .contextSwitch :: [] ∧ s.executing = some pid0 ∧ pid0.location = .memory ∧
      s.ready ≠ [] ∧ (∀ q ∈ s.ready, q.pid ≠ pid0.pid) ∧ readyInsert s.cfg.policy c s.ready = away 3 :: [c] ∧
      (away 3).location = .disk ∧
      ∃ why, State.RollInStops { s with intq := [], executing := none, ready := away 3 :: [c] } (away 3).pid why) ∧
    readyInsert l.cfg.policy c l.ready = away 3 :: [c] ∧ l.SwapImageGone (away 3).pid := by
  obtain ⟨e, he⟩ := swap_fails
  exact ⟨⟨rfl, rfl, rfl, rfl, by decide, by decide, rfl, rfl, _,
    not_gone rfl (.inr rfl), .inr (.inr ⟨_, e, .inl ⟨⟨false, by decide, rfl⟩, rfl⟩, he, rfl⟩)⟩, rfl,
    .inr (.inl (by decide))⟩

theorem test_witness_ContextSwitchNoops :
    let a : State := { State.reset with intq := [.contextSwitch] }
    let b : State := { machine zeros [] with intq := [.contextSwitch] }
    (a.halted = false ∧ a.intq = .contextSwitch :: [] ∧ a.executing = none) ∧
    b.halted = false ∧ b.intq = .contextSwitch :: [] ∧ b.executing ≠ none ∧ b.ready = [] := by decide

/-- QuantumRequestsSwitch: one tick short of the quantum, the quantum's last tick (CS9), a new pid with quantum 1,
another policy, and a break (CS10). -/
theorem test_witness_QuantumRequestsSwitch :
    let s (q c : Nat) (r : CycleResult) (policy : Policy) : State := { machine zeros [] with
      cfg := { Config.default with quantum := q, policy := policy }
      qPid := some 0
      qCount := c
      cycleResult := some r }
    ((s 6 4 .ok .rr).cfg.policy = .rr ∧ (s 6 4 .ok .rr).cycleResult = some .ok ∧ (s 6 4 .ok .rr).qPid = some 0 ∧
      (s 6 4 .ok .rr).qCount + 1 < (s 6 4 .ok .rr).cfg.quantum) ∧
    (s 6 5 .ok .rr).cfg.quantum ≤ (s 6 5 .ok .rr).qCount + 1 ∧
    ((s 1 0 .ok .rr).qPid ≠ some 7 ∧ (s 1 0 .ok .rr).cfg.quantum ≤ 1) ∧
    (s 6 5 .ok .fcfs).cfg.policy ≠ .rr ∧ (s 6 5 .brk .rr).cycleResult ≠ some .ok := by decide

theorem test_witness_QuantumStaysBelow :
    let s : State := { machine zeros [(0, 0xEA)] with qPid := some 0, qCount := 5 }
    s.quantumOk ∧ ∃ t, step s = .next t := ⟨⟨by decide, fun h => (by cases h)⟩, next_of (by decide +kernel)⟩

theorem test_witness_StatisticsPerInstructionTick :
    let s : State := { switching with intq := [] }
    s.halted = false ∧ s.intq = [] ∧ s.executing = some pid0 ∧ ∃ t, step s = .next t :=
  ⟨rfl, rfl, rfl, next_of (by decide +kernel)⟩

/-- TerminationOfExecuting: by its BRK's record, its fault's record and a kill, with the quantum its own or another's. -/
theorem test_witness_TerminationOfExecuting :
    let s (r : Interrupt) (q : Option Nat) : State :=
      { machine zeros [(0xFF, 0x41), (0x100, 0x42)] with intq := [r], qPid := q, qCount := 2 }
    (s (.breakProgram 0) (some 0)).RunsIn pid0 0 ∧ pid0.location = .memory ∧
    pid0.pid ∈ (s (.breakProgram 0) (some 0)).reg ∧ (s (.breakProgram 0) (some 0)).halted = false ∧
    (s (.breakProgram 0) (some 0)).intq = .breakProgram pid0.pid :: [] ∧
    (s (.breakProgram 0) (some 0)).qPid = some pid0.pid ∧ (s (.errProgram 0) none).qPid ≠ some pid0.pid ∧
    Interrupt.Terminates (.breakProgram 0) pid0.pid ∧ Interrupt.Terminates (.errProgram 0) pid0.pid ∧
    Interrupt.Terminates (.killProgram 0) pid0.pid ∧
    (∃ t, step (s (.breakProgram 0) (some 0)) = .next t) ∧ (∃ t, step (s (.errProgram 0) none) = .next t) ∧
    ∃ t, step (s (.killProgram 0) none) = .next t :=
  ⟨⟨by decide, rfl, rfl, rfl, by decide⟩, rfl, by decide, rfl, rfl, rfl, by decide, .inl rfl, .inr (.inl rfl),
    .inr (.inr rfl), next_of (by decide +kernel), next_of (by decide +kernel), next_of (by decide +kernel)⟩

/-- TerminationOfReadyOrInactive: an inactive pid; a ready one in memory; and on disk, with its swap file, without it, and
with one that cannot be read. -/
theorem test_witness_TerminationOfReadyOrInactive :
    let a : State := { switching with intq := [.killProgram 3] }
    let b : State := { switching with intq := [.killProgram 2] }
    let c (d : Disk) : State := { tinyWith true d [waiting 1 1, away 3] with intq := [.killProgram 3] }
    (a.halted = false ∧ a.intq = .killProgram 3 :: [] ∧ Interrupt.Terminates (.killProgram 3) 3 ∧
      (∀ p, a.executing = some p → p.pid ≠ 3) ∧ ∀ p ∈ a.ready, p.pid ≠ 3) ∧
    ((∀ p, b.executing = some p → p.pid ≠ 2) ∧ b.ready = [waiting 1 1] ++ waiting 2 2 :: [] ∧
      (∀ q ∈ [waiting 1 1], q.pid ≠ 2) ∧ b.memoryOk ∧ 2 < b.cfg.numSegments ∧ (waiting 2 2).location = .memory ∧
      (waiting 2 2).occupiedSegment = some 2 ∧ 2 ∈ b.reg) ∧
    ((c emptyDisk).executing = none ∧ (c emptyDisk).ready = [waiting 1 1] ++ away 3 :: [] ∧
      (∀ q ∈ [waiting 1 1], q.pid ≠ 3) ∧ (away 3).location = .disk ∧ (c emptyDisk).SwapImageGone 3) ∧
    (swapped.lookup tiny (swapName 3) = .ok (some ⟨0, 0, 1⟩) ∧ ∃ r, swapped.deleteSwap tiny 3 = .ok r) ∧
    ¬ (c damaged).SwapImageGone 3 ∧ damaged.lookup tiny (swapName 3) = .ok (some ⟨0, 0, 1⟩) ∧
      ∃ e, damaged.deleteSwap tiny 3 = .error e := by
  refine ⟨⟨rfl, rfl, .inr (.inr rfl), ?_, by decide⟩,
    ⟨?_, rfl, by decide, ⟨by decide, rfl, rfl, by decide⟩, by decide, rfl, rfl, by decide⟩,
    ⟨rfl, rfl, by decide, rfl, .inr (.inl (by decide))⟩, ⟨swap_found.1, swap_reads⟩, not_gone rfl (.inr rfl),
    swap_found.2, swap_fails⟩
  · intro p h; cases h; decide
  · intro p h; cases h; decide

/-- ReadyInsertKeepsOrder: a sorted queue with a tie and `+inf`. -/
theorem test_witness_ReadyInsertKeepsOrder :
    [{ waiting 1 1 with priority := .finite 1 }, { waiting 0 0 with priority := .finite 1 }, waiting 2 2].Pairwise
      (fun a b => b.priority.lt a.priority = false) := by decide

/-- 60_exceptions.md R151: the error met with the swap file is reported, and the process is terminated. -/
theorem test_reclaim_error_reported :
    stepSees { tinyWith true damaged [waiting 1 1, away 3] with intq := [.killProgram 3] }
      (fun t => (t.console, t.terminated.map (·.pid))) =
    some ([.putSystemText (.reclaimFailed 3 .corruptChain), .putSystemText (.terminated 3 0 0)], [3]) := by
  decide +kernel

/-- 60_exceptions.md R163: malformed program text is reported and nothing is enqueued. -/
theorem test_malformed_text_reported :
    (State.reset.hostInput (.programText ['A', '9', ' ', '1'] none)).console =
        [.putSystemText (.malformedProgram (.malformedToken ['1']))] ∧
      (State.reset.hostInput (.programText ['A', '9', ' ', '1'] none)).intq = [] := ⟨rfl, rfl⟩

/-- DispatchOfHead: a head in memory, a head whose image is lost (CS7), and a head on disk with memory full of processes
that were never run (CS6). -/
theorem test_witness_DispatchOfHead :
    let a : State := { switching with executing := none }
    let b : State := { State.reset with ready := [away 3], disk := emptyDisk }
    let c := tinyWith true swapped [away 3]
    (a.executing = none ∧ a.ready = waiting 1 1 :: [waiting 2 2] ∧ (waiting 1 1).location ≠ .disk) ∧
    (b.executing = none ∧ b.ready = away 3 :: [] ∧ (away 3).location = .disk ∧ b.SwapImageGone (away 3).pid) ∧
    c.executing = none ∧ c.ready = away 3 :: [] ∧ c.RollInStops (away 3).pid .noVictim :=
  ⟨⟨rfl, rfl, by decide⟩, ⟨rfl, rfl, rfl, .inr (.inl (by decide))⟩, rfl, rfl, not_gone rfl (.inl rfl),
    .inl ⟨by decide, rfl, rfl⟩⟩

/-- DispatchOfHead: a victim that cannot be rolled out (its swap name is a file already), and an image that cannot be
read back. -/
theorem test_witness_DispatchOfHead_stops :
    (∃ why, (tinyWith true swapped [away 3, { waiting 3 1 with pid := 3 }]).RollInStops 3 why) ∧
    ∃ why, (tinyWith false damaged [away 3]).RollInStops 3 why := by
  constructor
  · obtain ⟨e, he⟩ := error_of (e := State.rollOut (tinyWith true swapped [away 3, { waiting 3 1 with pid := 3 }])
      (waiting 3 1)) (by decide +kernel)
    exact ⟨_, not_gone rfl (.inl rfl), .inr (.inl ⟨by decide, waiting 3 1, e, rfl, he, rfl⟩)⟩
  · obtain ⟨e, he⟩ := swap_fails
    exact ⟨_, not_gone rfl (.inr rfl), .inr (.inr ⟨_, e, .inl ⟨⟨false, by decide, rfl⟩, rfl⟩, he, rfl⟩)⟩

/-- DispatchOfHead: a roll-in that succeeds, with a segment free; with none free; and the two kinds of tick. -/
theorem test_witness_DispatchOfHead_rollIn :
    let s := tinyWith false swapped [away 3]
    let f := tinyWith true swapped [away 3, waiting 1 1]
    (s.executing = none ∧ s.ready = away 3 :: [] ∧ (away 3).location = .disk ∧ s.memoryOk ∧
      s.occ.length = s.cfg.numSegments ∧ ¬ s.SwapImageGone (away 3).pid ∧ s.RoomMade s ∧
      (∃ r, s.disk.deleteSwap s.cfg (away 3).pid = .ok r) ∧ s.occ[2]? = some false ∧ ∀ k < 2, s.occ[k]? = some true) ∧
    (∃ m, f.RoomMade m ∧ m.occ[1]? = some false ∧ ∃ r, m.disk.deleteSwap m.cfg (away 3).pid = .ok r) ∧
    (s.halted = false ∧ s.intq = [] ∧ s.nextProcess.executing ≠ none) ∧
    (tinyWith true emptyDisk [away 3]).nextProcess.executing = none := by
  refine ⟨⟨rfl, rfl, rfl, memoryOk_tinyWith false swapped [away 3], rfl, not_gone rfl (.inl rfl),
    .inl ⟨⟨false, by decide, rfl⟩, rfl⟩, swap_reads, rfl, by decide⟩, ?_,
    ⟨rfl, rfl, of_decide_eq_true (by decide +kernel)⟩, of_decide_eq_true (by decide +kernel)⟩
  obtain ⟨m, hm, h⟩ := ok_with (e := State.rollOut (tinyWith true swapped [away 3, waiting 1 1]) (waiting 1 1))
    (c := fun m => (m.occ[1]? == some false) && (m.disk.deleteSwap m.cfg 3).toOption.isSome) (by decide +kernel)
  rw [Bool.and_eq_true, beq_iff_eq] at h
  exact ⟨m, .inr ⟨by decide, waiting 1 1, rfl, hm⟩, h.1, ok_of h.2⟩

/-- RunProgramRecord: a pid that is not resident, one that is, and all of two that are. -/
theorem test_witness_RunProgramRecord :
    let c : State := { State.reset with intq := [.runAllPrograms], resident := [newPcb 4, newPcb 3] }
    (c.halted = false ∧ c.intq = .runAllPrograms :: [] ∧ [newPcb 3, newPcb 4].Perm c.resident ∧
      [newPcb 3, newPcb 4].Pairwise (fun p q => p.pid < q.pid)) ∧
    let a : State := { State.reset with intq := [.runProgram 0] }
    let b : State := { State.reset with intq := [.runProgram 4], resident := [newPcb 3, newPcb 4] }
    (a.halted = false ∧ a.intq = .runProgram 0 :: [] ∧ ∀ p ∈ a.resident, p.pid ≠ 0) ∧
    b.halted = false ∧ b.intq = .runProgram 4 :: [] ∧ b.resident = [newPcb 3] ++ newPcb 4 :: [] ∧
      (newPcb 4).pid = 4 ∧ ∀ q ∈ [newPcb 3], q.pid ≠ 4 :=
  ⟨⟨rfl, rfl, List.Perm.swap _ _ _, by decide⟩, by decide⟩

/-- LoadProgramRecord: one segment free; memory full with room on the disk; memory full with the disk not formatted. -/
theorem test_witness_LoadProgramRecord :
    let s (occ : List Bool) (d : Disk) : State := { machine zeros [(0, 0xEA), (0x2FF, 0x01)] with
      occ := occ
      disk := d
      resident := [newPcb 0]
      intq := [.loadProgram [0xA9, 0x01] (some 5)] }
    ((s [true, true, false] emptyDisk).halted = false ∧
      (s [true, true, false] emptyDisk).intq = .loadProgram [0xA9, 0x01] (some 5) :: [] ∧
      (s [true, true, false] emptyDisk).memoryOk ∧
      (s [true, true, false] emptyDisk).occ.length = (s [true, true, false] emptyDisk).cfg.numSegments ∧
      (∀ o ∈ (s [true, true, false] emptyDisk).resident, o.pid < (s [true, true, false] emptyDisk).nextPid) ∧
      ∃ o ∈ (s [true, true, false] emptyDisk).occ, o = false) ∧
    ((s [true, true, true] emptyDisk).memoryOk ∧ (∀ o ∈ (s [true, true, true] emptyDisk).occ, o = true) ∧
      ∃ d, emptyDisk.swapLoad Config.default ([0xA9, 0x01].take Config.default.segSize) 1 = .ok d) ∧
    State.reset.disk.swapLoad Config.default ([0xA9, 0x01].take Config.default.segSize) 1 = .error .notFormatted := by
  refine ⟨⟨rfl, rfl, memoryOk_machine, rfl, ?_, ?_⟩, ⟨memoryOk_machine, ?_, ok_of (by decide +kernel)⟩, rfl⟩
  · decide
  · decide
  · decide

/-- StoredBlockRoundTrip: a block whose pointer is the grid's last location, the first location off the grid, and the
first corrupt state byte. -/
theorem test_witness_StoredBlockRoundTrip : Config.default.legal = true ∧
    ({ state := .occupied, pointer := ⟨3, 7, 7⟩, content := zeroContent } : FsBlock).pointer.onGrid Config.default = true ∧
    ({ state := .occupied, pointer := ⟨3, 7, 7⟩, content := zeroContent } : FsBlock).content.length = 60 ∧
    (0x02#8 ≠ 0x00#8 ∧ 0x02#8 ≠ 0x01#8) ∧ Config.default.numTracks ≤ (0x04#8).toNat ∧
    FsBlock.decode Config.default (Disk.stored { emptyDisk with blocks := [(0, [0x02])] } bootLoc) = none := by decide

/-- The disk witnesses use the smallest machine, legal and with a canonical, formatted, empty disk. -/
theorem tiny_legal : tiny.legal = true ∧ Sparse.wf unlistedBlock emptyDisk.blocks = true := by decide

/-- SwapRoundTrip: an image of 61 bytes, so of two blocks. -/
theorem test_witness_SwapRoundTrip : tiny.legal = true ∧ Sparse.wf unlistedBlock emptyDisk.blocks = true ∧
    ∃ d, emptyDisk.swapLoad tiny (List.replicate 61 0xA2#8) 3 = .ok d :=
  ⟨tiny_legal.1, tiny_legal.2, ok_of (by decide +kernel)⟩

/-- A process in segment 0 of the smallest machine, its segment full of code. -/
def rolling : State :=
  { State.powerOn tiny with
    mem := [(0, 0xA2), (3, 0xFF), (4, 0xEE)]
    occ := [true, true, true]
    reg := [0, 1, 2]
    ready := [waiting 0 0, waiting 1 1, waiting 2 2]
    nextPid := 3
    disk := emptyDisk }

theorem test_witness_RollOutRollInKeepsImage : rolling.memoryOk ∧ rolling.diskOk ∧
    rolling.occ.length = rolling.cfg.numSegments ∧ (waiting 0 0).occupiedSegment = some 0 ∧
    ∃ t, rolling.rollOut (waiting 0 0) = .ok t :=
  ⟨⟨by decide, rfl, by decide, by decide⟩, ⟨by decide, rfl, by decide⟩, rfl, rfl, ok_of (by decide +kernel)⟩

/-- Two results one after the other. -/
theorem ok_of_bind {ε α β : Type} {e : Except ε α} {f : α → Except ε β} (h : (e.bind f).toOption.isSome = true) :
    ∃ a b, e = .ok a ∧ f a = .ok b := by
  cases e with
  | ok a => exact ⟨a, (ok_of h).choose, rfl, (ok_of h).choose_spec⟩
  | error x => cases h

/-- AppendsConcatenate: an append that fills one block and one that spills (FS6 with 60 bytes). -/
theorem test_witness_AppendsConcatenate : tiny.legal = true ∧ Sparse.wf unlistedBlock emptyDisk.blocks = true ∧
    (∀ x ∈ List.replicate 60 0x41#8 ++ [0x42#8], x ≠ 0x00#8) ∧
    ∃ d1, emptyDisk.createFile tiny [0x78] = .ok d1 ∧
    ∃ d2 d3, d1.appendToFile tiny [0x78] (List.replicate 60 0x41) = .ok d2 ∧
    d2.appendToFile tiny [0x78] [0x42] = .ok d3 := by
  refine ⟨tiny_legal.1, tiny_legal.2, by decide, ?_⟩
  obtain ⟨d1, r, h1, h2⟩ := ok_of_bind (e := emptyDisk.createFile tiny [0x78])
    (f := fun d1 => (d1.appendToFile tiny [0x78] (List.replicate 60 0x41)).bind fun d2 =>
      d2.appendToFile tiny [0x78] [0x42]) (by decide +kernel)
  refine ⟨d1, h1, ?_⟩
  obtain ⟨d2, d3, h3, h4⟩ := ok_of_bind (by rw [h2]; rfl)
  exact ⟨d2, d3, h3, h4⟩

theorem test_witness_DeleteLeavesNoResidue : tiny.legal = true ∧ Sparse.wf unlistedBlock emptyDisk.blocks = true ∧
    ∃ d1 d2, emptyDisk.createFile tiny [0x78] = .ok d1 ∧ d1.appendToFile tiny [0x78] [0x68, 0x65] = .ok d2 :=
  ⟨tiny_legal.1, tiny_legal.2, ok_of_bind (by decide +kernel)⟩

theorem test_witness_UnformattedDiskIsUnread :
    let s : State := { State.reset with intq := [.fileSystem (.create [0x78])] }
    s.disk.formatted = false ∧ ∃ t, step s = .next t := ⟨rfl, next_of (by decide +kernel)⟩

theorem test_witness_MemoryStaysCanonical : (machine zeros [(0, 0xEA), (0x2FF, 0x01)]).memoryOk ∧
    ∃ t, step (machine zeros [(0, 0xEA), (0x2FF, 0x01)]) = .next t := ⟨memoryOk_machine, next_of (by decide +kernel)⟩

theorem test_witness_DiskStaysCanonical :
    let s : State := { rolling with intq := [.fileSystem (.create [0x78])] }
    s.diskOk ∧ ∃ t, step s = .next t := ⟨⟨by decide, rfl, by decide⟩, next_of (by decide +kernel)⟩

theorem test_witness_HandshakeKept : switching.handshakeOk ∧ ∃ t, step switching = .next t :=
  ⟨⟨by decide, by decide⟩, next_of (by decide +kernel)⟩

/-- The process table of `switching` is in order. -/
theorem processesOk_switching : switching.processesOk := by
  refine ⟨by decide, by decide, by decide, by decide, by decide, by decide, ?_, rfl, by decide, ?_, by decide, by decide,
    by decide⟩
  · decide
  · intro p hp i hi
    have hp : p ∈ [pid0, waiting 1 1, waiting 2 2] := hp
    simp only [List.mem_cons, List.not_mem_nil, or_false] at hp
    rcases hp with rfl | rfl | rfl <;> cases hi <;> decide

theorem test_witness_ProcessTableKept : switching.memoryOk ∧ switching.processesOk ∧ switching.freeSegmentsZero ∧
    ∃ t, step switching = .next t :=
  ⟨⟨by decide, rfl, rfl, by decide⟩, processesOk_switching, fun _ _ _ _ _ _ _ => rfl, next_of (by decide +kernel)⟩

theorem test_witness_PowerOnMeetsInvariants : tiny.legal = true := tiny_legal.1

theorem test_witness_ClearMemoryFreesEverything :
    let s : State := { switching with intq := [.requestClearMemory] }
    s.memoryOk ∧ s.processesOk ∧ s.freeSegmentsZero ∧ s.halted = false ∧ s.intq = .requestClearMemory :: [] ∧
      ∃ t, step s = .next t :=
  ⟨⟨by decide, rfl, rfl, by decide⟩, processesOk_switching, fun _ _ _ _ _ _ _ => rfl, rfl, rfl,
    next_of (by decide +kernel)⟩

theorem test_witness_ParseOfRenderedText : (∀ c ∈ ['A', '9', '0'], isSpace c = false) ∧ ['A', '9', '0'] ≠ [] ∧
    ['A', '9', '0'].length ≠ 2 ∧ (∀ c ∈ [' ', '\t', '\n', '\r'], isSpace c = true) ∧
    (isSpace '0' = false ∧ isSpace 'G' = false ∧ hexDigit 'G' = none) ∧ parseProgram ['A', '9'] = .ok [0xA9] ∧
    parseProgram ['A', '9', '0'] = .error (.malformedToken ['A', '9', '0']) :=
  ⟨by simp [isSpace], by simp, by simp, by simp [isSpace], ⟨rfl, rfl, rfl⟩, rfl, rfl⟩

/-- BadConfigurationRefused: FC10, and the smallest legal machine. -/
theorem test_witness_BadConfigurationRefused :
    let c : Config := { Config.default with memSize := 10 }
    ¬ (1 ≤ c.memSize ∧ 1 ≤ c.numSegments ∧ c.memSize % c.numSegments = 0 ∧ 1 ≤ c.quantum ∧ 2 ≤ c.numTracks ∧
      c.numTracks ≤ 10 ∧ 1 ≤ c.numSectors ∧ c.numSectors ≤ 10 ∧ 1 ≤ c.numBlocks ∧ c.numBlocks ≤ 10 ∧
      2 ≤ c.numSectors * c.numBlocks) ∧ tiny.legal = true := by decide

end Sys2Proof.Tests
end

section
/-! PROOF. What no step undoes (O27) and which configurations build a machine (O60). -/

namespace Sys2Proof.Machine

/-! ## Configurations (00_scope.md R9) -/

/-- `legal` is the conjunction of the constraints of R9. -/
theorem Config.legal_iff (c : Config) : c.legal = true ↔
    1 ≤ c.memSize ∧ 1 ≤ c.numSegments ∧ c.memSize % c.numSegments = 0 ∧ 1 ≤ c.quantum ∧ 2 ≤ c.numTracks ∧
      c.numTracks ≤ 10 ∧ 1 ≤ c.numSectors ∧ c.numSectors ≤ 10 ∧ 1 ≤ c.numBlocks ∧ c.numBlocks ≤ 10 ∧
      2 ≤ c.numSectors * c.numBlocks := by
  simp only [Config.legal, Config.segmentsOk, Config.quantumOk, Config.diskOk, Bool.and_eq_true, decide_eq_true_eq,
    and_assoc]

theorem State.construct_of_legal {c : Config} (h : c.legal = true) : State.construct c = .ok (State.powerOn c) :=
  if_pos h

theorem State.construct_of_not_legal {c : Config} (h : ¬ c.legal = true) :
    State.construct c = .error .badConfiguration := if_neg h

/-- Settles O60: the constraints are exactly `legal`, and `construct` branches on it. -/
theorem badConfigurationRefused : Obligations.BadConfigurationRefused := by
  intro c
  constructor
  · intro hbad
    exact State.construct_of_not_legal fun hlegal => hbad ((Config.legal_iff c).1 hlegal)
  · intro hlegal
    exact ⟨State.powerOn c, State.construct_of_legal hlegal, rfl⟩

/-! ## What no step undoes -/

/-- From `s` to `t` nothing is undone: parameters and segment table are the same, `halted` is not cleared, the pid
counter has not gone down, and `TERMINATED` has only grown at its end. -/
structure State.KeepsHistory (s t : State) : Prop where
  cfg : t.cfg = s.cfg
  seg : t.seg = s.seg
  halted : s.halted = true → t.halted = true
  nextPid : s.nextPid ≤ t.nextPid
  terminated : s.terminated <+: t.terminated

namespace State.KeepsHistory

/-- An update that does not write the five fields; for a record update each hypothesis is `rfl`. -/
theorem of_eq {s t : State} (cfg : t.cfg = s.cfg := by rfl) (seg : t.seg = s.seg := by rfl)
    (halted : t.halted = s.halted := by rfl) (nextPid : t.nextPid = s.nextPid := by rfl)
    (terminated : t.terminated = s.terminated := by rfl) : s.KeepsHistory t :=
  ⟨cfg, seg, fun h => halted.trans h, Nat.le_of_eq nextPid.symm, [], by rw [terminated, List.append_nil]⟩

theorem refl (s : State) : s.KeepsHistory s := .of_eq

theorem trans {s t u : State} (h : s.KeepsHistory t) (h' : t.KeepsHistory u) : s.KeepsHistory u :=
  ⟨h'.cfg.trans h.cfg, h'.seg.trans h.seg, h'.halted ∘ h.halted, Nat.le_trans h.nextPid h'.nextPid,
    h.terminated.trans h'.terminated⟩

/-- The CPU's frame is more than is asked here. -/
theorem of_sameEngine {s t : State} (h : SameEngine s t) : s.KeepsHistory t := by
  obtain ⟨hcfg, hseg, _, _, _, _, hterm, hpid, _, _, _, hhalt⟩ := h
  exact .of_eq hcfg hseg hhalt hpid hterm

/-- A PCB that goes to the end of `TERMINATED`. -/
theorem append_terminated (s : State) (q : Pcb) : s.KeepsHistory { s with terminated := s.terminated ++ [q] } :=
  ⟨rfl, rfl, id, Nat.le_refl _, [q], rfl⟩

/-- A handler's loop keeps what each round keeps. -/
theorem foldl {α : Type} {f : State → α → State} (hf : ∀ (s : State) (x : α), s.KeepsHistory (f s x)) (xs : List α)
    (s : State) : s.KeepsHistory (xs.foldl f s) := by
  induction xs generalizing s with
  | nil => exact .refl s
  | cons x xs ih => exact (hf s x).trans (ih (f s x))

end State.KeepsHistory

/-! ### The memory manager -/

theorem State.keepsHistory_vacate (s : State) (p : Pcb) : s.KeepsHistory (s.vacate p) := by
  rcases s.vacate_cases p with ⟨i, g, _, _, h⟩ | ⟨_, h⟩ <;> rw [h] <;> exact .of_eq

theorem State.keepsHistory_evacuate (s : State) (p : Pcb) : s.KeepsHistory (s.evacuate p).2 := by
  rcases s.evacuate_cases p with ⟨_, h⟩ | ⟨_, h⟩ <;> rw [h]
  · exact s.keepsHistory_vacate p
  · exact .refl s

theorem State.keepsHistory_of_place {s t : State} {program : List Byte} {i : Nat}
    (h : s.place program = .ok (i, t)) : s.KeepsHistory t := by
  obtain ⟨_, g, _, rfl⟩ := State.place_ok.1 h
  exact .of_eq

theorem State.keepsHistory_of_load {s t : State} {program : List Byte} {pid : Nat} {p : Pcb}
    (h : s.load program pid = .ok (p, t)) : s.KeepsHistory t := by
  obtain ⟨i, u, hplace, _, rfl⟩ := State.load_ok h
  exact (keepsHistory_of_place hplace).trans .of_eq

theorem State.keepsHistory_of_loadFromPcb {s t : State} {program : List Byte} {p q : Pcb}
    (h : s.loadFromPcb p program = .ok (q, t)) : s.KeepsHistory t := by
  obtain ⟨i, u, hplace, _, rfl⟩ := State.loadFromPcb_ok h
  exact (keepsHistory_of_place hplace).trans .of_eq

/-! ### Residency and readiness -/

theorem State.keepsHistory_of_placeProgram {s t : State} {program : List Byte} {pid : Nat} {p : Pcb}
    (h : s.placeProgram program pid = .ok (p, t)) : s.KeepsHistory t := by
  rcases State.placeProgram_ok h with ⟨_, d, _, _, rfl⟩ | ⟨_, hload⟩
  · exact .of_eq
  · exact keepsHistory_of_load hload

/-- The only place where the pid counter moves: it goes up by one (45_context_switch.md R103). -/
theorem State.keepsHistory_of_requestResidency {s t : State} {program : List Byte} {priority : Option Int} {pid : Nat}
    (h : s.requestResidency program priority = .ok (pid, t)) : s.KeepsHistory t := by
  obtain ⟨_, p, u, hplace, rfl⟩ := State.requestResidency_ok h
  have hu := keepsHistory_of_placeProgram hplace
  exact ⟨hu.cfg, hu.seg, hu.halted, Nat.le_succ _, hu.terminated⟩

theorem State.keepsHistory_of_requestCpuExecution {s t : State} {pid : Nat}
    (h : s.requestCpuExecution pid = some t) : s.KeepsHistory t := by
  obtain ⟨p, _, rfl⟩ := State.requestCpuExecution_some h
  exact .of_eq

/-! ### Termination -/

theorem State.keepsHistory_reclaimSwap (s : State) (pid : Nat) : s.KeepsHistory (s.reclaimSwap pid) := by
  rcases s.reclaimSwap_cases pid with ⟨_, h⟩ | ⟨_, img, d, _, h⟩ | ⟨e, _, h⟩ <;> rw [h] <;> exact .of_eq

theorem State.keepsHistory_reclaim (s : State) (p : Pcb) : s.KeepsHistory (s.reclaim p).2 := by
  rcases s.reclaim_cases p with ⟨_, h⟩ | ⟨_, h⟩ | ⟨_, h⟩ <;> rw [h]
  · exact s.keepsHistory_evacuate p
  · exact s.keepsHistory_reclaimSwap p.pid
  · exact .refl s

theorem State.keepsHistory_forgetQuantum (s : State) (pid : Nat) : s.KeepsHistory (s.forgetQuantum pid) := by
  rcases s.forgetQuantum_cases pid with ⟨_, h⟩ | ⟨_, h⟩ <;> rw [h] <;> exact .of_eq

/-- A termination appends to `TERMINATED`, after the reclamation and before the CPU's reset and the report (R116). -/
theorem State.keepsHistory_finishTermination (s : State) (p : Pcb) (wasExec : Bool) :
    s.KeepsHistory (s.finishTermination p wasExec) := by
  have hreclaim := (s.setCpu { s.cpu with isExecuting := false }).keepsHistory_reclaim { p with status := .terminated }
  unfold State.finishTermination
  generalize (s.setCpu { s.cpu with isExecuting := false }).reclaim { p with status := .terminated } = r at hreclaim ⊢
  obtain ⟨q, t⟩ := r
  have happend := KeepsHistory.append_terminated t q
  dsimp only at hreclaim ⊢
  generalize ({ t with terminated := t.terminated ++ [q] } : State) = u at happend ⊢
  have hreset : u.KeepsHistory (if wasExec then u.cpuReset else u) := by cases wasExec <;> exact .of_eq
  have hforget := keepsHistory_forgetQuantum (if wasExec then u.cpuReset else u) p.pid
  exact (KeepsHistory.trans .of_eq hreclaim).trans (happend.trans (hreset.trans (hforget.trans .of_eq)))

theorem State.keepsHistory_of_terminate {s t : State} {pid : Nat} (h : s.terminate pid = some t) :
    s.KeepsHistory t := by
  rcases State.terminate_some h with ⟨p, _, _, rfl⟩ | ⟨_, p, _, rfl⟩
  · exact .trans .of_eq (keepsHistory_finishTermination { s with executing := none } p true)
  · exact .trans .of_eq (keepsHistory_finishTermination { s with ready := removePid pid s.ready } p false)

/-! ### Roll-out and roll-in -/

theorem State.keepsHistory_of_rollOut {s t : State} {v : Pcb} (h : s.rollOut v = .ok t) : s.KeepsHistory t := by
  obtain ⟨w, image, u, d, hdequeue, _, rfl⟩ := State.rollOut_ok h
  obtain ⟨i, g, _, _, _, _, _, rfl⟩ := State.dequeueDiskCandidate_ok hdequeue
  exact (s.keepsHistory_vacate v).trans .of_eq

theorem State.keepsHistory_of_makeRoom {s t : State} (h : s.makeRoom = .ok t) : s.KeepsHistory t := by
  rcases State.makeRoom_ok h with ⟨_, rfl⟩ | ⟨_, v, _, hroll⟩
  · exact .refl t
  · exact keepsHistory_of_rollOut hroll

theorem State.keepsHistory_of_loadImage {s t : State} {h h' : Pcb} (hl : s.loadImage h = .ok (h', t)) :
    s.KeepsHistory t := by
  obtain ⟨img, d, _, hload⟩ := State.loadImage_ok hl
  exact .trans (t := { s with disk := d }) .of_eq (keepsHistory_of_loadFromPcb hload)

/-- The state a roll-in leaves, however it ended. -/
def RollIn.state : RollIn → State
  | .ok _ t => t
  | .failKeep t => t
  | .failDrop t => t

@[simp] theorem RollIn.state_ok (h : Pcb) (t : State) : (RollIn.ok h t).state = t := rfl
@[simp] theorem RollIn.state_failKeep (t : State) : (RollIn.failKeep t).state = t := rfl
@[simp] theorem RollIn.state_failDrop (t : State) : (RollIn.failDrop t).state = t := rfl

theorem State.keepsHistory_rollInDrop (s : State) (h : Pcb) : s.KeepsHistory (s.rollInDrop h).state := by
  rw [State.rollInDrop, RollIn.state_failDrop]
  refine .trans (t := s.report (.rollInFailed h.pid .imageLost)) .of_eq ?_
  cases ht : (s.report (.rollInFailed h.pid .imageLost)).terminate h.pid with
  | none => exact .refl _
  | some t => exact keepsHistory_of_terminate ht

theorem State.keepsHistory_rollIn (s : State) (h : Pcb) : s.KeepsHistory (s.rollIn h).state := by
  rcases s.rollIn_cases h with ⟨_, hr⟩ | ⟨_, why, hr⟩ | ⟨_, t, h', u, hroom, himage, hr⟩ <;> rw [hr]
  · exact s.keepsHistory_rollInDrop h
  · exact .of_eq
  · exact (keepsHistory_of_makeRoom hroom).trans (keepsHistory_of_loadImage himage)

theorem State.keepsHistory_of_rollIn_fail {s t : State} {h : Pcb}
    (hr : s.rollIn h = .failKeep t ∨ s.rollIn h = .failDrop t) : s.KeepsHistory t := by
  have hs := s.keepsHistory_rollIn h
  rcases hr with hr | hr
  · simpa only [hr, RollIn.state_failKeep] using hs
  · simpa only [hr, RollIn.state_failDrop] using hs

theorem State.keepsHistory_of_rollIn_ok {s t : State} {h h' : Pcb} (hr : s.rollIn h = .ok h' t) :
    s.KeepsHistory t := by
  simpa only [hr, RollIn.state_ok] using s.keepsHistory_rollIn h

/-! ### Dispatch -/

theorem State.keepsHistory_startProcess (s : State) (h : Pcb) : s.KeepsHistory (s.startProcess h) := .of_eq

theorem State.keepsHistory_nextProcess (s : State) : s.KeepsHistory s.nextProcess := by
  rcases s.nextProcess_cases with ⟨h, _⟩ | ⟨q, _, _, _, _, h⟩ | ⟨q, _, _, _, _, ⟨t, hr, h⟩ | ⟨q', t, hr, h⟩⟩ <;> rw [h]
  · exact .refl s
  · exact s.keepsHistory_startProcess q
  · exact keepsHistory_of_rollIn_fail hr
  · exact (keepsHistory_of_rollIn_ok hr).trans (t.keepsHistory_startProcess q')

theorem State.keepsHistory_switchToHead {s : State} {q : Pcb} {rest : List Pcb} (hq : s.ready = q :: rest) (c : Pcb) :
    s.KeepsHistory (s.switchToHead c) := by
  rcases State.switchToHead_cases hq c with ⟨_, h⟩ | ⟨_, t, hr, h⟩ | ⟨_, q', t, hr, h⟩ <;> rw [h]
  · exact .of_eq
  · exact (keepsHistory_of_rollIn_fail hr).trans .of_eq
  · exact (keepsHistory_of_rollIn_ok hr).trans .of_eq

theorem State.keepsHistory_contextSwitch (s : State) : s.KeepsHistory s.contextSwitch := by
  rcases s.contextSwitch_cases with ⟨_, h⟩ | ⟨p, _, _, h⟩ | ⟨p, _, _, h⟩ <;> rw [h]
  · exact .refl s
  · exact .of_eq
  · obtain ⟨q, rest, hq⟩ := s.requeue_ready (p.serialized s.cpu)
    exact .trans (t := s.requeue (p.serialized s.cpu)) .of_eq (keepsHistory_switchToHead hq _)

/-! ### The kernel's handlers -/

theorem State.keepsHistory_handleLoad (s : State) (program : List Byte) (priority : Option Int) :
    s.KeepsHistory (s.handleLoad program priority) := by
  unfold State.handleLoad
  split
  next e _ => exact .of_eq
  next pid t ht => exact (keepsHistory_of_requestResidency ht).trans .of_eq

theorem State.keepsHistory_handleRun (s : State) (pid : Nat) : s.KeepsHistory (s.handleRun pid) := by
  unfold State.handleRun
  split
  next => exact .of_eq
  next t ht => exact keepsHistory_of_requestCpuExecution ht

theorem State.keepsHistory_handleTerminate (s : State) (pid : Nat) : s.KeepsHistory (s.handleTerminate pid) := by
  unfold State.handleTerminate
  split
  next => exact .of_eq
  next t ht => exact keepsHistory_of_terminate ht

theorem State.keepsHistory_clearOne (s : State) (pid : Nat) : s.KeepsHistory (s.clearOne pid) := by
  unfold State.clearOne
  split
  next t ht => exact keepsHistory_of_terminate ht
  next =>
    split
    next => exact .refl s
    next p _ =>
      have hevacuate := State.keepsHistory_evacuate { s with resident := removePid pid s.resident }
        { p with status := .terminated }
      exact (KeepsHistory.trans .of_eq hevacuate).trans (.append_terminated _ _)

theorem State.keepsHistory_handleRunAll (s : State) : s.KeepsHistory s.handleRunAll := by
  refine .foldl (fun t pid => ?_) _ s
  cases ht : t.requestCpuExecution pid with
  | none => exact .refl t
  | some u => exact keepsHistory_of_requestCpuExecution ht

/-- The only place where `halted` is written: it is set (60_exceptions.md R162). -/
theorem State.keepsHistory_fatalTrap (s : State) (r : Interrupt) : s.KeepsHistory (s.fatalTrap r) :=
  ⟨rfl, rfl, fun _ => rfl, Nat.le_refl _, [], List.append_nil _⟩

theorem State.keepsHistory_finishFs (s : State) (request : FsRequest) (r : Except FsError Disk) :
    s.KeepsHistory (s.finishFs request r) := by
  cases r <;> exact .of_eq

theorem State.keepsHistory_handleFileSystem (s : State) (request : FsRequest) :
    s.KeepsHistory (s.handleFileSystem request) := by
  cases request with
  | read name =>
    simp only [State.handleFileSystem]
    split <;> exact .of_eq
  | unrecognized n => exact s.keepsHistory_fatalTrap _
  | format => exact s.keepsHistory_finishFs .format (.ok s.disk.format)
  | create name => exact s.keepsHistory_finishFs _ _
  | write name data => exact s.keepsHistory_finishFs _ _
  | delete name => exact s.keepsHistory_finishFs _ _

theorem State.keepsHistory_handle (s : State) (r : Interrupt) : s.KeepsHistory (s.handle r) := by
  cases r with
  | timer => exact .refl s
  | keyboard data => exact .refl s
  | loadProgram program priority => exact s.keepsHistory_handleLoad program priority
  | runProgram pid => exact s.keepsHistory_handleRun pid
  | breakProgram pid => exact s.keepsHistory_handleTerminate pid
  | errProgram pid => exact s.keepsHistory_handleTerminate pid
  | killProgram pid => exact s.keepsHistory_handleTerminate pid
  | requestClearMemory => exact .foldl State.keepsHistory_clearOne _ s
  | contextSwitch => exact s.keepsHistory_contextSwitch
  | runAllPrograms => exact s.keepsHistory_handleRunAll
  | fileSystem request => exact s.keepsHistory_handleFileSystem request
  | unrecognized code => exact s.keepsHistory_fatalTrap _

/-! ### The cycle and the tick -/

theorem keepsHistory_of_exec {i : Instr} {s t : State} (h : exec i s = .next t) : s.KeepsHistory t := by
  rcases exec_cases i s with ⟨r, k, he, _⟩ | ⟨addr, a, v, _, _, he⟩ | ⟨c, he⟩ | ⟨_, he⟩ <;> rw [he] at h <;> cases h
  · exact .of_eq
  · exact .of_eq
  · exact .of_sameEngine (s.takeFault_frame c).1
  · exact .of_sameEngine s.takeBreak_frame.1

theorem State.keepsHistory_restoreIfFresh (s : State) : s.KeepsHistory s.restoreIfFresh := by
  rcases s.restoreIfFresh_cases with ⟨h, _⟩ | ⟨p, _, _, h⟩ <;> rw [h]
  · exact .refl s
  · exact .of_eq

theorem keepsHistory_of_cycle {s t : State} (h : cycle s = .next t) : s.KeepsHistory t := by
  refine s.keepsHistory_restoreIfFresh.trans ?_
  rcases cycle_cases s with ⟨c, _, hc⟩ | ⟨i, op, last, _, hc⟩ <;> rw [hc] at h
  · cases h
    exact .of_sameEngine (s.restoreIfFresh.takeFault_frame c).1
  · exact .trans (t := s.restoreIfFresh.atExecute op last) .of_eq (keepsHistory_of_exec h)

theorem State.keepsHistory_policyAfterInstruction (s : State) (pid : Nat) :
    s.KeepsHistory (s.policyAfterInstruction pid) := by
  rcases s.policyAfterInstruction_cases pid with ⟨_, h⟩ | ⟨_, _, h⟩ | ⟨_, _, h⟩ <;> rw [h] <;> exact .of_eq

theorem State.keepsHistory_afterCycle (s : State) (pid : Nat) : s.KeepsHistory (s.afterCycle pid) := by
  have hstats : s.KeepsHistory s.updateStats := .of_eq
  rcases s.afterCycle_cases pid with ⟨_, h⟩ | ⟨_, h⟩ <;> rw [h]
  · exact hstats.trans (s.updateStats.keepsHistory_policyAfterInstruction pid)
  · exact hstats

/-- An instruction tick with a next state is a cycle with one, and what follows it (60_exceptions.md R147). -/
theorem instructionTick_next {s t : State} {pid : Nat} (h : instructionTick s pid = .next t) :
    ∃ u, cycle s = .next u ∧ t = u.afterCycle pid := by
  unfold instructionTick at h
  split at h
  next u hu => cases h; exact ⟨u, hu, rfl⟩
  next => cases h
  next => cases h

/-- Every tick keeps what is never undone. -/
theorem keepsHistory_of_step {s t : State} (h : step s = .next t) : s.KeepsHistory t := by
  rw [step] at h
  rcases tickStep_cases s with ⟨_, hs⟩ | ⟨r, rest, _, _, hs⟩ | ⟨_, _, _, hs⟩ | ⟨p, _, _, _, hs⟩ <;> rw [hs] at h
  · cases h
    exact .refl s
  · cases h
    exact .trans (t := { s with intq := rest }) .of_eq (State.keepsHistory_handle _ r)
  · cases h
    exact s.keepsHistory_nextProcess
  · obtain ⟨u, hcycle, rfl⟩ := instructionTick_next h
    exact (s.keepsHistory_nextProcess.trans (keepsHistory_of_cycle hcycle)).trans (u.keepsHistory_afterCycle p.pid)

/-- Settles O27, by the case split of the tick: the record's handler, `next()`, or a cycle and its accounting. -/
theorem parametersAndHistoryKept : Obligations.ParametersAndHistoryKept := by
  intro s t h
  obtain ⟨hcfg, hseg, hhalted, hpid, hterm⟩ := keepsHistory_of_step h
  exact ⟨hcfg, hseg, hhalted, hpid, hterm⟩

end Sys2Proof.Machine
end

section
/-! PROOF. The machine after construction (O56, O57), what an instruction leaves as it was (O21, O22), and what a tick
does to the byte store (O52). -/

namespace Sys2Proof.Machine

/-! ## After construction (10_state.md R33) -/

theorem State.powerOn_memoryOk {c : Config} (h : c.legal = true) : (State.powerOn c).memoryOk :=
  ⟨h, rfl, rfl, by simp [State.powerOn]⟩

theorem State.powerOn_diskOk {c : Config} (h : c.legal = true) : (State.powerOn c).diskOk :=
  ⟨h, rfl, by simp [State.powerOn]⟩

theorem State.powerOn_handshakeOk (c : Config) : (State.powerOn c).handshakeOk := by
  simp [State.handshakeOk, State.powerOn]

/-- A legal quantum is not zero, so that the count of a machine that has run nothing is below it. -/
theorem State.powerOn_quantumOk {c : Config} (h : c.legal = true) : (State.powerOn c).quantumOk := by
  obtain ⟨_, _, _, hquantum, _⟩ := (Config.legal_iff c).1 h
  exact ⟨hquantum, fun _ => rfl⟩

/-- There is no PCB yet, and no segment is occupied. -/
theorem State.powerOn_processesOk (c : Config) : (State.powerOn c).processesOk := by
  simp +contextual [State.processesOk, State.powerOn, State.allPcbs, State.live]

theorem State.powerOn_freeSegmentsZero (c : Config) : (State.powerOn c).freeSegmentsZero :=
  fun _ _ _ _ a _ _ => Memory.read_nil a

/-- Settles O56, one lemma for each invariant. -/
theorem powerOnMeetsInvariants : Obligations.PowerOnMeetsInvariants := by
  refine ⟨fun c h => ?_, by decide, rfl⟩
  exact ⟨State.powerOn_memoryOk h, State.powerOn_diskOk h, State.powerOn_handshakeOk c, State.powerOn_quantumOk h,
    State.powerOn_processesOk c, State.powerOn_freeSegmentsZero c⟩

/-- Settles O57: each field of `State.reset` is written out in `State.powerOn`. -/
theorem resetValues : Obligations.ResetValues :=
  ⟨rfl, Memory.read_nil, rfl, rfl, rfl, rfl, rfl, rfl, rfl, rfl, rfl, rfl, rfl, rfl, rfl, rfl⟩

/-! ## What an instruction leaves as it was -/

/-- The translator answers the byte an address names (20_memory.md R39). -/
theorem State.translate_of_names {s : State} {k a : Nat} (h : s.Names k a) : s.translate k = .ok a := by
  obtain ⟨g, hg, hk, rfl, _⟩ := State.names_iff.1 h
  simp [State.translate, hg, hk]

/-- A trap sends one display snapshot, of the CPU already reset (40_cycle.md R77). -/
theorem State.takeTrap_display (s : State) (record : Nat → Interrupt) (r : CycleResult) :
    (s.takeTrap record r).display = s.display ++ [{ cpu := Cpu.initial, pcb := s.executing }] := by
  unfold State.takeTrap
  cases s.executingPid <;> rfl

theorem State.takeFault_display (s : State) (c : FaultCause) :
    (s.takeFault c).display = s.display ++ [{ cpu := Cpu.initial, pcb := s.executing }] :=
  State.takeTrap_display _ _ _

theorem State.takeBreak_display (s : State) :
    s.takeBreak.display = s.display ++ [{ cpu := Cpu.initial, pcb := s.executing }] :=
  State.takeTrap_display _ _ _

/-- The fault path reports its error text (40_cycle.md R75). -/
theorem State.takeFault_console (s : State) (c : FaultCause) :
    (s.takeFault c).console = s.console ++ [.putSystemText (.executionFault c s.executingPid)] := by
  obtain ⟨_, _, _, _, hconsole, _, _⟩ :=
    State.takeTrap_frame (s.report (.executionFault c s.executingPid)) .errProgram (.fault c)
  exact hconsole

/-- A trap enqueues the record of the executing process, or none when no process is executing. -/
theorem State.trapRecord_cases (s : State) (record : Nat → Interrupt) :
    (s.executingPid.toList.map record = []) ∨
      ∃ p, s.executing = some p ∧ s.executingPid.toList.map record = [record p.pid] := by
  cases hp : s.executing with
  | none => simp [State.executingPid, hp]
  | some p => exact .inr ⟨p, rfl, by simp [State.executingPid, hp]⟩

/-- `exec_cases` for a given next state: it is a completed state with registers changed and, for SYS, one text printed;
one with a byte of the own segment stored; the fault path; or, for BRK only, the break path. -/
theorem exec_next_cases {i : Instr} {s t : State} (h : exec i s = .next t) :
    (∃ r k, t = Completed s r s.mem k ∧ r.ir = s.cpu.ir ∧ r.isExecuting = s.cpu.isExecuting ∧
      ((∀ addr, i ≠ .cpx addr) → r.z = s.cpu.z) ∧
      (k = s.console ∨ i = .sys ∧ ∃ text, k = s.console ++ [.putText text])) ∨
    (∃ addr a v, (i = .sta addr ∨ i = .inc addr) ∧ s.Names addr.toNat a ∧
      t = Completed s s.cpu (Memory.write s.mem a v) s.console) ∨
    (∃ c, t = s.takeFault c) ∨
    (i = .brk ∧ t = s.takeBreak) := by
  rcases exec_cases i s with ⟨r, k, he, hr⟩ | ⟨addr, a, v, hi, ha, he⟩ | ⟨c, he⟩ | ⟨hi, he⟩ <;> rw [he] at h <;> cases h
  · exact .inl ⟨r, k, rfl, hr⟩
  · exact .inr (.inl ⟨addr, a, v, hi, ha, rfl⟩)
  · exact .inr (.inr (.inl ⟨c, rfl⟩))
  · exact .inr (.inr (.inr ⟨hi, rfl⟩))

/-- The engine stays, the executing PCB stays or has the live registers mirrored into it, one snapshot is sent
(40_cycle.md R73 to R77). -/
theorem exec_keeps_engine {i : Instr} {s t : State} (h : exec i s = .next t) :
    SameEngine s t ∧ (t.executing = s.executing ∨ t.executing = s.executing.map fun p => mirrored p t.cpu) ∧
      ∃ snap, t.display = s.display ++ [snap] := by
  have completed : ∀ r m k, SameEngine s (Completed s r m k) := fun _ _ _ => by simp [SameEngine, Completed]
  rcases exec_next_cases h with ⟨r, k, rfl, _⟩ | ⟨addr, a, v, _, _, rfl⟩ | ⟨c, rfl⟩ | ⟨_, rfl⟩
  · exact ⟨completed _ _ _, .inr rfl, _, rfl⟩
  · exact ⟨completed _ _ _, .inr rfl, _, rfl⟩
  · obtain ⟨hengine, _, hexec, _⟩ := s.takeFault_frame c
    exact ⟨hengine, .inl hexec, _, s.takeFault_display c⟩
  · obtain ⟨hengine, _, hexec, _⟩ := s.takeBreak_frame
    exact ⟨hengine, .inl hexec, _, s.takeBreak_display⟩

/-- The byte store stays, or STA or INC has written the byte its operand names (41_load_store.md R83,
42_arith_compare.md R90). -/
theorem exec_mem_cases {i : Instr} {s t : State} (h : exec i s = .next t) :
    t.mem = s.mem ∨ ∃ addr a v, (i = .sta addr ∨ i = .inc addr) ∧ s.Names addr.toNat a ∧
      t.mem = Memory.write s.mem a v := by
  rcases exec_next_cases h with ⟨r, k, rfl, _⟩ | ⟨addr, a, v, hi, ha, rfl⟩ | ⟨c, rfl⟩ | ⟨_, rfl⟩
  · exact .inl rfl
  · exact .inr ⟨addr, a, v, hi, ha, rfl⟩
  · obtain ⟨_, hmem, _⟩ := s.takeFault_frame c
    exact .inl hmem
  · obtain ⟨_, hmem, _⟩ := s.takeBreak_frame
    exact .inl hmem

/-- Only STA and INC write the byte store. -/
theorem exec_mem_of_not_store {i : Instr} {s t : State} (h : exec i s = .next t)
    (hi : ∀ addr, i ≠ .sta addr ∧ i ≠ .inc addr) : t.mem = s.mem := by
  rcases exec_mem_cases h with hmem | ⟨addr, _, _, hstore, _⟩
  · exact hmem
  · obtain ⟨hsta, hinc⟩ := hi addr
    exact absurd hstore (not_or.2 ⟨hsta, hinc⟩)

/-- STA and INC write no byte but the one their operand translates to. -/
theorem exec_store_reads {i : Instr} {s t : State} {addr : Addr} (h : exec i s = .next t)
    (hi : i = .sta addr ∨ i = .inc addr) (hwf : Memory.wf s.mem = true) {b : Nat}
    (hb : s.translate (absLogical addr) ≠ .ok b) : Memory.read t.mem b = Memory.read s.mem b := by
  rcases exec_mem_cases h with hmem | ⟨addr', a, v, hi', ha, hmem⟩
  · rw [hmem]
  · have haddr : addr' = addr := by rcases hi with rfl | rfl <;> simpa [eq_comm] using hi'
    subst haddr
    have hba : b ≠ a := fun hba => hb (hba ▸ State.translate_of_names ha)
    rw [hmem, Memory.read_write hwf, if_neg hba]

/-- The interrupt queue stays, or has one record of the executing process at its end: `BREAK_PROGRAM` for BRK,
`ERR_PROGRAM` for a fault (43_control.md R96, 40_cycle.md R75). -/
theorem exec_intq_cases {i : Instr} {s t : State} (h : exec i s = .next t) :
    t.intq = s.intq ∨ ∃ p, s.executing = some p ∧
      (i = .brk ∧ t.intq = s.intq ++ [.breakProgram p.pid] ∨
       (∃ c, t.cycleResult = some (.fault c)) ∧ t.intq = s.intq ++ [.errProgram p.pid]) := by
  rcases exec_next_cases h with ⟨r, k, rfl, _⟩ | ⟨addr, a, v, _, _, rfl⟩ | ⟨c, rfl⟩ | ⟨hi, rfl⟩
  · exact .inl rfl
  · exact .inl rfl
  · obtain ⟨_, _, _, _, hresult, hintq⟩ := s.takeFault_frame c
    rcases s.trapRecord_cases .errProgram with hnone | ⟨p, hp, hrecord⟩
    · exact .inl (by rw [hintq, hnone, List.append_nil])
    · exact .inr ⟨p, hp, .inr ⟨⟨c, hresult⟩, by rw [hintq, hrecord]⟩⟩
  · obtain ⟨_, _, _, _, _, _, hintq⟩ := s.takeBreak_frame
    rcases s.trapRecord_cases .breakProgram with hnone | ⟨p, hp, hrecord⟩
    · exact .inl (by rw [hintq, hnone, List.append_nil])
    · exact .inr ⟨p, hp, .inl ⟨hi, by rw [hintq, hrecord]⟩⟩

/-- The console stays, or has at its end the one text of SYS or the error text of a fault (44_system.md R99,
40_cycle.md R75). -/
theorem exec_console_cases {i : Instr} {s t : State} (h : exec i s = .next t) :
    t.console = s.console ∨ (i = .sys ∧ ∃ text, t.console = s.console ++ [.putText text]) ∨
      ∃ c, t.cycleResult = some (.fault c) ∧
        t.console = s.console ++ [.putSystemText (.executionFault c (s.executing.map (·.pid)))] := by
  rcases exec_next_cases h with ⟨r, k, rfl, _, _, _, hk⟩ | ⟨addr, a, v, _, _, rfl⟩ | ⟨c, rfl⟩ | ⟨_, rfl⟩
  · exact hk.imp_right .inl
  · exact .inl rfl
  · obtain ⟨_, _, _, _, hresult, _⟩ := s.takeFault_frame c
    exact .inr (.inr ⟨c, hresult, s.takeFault_console c⟩)
  · obtain ⟨_, _, _, _, hconsole, _⟩ := s.takeBreak_frame
    exact .inl hconsole

/-- Settles O21, part by part: engine, byte store, interrupt queue, console. -/
theorem instructionFrame : Obligations.InstructionFrame := by
  intro i s t h
  obtain ⟨hengine, hexec, hdisplay⟩ := exec_keeps_engine h
  exact ⟨hengine, hexec, hdisplay, exec_mem_of_not_store h, fun _ hi hwf _ hb => exec_store_reads h hi hwf hb,
    exec_intq_cases h, exec_console_cases h⟩

/-- What an execute step does to the registers: a completing one keeps `IR` and `isExecuting`, and `Z` but for CPX; a
trap zeroes them all (10_state.md R19, R23, 40_cycle.md R77). -/
theorem exec_cpu_cases {i : Instr} {s t : State} (h : exec i s = .next t) :
    (t.cycleResult = some .ok ∧ ((∀ addr, i ≠ .cpx addr) → t.cpu.z = s.cpu.z) ∧ t.cpu.ir = s.cpu.ir ∧
      t.cpu.isExecuting = s.cpu.isExecuting) ∨
    (t.cycleResult ≠ some .ok ∧ t.cpu = zeroCpu) := by
  rcases exec_next_cases h with ⟨r, k, rfl, hir, hexec, hz, _⟩ | ⟨addr, a, v, _, _, rfl⟩ | ⟨c, rfl⟩ | ⟨_, rfl⟩
  · exact .inl ⟨rfl, hz, hir, hexec⟩
  · exact .inl ⟨rfl, fun _ => rfl, rfl, rfl⟩
  · obtain ⟨_, _, _, hcpu, hresult, _⟩ := s.takeFault_frame c
    exact .inr ⟨by simp [hresult], hcpu⟩
  · obtain ⟨_, _, _, hcpu, _, hresult, _⟩ := s.takeBreak_frame
    exact .inr ⟨by simp [hresult], hcpu⟩

/-- Settles O22: a completing instruction and a trap exclude each other by the cycle's result. -/
theorem onlyCompareWritesZ : Obligations.OnlyCompareWritesZ := by
  intro i s t h
  rcases exec_cpu_cases h with ⟨hok, hz, hir, hexec⟩ | ⟨htrap, hzero⟩
  · exact ⟨fun _ => ⟨hz, exec_mem_of_not_store h, hir, hexec⟩, fun hnot => absurd hok hnot⟩
  · exact ⟨fun hok => absurd hok htrap, fun _ => hzero⟩

end Sys2Proof.Machine
end

section
/-! PROOF. What a tick does to the byte store and the disk, said once as a chain of single operations, and that the
byte store stays canonical (O52). -/

namespace Sys2Proof.Machine

/-! ## The operations on the two stores -/

/-- `d'` is the disk `d` after one successful operation of the file-system controller (46_disk_fs.md R123 to R136). -/
inductive Disk.Op (c : Config) : Disk → Disk → Prop
  | format (d : Disk) : Op c d d.format
  | create {d d' : Disk} {name : List Byte} (h : d.createFile c name = .ok d') : Op c d d'
  | append {d d' : Disk} {name data : List Byte} (h : d.appendToFile c name data = .ok d') : Op c d d'
  | delete {d d' : Disk} {name : List Byte} (h : d.deleteFile c name = .ok d') : Op c d d'
  | swapOut {d d' : Disk} {image : List Byte} {pid : Nat} (h : d.swapLoad c image pid = .ok d') : Op c d d'
  | swapIn {d d' : Disk} {image : List Byte} {pid : Nat} (h : d.deleteSwap c pid = .ok (image, d')) : Op c d d'

/-- `t` is `s` after one operation on the byte store or the disk, or after any change that leaves the parameters, the
segment table, the occupancy map and both stores as they were. -/
inductive State.StoreOp : State → State → Prop
  | elsewhere {s t : State} (cfg : t.cfg = s.cfg) (seg : t.seg = s.seg) (occ : t.occ = s.occ) (mem : t.mem = s.mem)
      (disk : t.disk = s.disk) : StoreOp s t
  /-- The executing process stores the byte its logical address `k` names. -/
  | byte {s : State} {k a : Nat} (h : s.Names k a) (v : Byte) : StoreOp s (s.setMem (Memory.write s.mem a v))
  | place {s t : State} {program : List Byte} {i : Nat} (h : s.place program = .ok (i, t)) : StoreOp s t
  | vacate (s : State) (p : Pcb) : StoreOp s (s.vacate p)
  | disk {s : State} {d : Disk} (h : Disk.Op s.cfg s.disk d) : StoreOp s { s with disk := d }

/-- `t` is reached from `s` by a chain of such operations. -/
inductive State.StorePath : State → State → Prop
  | refl (s : State) : StorePath s s
  | tail {s t u : State} (path : StorePath s t) (last : t.StoreOp u) : StorePath s u

namespace State.StorePath

theorem op {s t : State} (h : s.StoreOp t) : s.StorePath t := .tail (.refl s) h

theorem trans {s t u : State} (h : s.StorePath t) (h' : t.StorePath u) : s.StorePath u := by
  induction h' with
  | refl => exact h
  | tail _ hop ih => exact .tail ih hop

/-- An update of other fields; for a record update each hypothesis is `rfl`. -/
theorem elsewhere {s t : State} (cfg : t.cfg = s.cfg := by rfl) (seg : t.seg = s.seg := by rfl)
    (occ : t.occ = s.occ := by rfl) (mem : t.mem = s.mem := by rfl) (disk : t.disk = s.disk := by rfl) :
    s.StorePath t :=
  op (.elsewhere cfg seg occ mem disk)

/-- The CPU's frame, with the byte store as it was. -/
theorem of_sameEngine {s t : State} (h : SameEngine s t) (mem : t.mem = s.mem) : s.StorePath t := by
  obtain ⟨hcfg, hseg, hocc, _, _, _, _, _, _, _, hdisk, _⟩ := h
  exact .elsewhere hcfg hseg hocc mem hdisk

/-- A handler's loop is a chain when each round is one. -/
theorem foldl {α : Type} {f : State → α → State} (hf : ∀ (s : State) (x : α), s.StorePath (f s x)) (xs : List α)
    (s : State) : s.StorePath (xs.foldl f s) := by
  induction xs generalizing s with
  | nil => exact .refl s
  | cons x xs ih => exact (hf s x).trans (ih (f s x))

/-- What each operation keeps, a chain of them keeps. -/
theorem keeps {P : State → Prop} (hP : ∀ s t : State, s.StoreOp t → P s → P t) {s t : State} (h : s.StorePath t)
    (hs : P s) : P t := by
  induction h with
  | refl => exact hs
  | tail _ hop ih => exact hP _ _ hop ih

end State.StorePath

/-! ## Every tick is such a chain -/

/-! ### The memory manager, residency and readiness -/

theorem State.storePath_evacuate (s : State) (p : Pcb) : s.StorePath (s.evacuate p).2 := by
  rcases s.evacuate_cases p with ⟨_, h⟩ | ⟨_, h⟩ <;> rw [h]
  · exact .op (.vacate s p)
  · exact .refl s

theorem State.storePath_of_load {s t : State} {program : List Byte} {pid : Nat} {p : Pcb}
    (h : s.load program pid = .ok (p, t)) : s.StorePath t := by
  obtain ⟨i, u, hplace, _, rfl⟩ := State.load_ok h
  exact (StorePath.op (.place hplace)).trans .elsewhere

theorem State.storePath_of_loadFromPcb {s t : State} {program : List Byte} {p q : Pcb}
    (h : s.loadFromPcb p program = .ok (q, t)) : s.StorePath t := by
  obtain ⟨i, u, hplace, _, rfl⟩ := State.loadFromPcb_ok h
  exact (StorePath.op (.place hplace)).trans .elsewhere

theorem State.storePath_of_placeProgram {s t : State} {program : List Byte} {pid : Nat} {p : Pcb}
    (h : s.placeProgram program pid = .ok (p, t)) : s.StorePath t := by
  rcases State.placeProgram_ok h with ⟨_, d, hswap, _, rfl⟩ | ⟨_, hload⟩
  · exact .op (.disk (.swapOut hswap))
  · exact storePath_of_load hload

theorem State.storePath_of_requestCpuExecution {s t : State} {pid : Nat}
    (h : s.requestCpuExecution pid = some t) : s.StorePath t := by
  obtain ⟨p, _, rfl⟩ := State.requestCpuExecution_some h
  exact .elsewhere

/-! ### Termination -/

theorem State.storePath_reclaimSwap (s : State) (pid : Nat) : s.StorePath (s.reclaimSwap pid) := by
  rcases s.reclaimSwap_cases pid with ⟨_, h⟩ | ⟨_, img, d, hswap, h⟩ | ⟨e, _, h⟩ <;> rw [h]
  · exact .refl s
  · exact .op (.disk (.swapIn hswap))
  · exact .elsewhere

theorem State.storePath_reclaim (s : State) (p : Pcb) : s.StorePath (s.reclaim p).2 := by
  rcases s.reclaim_cases p with ⟨_, h⟩ | ⟨_, h⟩ | ⟨_, h⟩ <;> rw [h]
  · exact s.storePath_evacuate p
  · exact s.storePath_reclaimSwap p.pid
  · exact .refl s

theorem State.storePath_forgetQuantum (s : State) (pid : Nat) : s.StorePath (s.forgetQuantum pid) := by
  rcases s.forgetQuantum_cases pid with ⟨_, h⟩ | ⟨_, h⟩ <;> rw [h]
  · exact .elsewhere
  · exact .refl s

/-- A termination touches the stores only by its reclamation (45_context_switch.md R116). -/
theorem State.storePath_finishTermination (s : State) (p : Pcb) (wasExec : Bool) :
    s.StorePath (s.finishTermination p wasExec) := by
  have hreclaim := (s.setCpu { s.cpu with isExecuting := false }).storePath_reclaim { p with status := .terminated }
  unfold State.finishTermination
  generalize (s.setCpu { s.cpu with isExecuting := false }).reclaim { p with status := .terminated } = r at hreclaim ⊢
  obtain ⟨q, t⟩ := r
  dsimp only at hreclaim ⊢
  generalize hu : (if wasExec then State.cpuReset { t with terminated := t.terminated ++ [q] }
    else { t with terminated := t.terminated ++ [q] }) = u
  have hreset : t.StorePath u := by subst hu; cases wasExec <;> exact .elsewhere
  exact (StorePath.trans .elsewhere hreclaim).trans
    (hreset.trans ((u.storePath_forgetQuantum p.pid).trans .elsewhere))

theorem State.storePath_of_terminate {s t : State} {pid : Nat} (h : s.terminate pid = some t) : s.StorePath t := by
  rcases State.terminate_some h with ⟨p, _, _, rfl⟩ | ⟨_, p, _, rfl⟩
  · exact .trans .elsewhere (storePath_finishTermination { s with executing := none } p true)
  · exact .trans .elsewhere (storePath_finishTermination { s with ready := removePid pid s.ready } p false)

/-! ### Roll-out and roll-in -/

/-- A roll-out zero-fills the victim's segment and writes its swap file (R109). -/
theorem State.storePath_of_rollOut {s t : State} {v : Pcb} (h : s.rollOut v = .ok t) : s.StorePath t := by
  obtain ⟨w, image, u, d, hdequeue, hswap, rfl⟩ := State.rollOut_ok h
  obtain ⟨i, g, _, _, _, _, _, rfl⟩ := State.dequeueDiskCandidate_ok hdequeue
  have hdisk : (s.vacate v).StorePath { s.vacate v with disk := d } := .op (.disk (.swapOut hswap))
  exact (StorePath.op (.vacate s v)).trans (hdisk.trans .elsewhere)

theorem State.storePath_of_makeRoom {s t : State} (h : s.makeRoom = .ok t) : s.StorePath t := by
  rcases State.makeRoom_ok h with ⟨_, rfl⟩ | ⟨_, v, _, hroll⟩
  · exact .refl t
  · exact storePath_of_rollOut hroll

theorem State.storePath_of_loadImage {s t : State} {h h' : Pcb} (hl : s.loadImage h = .ok (h', t)) :
    s.StorePath t := by
  obtain ⟨img, d, hswap, hload⟩ := State.loadImage_ok hl
  have hdisk : s.StorePath { s with disk := d } := .op (.disk (.swapIn hswap))
  exact hdisk.trans (storePath_of_loadFromPcb hload)

theorem State.storePath_rollInDrop (s : State) (h : Pcb) : s.StorePath (s.rollInDrop h).state := by
  rw [State.rollInDrop, RollIn.state_failDrop]
  refine .trans (t := s.report (.rollInFailed h.pid .imageLost)) .elsewhere ?_
  cases ht : (s.report (.rollInFailed h.pid .imageLost)).terminate h.pid with
  | none => exact .refl _
  | some t => exact storePath_of_terminate ht

theorem State.storePath_rollIn (s : State) (h : Pcb) : s.StorePath (s.rollIn h).state := by
  rcases s.rollIn_cases h with ⟨_, hr⟩ | ⟨_, why, hr⟩ | ⟨_, t, h', u, hroom, himage, hr⟩ <;> rw [hr]
  · exact s.storePath_rollInDrop h
  · exact .elsewhere
  · exact (storePath_of_makeRoom hroom).trans (storePath_of_loadImage himage)

theorem State.storePath_of_rollIn {s t : State} {h : Pcb} {r : RollIn} (hr : s.rollIn h = r) (ht : r.state = t) :
    s.StorePath t := by
  subst ht hr
  exact s.storePath_rollIn h

/-! ### Dispatch -/

theorem State.storePath_nextProcess (s : State) : s.StorePath s.nextProcess := by
  rcases s.nextProcess_cases with ⟨h, _⟩ | ⟨q, _, _, _, _, h⟩ | ⟨q, _, _, _, _, ⟨t, hr | hr, h⟩ | ⟨q', t, hr, h⟩⟩ <;>
    rw [h]
  · exact .refl s
  · exact .elsewhere
  · exact storePath_of_rollIn hr rfl
  · exact storePath_of_rollIn hr rfl
  · exact (storePath_of_rollIn hr rfl).trans .elsewhere

theorem State.storePath_switchToHead {s : State} {q : Pcb} {rest : List Pcb} (hq : s.ready = q :: rest) (c : Pcb) :
    s.StorePath (s.switchToHead c) := by
  rcases State.switchToHead_cases hq c with ⟨_, h⟩ | ⟨_, t, hr | hr, h⟩ | ⟨_, q', t, hr, h⟩ <;> rw [h]
  · exact .elsewhere
  · exact (storePath_of_rollIn hr rfl).trans .elsewhere
  · exact (storePath_of_rollIn hr rfl).trans .elsewhere
  · exact (storePath_of_rollIn hr rfl).trans .elsewhere

theorem State.storePath_contextSwitch (s : State) : s.StorePath s.contextSwitch := by
  rcases s.contextSwitch_cases with ⟨_, h⟩ | ⟨p, _, _, h⟩ | ⟨p, _, _, h⟩ <;> rw [h]
  · exact .refl s
  · exact .elsewhere
  · obtain ⟨q, rest, hq⟩ := s.requeue_ready (p.serialized s.cpu)
    exact .trans (t := s.requeue (p.serialized s.cpu)) .elsewhere (storePath_switchToHead hq _)

/-! ### The kernel's handlers -/

theorem State.storePath_handleLoad (s : State) (program : List Byte) (priority : Option Int) :
    s.StorePath (s.handleLoad program priority) := by
  unfold State.handleLoad
  split
  next e _ => exact .elsewhere
  next pid t ht =>
    obtain ⟨_, p, u, hplace, rfl⟩ := State.requestResidency_ok ht
    exact (storePath_of_placeProgram hplace).trans .elsewhere

theorem State.storePath_handleRun (s : State) (pid : Nat) : s.StorePath (s.handleRun pid) := by
  unfold State.handleRun
  split
  next => exact .elsewhere
  next t ht => exact storePath_of_requestCpuExecution ht

theorem State.storePath_handleTerminate (s : State) (pid : Nat) : s.StorePath (s.handleTerminate pid) := by
  unfold State.handleTerminate
  split
  next => exact .elsewhere
  next t ht => exact storePath_of_terminate ht

theorem State.storePath_clearOne (s : State) (pid : Nat) : s.StorePath (s.clearOne pid) := by
  unfold State.clearOne
  split
  next t ht => exact storePath_of_terminate ht
  next =>
    split
    next => exact .refl s
    next p _ =>
      have hevacuate := State.storePath_evacuate { s with resident := removePid pid s.resident }
        { p with status := .terminated }
      exact (StorePath.trans .elsewhere hevacuate).trans .elsewhere

theorem State.storePath_handleRunAll (s : State) : s.StorePath s.handleRunAll := by
  refine .foldl (fun t pid => ?_) _ s
  cases ht : t.requestCpuExecution pid with
  | none => exact .refl t
  | some u => exact storePath_of_requestCpuExecution ht

theorem State.storePath_finishFs (s : State) (request : FsRequest) {r : Except FsError Disk}
    (hr : ∀ d, r = .ok d → Disk.Op s.cfg s.disk d) : s.StorePath (s.finishFs request r) := by
  cases r with
  | error e => exact .elsewhere
  | ok d =>
    have hdisk : s.StorePath { s with disk := d } := .op (.disk (hr d rfl))
    exact hdisk.trans .elsewhere

theorem State.storePath_handleFileSystem (s : State) (request : FsRequest) :
    s.StorePath (s.handleFileSystem request) := by
  cases request with
  | read name =>
    simp only [State.handleFileSystem]
    split <;> exact .elsewhere
  | unrecognized n => exact .elsewhere
  | format =>
    exact s.storePath_finishFs .format (r := .ok s.disk.format) fun d h => by cases h; exact .format s.disk
  | create name => exact s.storePath_finishFs _ fun _ h => .create h
  | write name data => exact s.storePath_finishFs _ fun _ h => .append h
  | delete name => exact s.storePath_finishFs _ fun _ h => .delete h

theorem State.storePath_handle (s : State) (r : Interrupt) : s.StorePath (s.handle r) := by
  cases r with
  | timer => exact .refl s
  | keyboard data => exact .refl s
  | loadProgram program priority => exact s.storePath_handleLoad program priority
  | runProgram pid => exact s.storePath_handleRun pid
  | breakProgram pid => exact s.storePath_handleTerminate pid
  | errProgram pid => exact s.storePath_handleTerminate pid
  | killProgram pid => exact s.storePath_handleTerminate pid
  | requestClearMemory => exact .foldl State.storePath_clearOne _ s
  | contextSwitch => exact s.storePath_contextSwitch
  | runAllPrograms => exact s.storePath_handleRunAll
  | fileSystem request => exact s.storePath_handleFileSystem request
  | unrecognized code => exact .elsewhere

/-! ### The cycle and the tick -/

/-- An instruction touches the stores at most by one byte of its own segment. -/
theorem storePath_of_exec {i : Instr} {s t : State} (h : exec i s = .next t) : s.StorePath t := by
  obtain ⟨hengine, _, _⟩ := exec_keeps_engine h
  rcases exec_mem_cases h with hmem | ⟨addr, a, v, _, ha, hmem⟩
  · exact .of_sameEngine hengine hmem
  · have hbyte : s.StorePath (s.setMem (Memory.write s.mem a v)) := .op (.byte ha v)
    exact hbyte.trans (.of_sameEngine hengine hmem)

theorem storePath_of_cycle {s t : State} (h : cycle s = .next t) : s.StorePath t := by
  have hrestore : s.StorePath s.restoreIfFresh := by
    rcases s.restoreIfFresh_cases with ⟨hr, _⟩ | ⟨p, _, _, hr⟩ <;> rw [hr]
    · exact .refl s
    · exact .elsewhere
  refine hrestore.trans ?_
  rcases cycle_cases s with ⟨c, _, hc⟩ | ⟨i, op, last, _, hc⟩ <;> rw [hc] at h
  · cases h
    obtain ⟨hengine, hmem, _⟩ := s.restoreIfFresh.takeFault_frame c
    exact .of_sameEngine hengine hmem
  · exact .trans (t := s.restoreIfFresh.atExecute op last) .elsewhere (storePath_of_exec h)

theorem State.storePath_afterCycle (s : State) (pid : Nat) : s.StorePath (s.afterCycle pid) := by
  have hstats : s.StorePath s.updateStats := .elsewhere
  rcases s.afterCycle_cases pid with ⟨_, h⟩ | ⟨_, h⟩ <;> rw [h]
  · refine hstats.trans ?_
    rcases s.updateStats.policyAfterInstruction_cases pid with ⟨_, hp⟩ | ⟨_, _, hp⟩ | ⟨_, _, hp⟩ <;> rw [hp] <;>
      exact .elsewhere
  · exact hstats

/-- Every tick is a chain of single operations on the stores: what each of them keeps, a tick keeps. -/
theorem storePath_of_step {s t : State} (h : step s = .next t) : s.StorePath t := by
  rw [step] at h
  rcases tickStep_cases s with ⟨_, hs⟩ | ⟨r, rest, _, _, hs⟩ | ⟨_, _, _, hs⟩ | ⟨p, _, _, _, hs⟩ <;> rw [hs] at h
  · cases h
    exact .refl s
  · cases h
    exact .trans (t := { s with intq := rest }) .elsewhere (State.storePath_handle _ r)
  · cases h
    exact s.storePath_nextProcess
  · obtain ⟨u, hcycle, rfl⟩ := instructionTick_next h
    exact (s.storePath_nextProcess.trans (storePath_of_cycle hcycle)).trans (u.storePath_afterCycle p.pid)

/-! ## The byte store stays canonical -/

/-- The entry of the table at `i` is segment `i` of R37. -/
theorem segmentTable_getElem? {c : Config} {i : Nat} {g : Segment} (h : (segmentTable c)[i]? = some g) :
    i < c.numSegments ∧ g = segmentAt c i := by
  simp only [segmentTable, List.getElem?_map, Option.map_eq_some_iff, List.getElem?_eq_some_iff, List.length_range,
    List.getElem_range] at h
  obtain ⟨j, ⟨hlt, rfl⟩, rfl⟩ := h
  exact ⟨hlt, rfl⟩

/-- A segment of the table ends inside the store (20_memory.md R37). -/
theorem Config.segment_end_le {c : Config} (h : c.legal = true) {i : Nat} (hi : i < c.numSegments) :
    i * c.segSize + c.segSize ≤ c.memSize := by
  obtain ⟨_, hsize⟩ := Config.segSize_legal h
  calc i * c.segSize + c.segSize = c.segSize * (i + 1) := by rw [Nat.mul_comm, Nat.mul_succ]
    _ ≤ c.segSize * c.numSegments := Nat.mul_le_mul_left _ hi
    _ = c.memSize := hsize

/-- A store of one byte in bounds keeps the invariant. -/
theorem State.memoryOk_setMem_write {s : State} (hs : s.memoryOk) {a : Nat} (ha : a < s.cfg.memSize) (v : Byte) :
    (s.setMem (Memory.write s.mem a v)).memoryOk := by
  obtain ⟨hlegal, hseg, hwf, hbound⟩ := hs
  refine ⟨hlegal, hseg, Memory.wf_write hwf a v, fun e he => ?_⟩
  rcases Memory.mem_write he with rfl | he
  · exact ha
  · exact hbound e he

/-- A placement writes at most `SEG_SIZE` bytes from the base of a segment of the table on. -/
theorem State.memoryOk_of_place {s t : State} (hs : s.memoryOk) {program : List Byte} {i : Nat}
    (h : s.place program = .ok (i, t)) : t.memoryOk := by
  obtain ⟨hlegal, hseg, hwf, hbound⟩ := hs
  obtain ⟨_, g, hg, rfl⟩ := State.place_ok.1 h
  rw [hseg] at hg
  obtain ⟨hi, rfl⟩ := segmentTable_getElem? hg
  refine ⟨hlegal, hseg, Memory.wf_writeBytes hwf _ _, fun e he => ?_⟩
  rcases Memory.mem_writeBytes he with he | ⟨_, hlt⟩
  · exact hbound e he
  · have hend := Config.segment_end_le hlegal hi
    have hlen : (program.take s.cfg.segSize).length ≤ s.cfg.segSize := List.length_take_le _ _
    have hbase : (segmentAt s.cfg i).base = i * s.cfg.segSize := rfl
    show e.1 < s.cfg.memSize
    omega

/-- Freeing a segment only removes entries. -/
theorem State.memoryOk_vacate {s : State} (hs : s.memoryOk) (p : Pcb) : (s.vacate p).memoryOk := by
  rcases s.vacate_cases p with ⟨i, g, _, _, h⟩ | ⟨_, h⟩ <;> rw [h]
  · obtain ⟨hlegal, hseg, hwf, hbound⟩ := hs
    exact ⟨hlegal, hseg, Memory.wf_zeroRange hwf _ _, fun e he => hbound e (Memory.mem_zeroRange he)⟩
  · exact hs

theorem State.memoryOk_of_storeOp {s t : State} (h : s.StoreOp t) (hs : s.memoryOk) : t.memoryOk := by
  cases h with
  | elsewhere hcfg hseg _ hmem _ => rwa [State.memoryOk, hcfg, hseg, hmem]
  | byte hnames v =>
    obtain ⟨_, _, _, _, _, _, _, _, ha⟩ := hnames
    exact State.memoryOk_setMem_write hs ha v
  | place hplace => exact State.memoryOk_of_place hs hplace
  | vacate p => exact State.memoryOk_vacate hs p
  | disk _ => exact hs

/-- Settles O52: each single operation keeps the invariant, and a tick is a chain of them. -/
theorem memoryStaysCanonical : Obligations.MemoryStaysCanonical := by
  intro s t hs h
  exact (storePath_of_step h).keeps (fun _ _ => State.memoryOk_of_storeOp) hs

end Sys2Proof.Machine
end

section
/-! PROOF. The segment table and raw access of the byte store (O28, O29, O30), placement and its undoing (O31, O32), and
what an instruction can touch and depend on (O25, O26). -/

namespace Sys2Proof.Machine

/-! ## The segment table (20_memory.md R37) -/

theorem segmentTable_getElem?_of_lt {c : Config} {i : Nat} (h : i < c.numSegments) :
    (segmentTable c)[i]? = some (segmentAt c i) := by
  simp [segmentTable, h]

/-- An address lies in segment `i` exactly when `i` is its quotient by `SEG_SIZE`: no two segments share a byte. -/
theorem segmentAt_contains_iff {c : Config} (h : c.legal = true) {i a : Nat} :
    ((segmentAt c i).base ≤ a ∧ a ≤ (segmentAt c i).limit) ↔ a / c.segSize = i :=
  (Nat.div_eq_iff (Config.segSize_legal h).1).symm

theorem segmentAt_size {c : Config} (h : c.legal = true) (i : Nat) : (segmentAt c i).size = c.segSize := by
  have hpos := (Config.segSize_legal h).1
  simp only [Segment.size, segmentAt]
  omega

/-- Settles O30: address `a` is in segment `a / SEG_SIZE` and in no other. -/
theorem segmentsPartitionTheStore : Obligations.SegmentsPartitionTheStore := by
  intro c hlegal
  obtain ⟨hpos, hsize⟩ := Config.segSize_legal hlegal
  refine ⟨by simp [segmentTable], fun a ha => ?_, fun i g hg => ?_⟩
  · have hi : a / c.segSize < c.numSegments := by
      rw [Nat.div_lt_iff_lt_mul hpos, Nat.mul_comm, hsize]
      exact ha
    obtain ⟨hbase, hlimit⟩ := (segmentAt_contains_iff (a := a) hlegal).2 rfl
    refine ⟨_, _, segmentTable_getElem?_of_lt hi, hbase, hlimit, fun j g hg hbase' hlimit' => ?_⟩
    obtain ⟨_, rfl⟩ := segmentTable_getElem? hg
    exact ((segmentAt_contains_iff hlegal).1 ⟨hbase', hlimit'⟩).symm
  · obtain ⟨hi, rfl⟩ := segmentTable_getElem? hg
    have hend := Config.segment_end_le hlegal hi
    refine ⟨rfl, rfl, ?_, ?_⟩ <;> simp only [segmentAt] <;> omega

/-! ## Raw and translated access -/

theorem State.physRead_of_lt {s : State} {a : Nat} (h : a < s.cfg.memSize) : s.physRead a = .ok (Memory.read s.mem a) :=
  if_pos h

theorem State.physRead_of_le {s : State} {a : Nat} (h : s.cfg.memSize ≤ a) : s.physRead a = .error (.outOfRange a) :=
  if_neg (Nat.not_lt.2 h)

theorem State.physWrite_of_lt {s : State} {a : Nat} (h : a < s.cfg.memSize) (v : Byte) :
    s.physWrite a v = .ok (v, s.setMem (Memory.write s.mem a v)) :=
  if_pos h

theorem State.physWrite_of_le {s : State} {a : Nat} (h : s.cfg.memSize ≤ a) (v : Byte) :
    s.physWrite a v = .error (.outOfRange a) :=
  if_neg (Nat.not_lt.2 h)

/-- A raw read after a write of the byte store is a raw read before it, but at the address written. -/
theorem State.physRead_setMem_write_of_ne {s : State} (hwf : Memory.wf s.mem = true) {a b : Nat} (h : b ≠ a)
    (v : Byte) : (s.setMem (Memory.write s.mem a v)).physRead b = s.physRead b := by
  simp only [State.physRead, State.setMem_cfg, State.setMem_mem, Memory.read_write hwf, if_neg h]

/-- Settles O29. -/
theorem physicalReadAfterWrite : Obligations.PhysicalReadAfterWrite := by
  intro s a v hwf
  constructor
  · intro ha
    refine ⟨_, State.physWrite_of_lt ha v, ?_, fun b hb => State.physRead_setMem_write_of_ne hwf hb v⟩
    have hread : Memory.read (Memory.write s.mem a v) a = v := by rw [Memory.read_write hwf, if_pos rfl]
    exact (State.physRead_of_lt (s := s.setMem (Memory.write s.mem a v)) ha).trans (by rw [State.setMem_mem, hread])
  · exact fun ha => ⟨State.physWrite_of_le ha v, State.physRead_of_le ha⟩

/-- The addresses a process names are those below `SEG_SIZE`, each its byte of the process's segment (R39). -/
theorem State.runsIn_names_iff {s : State} {p : Pcb} {i k a : Nat} (h : s.RunsIn p i) :
    s.Names k a ↔ k < s.cfg.segSize ∧ a = i * s.cfg.segSize + k := by
  constructor
  · intro hnames
    have hk : k < s.cfg.segSize := Nat.lt_of_not_le fun hle => State.runsIn_namesNone h hle a hnames
    exact ⟨hk, State.names_unique hnames (State.runsIn_names h hk)⟩
  · rintro ⟨hk, rfl⟩
    exact State.runsIn_names h hk

/-- Without a segment the translator has nothing to translate to (decision D47). -/
theorem State.memRead_of_execSegment_none {s : State} (h : s.execSegment = none) (k : Nat) :
    s.memRead k = .error (.segmentationFault k) := by
  refine State.memRead_error.2 ⟨rfl, fun a hnames => ?_⟩
  obtain ⟨g, hg, _⟩ := State.names_iff.1 hnames
  rw [h] at hg
  cases hg

/-- Settles O28. -/
theorem translationBoundary : Obligations.TranslationBoundary := by
  refine ⟨fun s p i k hrun => ⟨fun hk => ?_, fun hk => ?_⟩, fun s k hexec => ?_, fun s p k hexec hseg => ?_⟩
  · exact State.memRead_ok.2 ⟨_, State.runsIn_names hrun hk, rfl⟩
  · exact State.memRead_error.2 ⟨rfl, State.runsIn_namesNone hrun hk⟩
  · exact State.memRead_of_execSegment_none (by simp [State.execSegment, hexec]) k
  · exact State.memRead_of_execSegment_none (by simp [State.execSegment, hexec, hseg]) k

/-! ## Placement (R42) -/

/-- Reading inside a range of `n` bytes after a program cut at `n` is stored there: the program's byte, or past its end
what was there before. -/
theorem Memory.read_writeBytes_take {m : Memory} (hm : Memory.wf m = true) (a : Nat) (bs : List Byte) {n k : Nat}
    (hk : k < n) :
    Memory.read (Memory.writeBytes m a (bs.take n)) (a + k) = bs.getD k (Memory.read m (a + k)) := by
  rw [Memory.read_writeBytes hm, List.length_take, Nat.add_sub_cancel_left, List.getD_eq_getElem?_getD,
    List.getD_eq_getElem?_getD, List.getElem?_take_of_lt hk]
  by_cases hlen : k < bs.length
  · rw [if_pos (by omega), List.getElem?_eq_getElem hlen]
    rfl
  · rw [if_neg (by omega), List.getElem?_eq_none (by omega)]
    rfl

/-- Reading outside a range of `n` bytes after at most `n` bytes are stored there. -/
theorem Memory.read_writeBytes_outside {m : Memory} (hm : Memory.wf m = true) {a n b : Nat} {bs : List Byte}
    (hlen : bs.length ≤ n) (hb : ¬ (a ≤ b ∧ b < a + n)) :
    Memory.read (Memory.writeBytes m a bs) b = Memory.read m b := by
  rw [Memory.read_writeBytes hm, if_neg (by omega)]

theorem State.freeSegment_eq_none {s : State} (h : ∀ i < s.occ.length, s.occ[i]? = some true) :
    s.freeSegment = none := by
  rw [State.freeSegment_none, State.isFull, List.all_eq_true]
  intro o ho
  obtain ⟨i, hi, rfl⟩ := List.getElem_of_mem ho
  have htrue := h i hi
  rwa [List.getElem?_eq_getElem hi, Option.some.injEq] at htrue

/-- The converse of `freeSegment_some`. -/
theorem State.freeSegment_eq_some {s : State} {i : Nat} (hi : s.occ[i]? = some false)
    (hj : ∀ j < i, s.occ[j]? = some true) : s.freeSegment = some i := by
  obtain ⟨hlt, hi⟩ := List.getElem?_eq_some_iff.1 hi
  refine List.findIdx?_eq_some_iff_getElem.2 ⟨hlt, by simp [hi], fun j hji => ?_⟩
  obtain ⟨_, hj⟩ := List.getElem?_eq_some_iff.1 (hj j hji)
  simp [hj]

/-- A load with a free segment of the table, in full. -/
theorem State.load_of_freeSegment {s : State} (hseg : s.seg = segmentTable s.cfg) {i : Nat}
    (hfree : s.freeSegment = some i) (hi : i < s.cfg.numSegments) (program : List Byte) (pid : Nat) :
    s.load program pid = .ok ({ newPcb pid with occupiedSegment := some i, location := .memory },
      { s with
        mem := Memory.writeBytes s.mem (i * s.cfg.segSize) (program.take s.cfg.segSize)
        occ := s.occ.set i true
        reg := insertPid pid s.reg }) := by
  have hg : s.seg[i]? = some (segmentAt s.cfg i) := by rw [hseg]; exact segmentTable_getElem?_of_lt hi
  rw [State.load, State.place_ok.2 ⟨hfree, _, hg, rfl⟩]
  rfl

theorem State.load_of_full {s : State} (h : s.freeSegment = none) (program : List Byte) (pid : Nat) :
    s.load program pid = .error .outOfMemory := by
  simp [State.load, State.place, h]

/-- Settles O31: the load written out, then its store read inside the segment and outside. -/
theorem loadPlacesProgram : Obligations.LoadPlacesProgram := by
  intro s program pid ⟨_, hseg, hwf, _⟩ hocc
  refine ⟨fun hfull => State.load_of_full (State.freeSegment_eq_none (hocc ▸ hfull)) program pid, fun i hi hj => ?_⟩
  have hlt : i < s.cfg.numSegments := hocc ▸ (List.getElem?_eq_some_iff.1 hi).1
  refine ⟨_, _, State.load_of_freeSegment hseg (State.freeSegment_eq_some hi hj) hlt program pid, rfl, rfl,
    fun q => mem_insertPid, fun k hk => ?_, fun a ha => ?_⟩
  · exact Memory.read_writeBytes_take hwf _ program hk
  · exact Memory.read_writeBytes_outside hwf (List.length_take_le _ _) ha

/-! ## Undoing a placement (R44, R46) -/

/-- Zero-filling a range undoes a store of bytes within it when the range was zero before. -/
theorem Memory.zeroRange_writeBytes {m : Memory} (hm : Memory.wf m = true) {a n : Nat} {bs : List Byte}
    (hlen : bs.length ≤ n) (hzero : ∀ b, a ≤ b → b < a + n → Memory.read m b = 0x00#8) :
    Memory.zeroRange (Memory.writeBytes m a bs) a n = m := by
  refine Sparse.ext (Memory.wf_zeroRange (Memory.wf_writeBytes hm a bs) a n) hm fun b => ?_
  change Memory.read (Memory.zeroRange (Memory.writeBytes m a bs) a n) b = Memory.read m b
  rw [Memory.read_zeroRange]
  split
  next hb => exact (hzero b hb.1 hb.2).symm
  next hb => exact Memory.read_writeBytes_outside hm hlen hb

/-- Occupying a free entry and freeing it again. -/
theorem set_true_set_false {occ : List Bool} {i : Nat} (h : occ[i]? = some false) :
    (occ.set i true).set i false = occ := by
  obtain ⟨hlt, hi⟩ := List.getElem?_eq_some_iff.1 h
  rw [List.set_set, ← hi, List.set_getElem_self]

/-- Evacuating a registered PCB whose segment is in the table, in full. -/
theorem State.evacuate_of_segment {s : State} {p : Pcb} {i : Nat} {g : Segment} (hreg : p.pid ∈ s.reg)
    (hp : p.occupiedSegment = some i) (hg : s.seg[i]? = some g) :
    s.evacuate p = ({ p with occupiedSegment := none },
      { s with
        mem := Memory.zeroRange s.mem g.base g.size
        occ := s.occ.set i false
        reg := erasePid p.pid s.reg }) := by
  simp [State.evacuate, hreg, State.vacate, hp, State.releaseSegment, hg]

/-- Settles O32: the zero-fill undoes the store of the program in a segment that was zero, and the segment is free
again. -/
theorem evacuateUndoesLoad : Obligations.EvacuateUndoesLoad := by
  intro s t program pid p ⟨hlegal, hseg, hwf, _⟩ hzero hload
  obtain ⟨i, u, hplace, hp, ht⟩ := State.load_ok hload
  obtain ⟨hfree, g, hg, rfl⟩ := State.place_ok.1 hplace
  obtain ⟨hocc, _⟩ := State.freeSegment_some hfree
  have hpid : p.pid = pid := by rw [hp]; rfl
  have hreg : p.pid ∈ t.reg := by rw [hpid, ht]; exact mem_insertPid.2 (.inl rfl)
  rw [State.evacuate_of_segment hreg (by rw [hp]) (by rw [ht]; exact hg), ht, hpid]
  refine ⟨?_, set_true_set_false hocc, rfl, fun hmem => (mem_erasePid.1 hmem).1 rfl⟩
  obtain ⟨_, rfl⟩ := segmentTable_getElem? (hseg ▸ hg)
  have hsize := segmentAt_size hlegal i
  refine Memory.zeroRange_writeBytes hwf (hsize ▸ List.length_take_le _ _) fun b hb hb' => ?_
  rw [hsize] at hb'
  exact hzero i _ hocc hg b hb (Nat.le_sub_one_of_lt hb')

/-! ## What an instruction can touch (R41) -/

/-- Settles O25: the one byte an instruction may store is one its operand names, and those are in the segment. -/
theorem segmentProtection : Obligations.SegmentProtection := by
  intro i s t p n hrun hwf h a ha
  rcases exec_mem_cases h with hmem | ⟨addr, b, v, _, hb, hmem⟩
  · rw [hmem]
  · obtain ⟨hk, rfl⟩ := (State.runsIn_names_iff hrun).1 hb
    rw [hmem, Memory.read_write hwf, if_neg (by omega)]

/-! ## What an instruction can depend on (R41, 70_reset_and_hazards.md R182)

The second machine is `s.setMem m`. It answers every `MemRead` as `s` does, so that every execute step takes the same
path in both. -/

/-- The step from `s` to `t` and a step that turns the byte store `m` into `m'` store alike: nothing, or the same value
at the same byte, one the executing process names. -/
inductive State.StoresAlike (s t : State) (m : Memory) : Memory → Prop
  | nothing (h : t.mem = s.mem) : State.StoresAlike s t m m
  | byte {k a : Nat} (ha : s.Names k a) (v : Byte) (h : t.mem = Memory.write s.mem a v) :
      State.StoresAlike s t m (Memory.write m a v)

/-- Byte stores that hold the same at every byte the process names answer its every read alike. -/
theorem State.memRead_setMem {s : State} {m : Memory} (h : ∀ k a, s.Names k a → Memory.read m a = Memory.read s.mem a)
    (k : Nat) : (s.setMem m).memRead k = s.memRead k := by
  rcases s.names_or_none k with ⟨a, ha⟩ | hnone
  · rw [State.memRead_ok.2 ⟨a, ha, rfl⟩]
    exact State.memRead_ok.2 ⟨a, ha, h k a ha⟩
  · rw [State.memRead_error.2 ⟨rfl, hnone⟩]
    exact State.memRead_error.2 ⟨rfl, hnone⟩

theorem State.takeTrap_setMem (s : State) (m : Memory) (record : Nat → Interrupt) (r : CycleResult) :
    (s.setMem m).takeTrap record r = (s.takeTrap record r).setMem m := by
  unfold State.takeTrap
  rw [State.executingPid, State.setMem_executing, ← State.executingPid]
  cases s.executingPid <;> rfl

/-- A step that only moves data between registers and ports ends alike with another byte store. -/
theorem finish_setMem {s t : State} (m : Memory) {r : Except FaultCause State} (h : finish s r = .next t) :
    finish (s.setMem m) (r.map fun u => u.setMem m) = .next (t.setMem m) := by
  cases r with
  | error c =>
    cases h
    exact congrArg _ (State.takeTrap_setMem (s.report (.executionFault c s.executingPid)) m .errProgram (.fault c))
  | ok u => cases h; rfl

section
variable {s t : State} {m : Memory} (hread : ∀ k, (s.setMem m).memRead k = s.memRead k)
include hread

theorem State.readOperand_setMem (addr : Addr) : (s.setMem m).readOperand addr = s.readOperand addr := by
  rw [State.readOperand, hread, State.readOperand]

theorem State.readStringFrom_setMem (fuel k : Nat) :
    (s.setMem m).readStringFrom fuel k = s.readStringFrom fuel k := by
  induction fuel generalizing k with
  | zero => rfl
  | succ fuel ih => rw [State.readStringFrom, hread, State.readStringFrom, ih]

theorem State.readString_setMem (k : Nat) : (s.setMem m).readString k = s.readString k :=
  State.readStringFrom_setMem hread _ k

/-- A step that reads its operand and then sets a register ends alike with either byte store. -/
theorem finish_load_setMem {addr : Addr} {f : State → Byte → State} (hf : ∀ v, f (s.setMem m) v = (f s v).setMem m)
    (h : finish s ((s.readOperand addr).map (f s)) = .next t) :
    finish (s.setMem m) (((s.setMem m).readOperand addr).map (f (s.setMem m))) = .next (t.setMem m) := by
  have hmap : ((s.setMem m).readOperand addr).map (f (s.setMem m)) =
      ((s.readOperand addr).map (f s)).map fun u => u.setMem m := by
    rw [State.readOperand_setMem hread]
    cases s.readOperand addr with
    | error c => rfl
    | ok v => exact congrArg Except.ok (hf v)
  rw [hmap]
  exact finish_setMem m h

/-- SYS ends alike with either byte store. -/
theorem execSys_setMem (h : execSys s = .next t) : execSys (s.setMem m) = .next (t.setMem m) := by
  unfold execSys at h ⊢
  rw [State.setMem_cpu]
  split at h
  next hx => rw [if_pos hx]; exact finish_setMem m h
  next hx =>
    rw [if_neg hx]
    split at h
    next hx =>
      rw [if_pos hx, State.readString_setMem hread]
      have hfin := finish_setMem m h
      cases hs : s.readString s.cpu.y.toNat <;> rw [hs] at hfin <;> exact hfin
    next hx => rw [if_neg hx]; exact finish_setMem m h

/-- Every instruction but STA and INC ends alike with either byte store. -/
theorem exec_setMem_of_not_store {i : Instr} (hi : ∀ addr, i ≠ .sta addr ∧ i ≠ .inc addr) (h : exec i s = .next t) :
    exec i (s.setMem m) = .next (t.setMem m) := by
  cases i with
  | brk => cases h; exact congrArg _ (State.takeTrap_setMem s m .breakProgram .brk)
  | ldaImm v => cases h; rfl
  | ldxImm v => cases h; rfl
  | ldyImm v => cases h; rfl
  | nop => cases h; rfl
  | bne rel =>
    have hfin := finish_setMem (s := s) m
      (r := .ok (if branchTaken s.cpu.z then s.setPc (relTarget s.cpu.pc rel) else s)) h
    simp only [Except.map, apply_ite (fun u : State => u.setMem m)] at hfin
    exact hfin
  | ldaAbs addr => exact finish_load_setMem hread (f := State.setAcc) (fun _ => rfl) h
  | ldxAbs addr => exact finish_load_setMem hread (f := State.setX) (fun _ => rfl) h
  | ldyAbs addr => exact finish_load_setMem hread (f := State.setY) (fun _ => rfl) h
  | adc addr => exact finish_load_setMem hread (f := fun u v => u.setAcc (aluAdd u.cpu.acc v)) (fun _ => rfl) h
  | cpx addr => exact finish_load_setMem hread (f := fun u v => u.setZ (compareFlag v u.cpu.x)) (fun _ => rfl) h
  | sta addr => exact absurd rfl (hi addr).1
  | inc addr => exact absurd rfl (hi addr).2
  | sys => exact execSys_setMem hread h

omit hread in
/-- The fault path stores nothing, in either machine. -/
theorem finish_error_setMem {c : FaultCause} (h : finish s (.error c) = .next t) :
    ∃ m', finish (s.setMem m) (.error c) = .next (t.setMem m') ∧ s.StoresAlike t m m' := by
  refine ⟨m, finish_setMem m h, .nothing ?_⟩
  cases h
  obtain ⟨_, hmem, _⟩ := s.takeFault_frame c
  exact hmem

omit hread in
/-- A step that stores to its operand stores alike with another byte store. -/
theorem finish_writeOperand_setMem {addr : Addr} {v : Byte} (h : finish s (s.writeOperand addr v) = .next t) :
    ∃ m', finish (s.setMem m) ((s.setMem m).writeOperand addr v) = .next (t.setMem m') ∧ s.StoresAlike t m m' := by
  rcases s.names_or_none addr.toNat with ⟨a, ha⟩ | hnone
  · rw [State.writeOperand_names ha] at h
    rw [State.writeOperand_names (s := s.setMem m) ha]
    cases h
    exact ⟨_, rfl, .byte ha v rfl⟩
  · rw [State.writeOperand_none hnone] at h
    rw [State.writeOperand_none (s := s.setMem m) hnone]
    exact finish_error_setMem h

/-- An instruction takes the same path with either byte store. -/
theorem exec_setMem {i : Instr} (h : exec i s = .next t) :
    ∃ m', exec i (s.setMem m) = .next (t.setMem m') ∧ s.StoresAlike t m m' := by
  by_cases hi : ∃ addr, i = .sta addr ∨ i = .inc addr
  · obtain ⟨addr, rfl | rfl⟩ := hi
    · exact finish_writeOperand_setMem h
    · simp only [exec, execInc, State.readOperand_setMem hread] at h ⊢
      cases hr : s.readOperand addr with
      | error c =>
        rw [hr] at h
        exact finish_error_setMem h
      | ok v =>
        rw [hr] at h
        exact finish_writeOperand_setMem h
  · have hi : ∀ addr, i ≠ .sta addr ∧ i ≠ .inc addr := fun addr => not_or.1 fun hstore => hi ⟨addr, hstore⟩
    exact ⟨m, exec_setMem_of_not_store hread hi h, .nothing (exec_mem_of_not_store h hi)⟩

end

/-- Byte stores that agree on a byte still do after they have stored alike. -/
theorem State.StoresAlike.read_eq {s t : State} {m m' : Memory} (h : s.StoresAlike t m m')
    (hs : Memory.wf s.mem = true) (hm : Memory.wf m = true) {b : Nat} (hb : Memory.read m b = Memory.read s.mem b) :
    Memory.read m' b = Memory.read t.mem b := by
  cases h with
  | nothing hmem => rw [hmem, hb]
  | byte _ v hmem => rw [hmem, Memory.read_write hm, Memory.read_write hs, hb]

/-- Settles O26: the two machines read alike, so that the instruction takes the same path in both and stores alike. -/
theorem processIsolation : Obligations.ProcessIsolation := by
  intro i s t p n m hrun hwf hwfm hagree h
  have hread : ∀ k, (s.setMem m).memRead k = s.memRead k := by
    refine State.memRead_setMem fun k a ha => ?_
    obtain ⟨hk, rfl⟩ := (State.runsIn_names_iff hrun).1 ha
    exact hagree k hk
  obtain ⟨m', hexec, hstores⟩ := exec_setMem hread h
  obtain ⟨⟨hcfg, _⟩, _⟩ := exec_keeps_engine h
  refine ⟨m', hexec, fun k hk => ?_⟩
  rw [State.segByte, hcfg]
  exact hstores.read_eq hwf hwfm (hagree k hk)

end Sys2Proof.Machine
end

section
/-! PROOF. The decoder against the encoder (O1, O2), the illegal opcodes (O3), and program text (O59). -/

namespace Sys2Proof

/-! ## The opcode map (30_encoding.md R60 to R62) -/

/-- The map is matched in full: a byte finds a row exactly when it is that row's opcode byte (R61). -/
theorem decodeOpcode_eq_some {op : Byte} {o : Opcode} : decodeOpcode op = some o ↔ o.code = op := by
  constructor
  · intro h
    exact eq_of_beq (List.find?_some (p := fun o : Opcode => o.code == op) h)
  · rintro rfl
    exact Laws.EncodedShape.decodeOpcode_code o

theorem mem_opcodeMap (o : Opcode) : o ∈ opcodeMap := by cases o <;> decide

theorem decodeOpcode_eq_none {op : Byte} : decodeOpcode op = none ↔ op ∉ opcodeMap.map Opcode.code := by
  simp [decodeOpcode, List.find?_eq_none]

/-! ## Argument bytes and operands (R55 to R59) -/

/-- The shape lemmas of the fourteen constructors as one. -/
theorem Instr.encodedShape : ∀ i : Instr, Laws.EncodedShape.Statement i
  | .brk => Laws.EncodedShape.brk
  | .adc a => Laws.EncodedShape.adc a
  | .sta a => Laws.EncodedShape.sta a
  | .ldyImm v => Laws.EncodedShape.ldyImm v
  | .ldxImm v => Laws.EncodedShape.ldxImm v
  | .ldaImm v => Laws.EncodedShape.ldaImm v
  | .ldyAbs a => Laws.EncodedShape.ldyAbs a
  | .ldaAbs a => Laws.EncodedShape.ldaAbs a
  | .ldxAbs a => Laws.EncodedShape.ldxAbs a
  | .bne v => Laws.EncodedShape.bne v
  | .nop => Laws.EncodedShape.nop
  | .cpx a => Laws.EncodedShape.cpx a
  | .inc a => Laws.EncodedShape.inc a
  | .sys => Laws.EncodedShape.sys

theorem Instr.wellFormed_eq_true (i : Instr) : i.wellFormed = true := by
  obtain ⟨hwf, -⟩ := i.encodedShape
  exact hwf

theorem Instr.instrOfArgs_argBytes (i : Instr) : i.opcode.instrOfArgs i.argBytes = i := by
  obtain ⟨-, -, -, -, -, hargs⟩ := i.encodedShape
  exact hargs

/-- The format alone fixes how many argument bytes there are (R55). -/
theorem Instr.length_argBytes (i : Instr) : i.argBytes.length = i.opcode.argCount := by
  obtain ⟨-, -, -, hlen, -⟩ := i.encodedShape
  rw [encode, List.length_cons, Instr.length] at hlen
  omega

theorem addressLo_absAddress (lo hi : Byte) : addressLo (absAddress lo hi) = lo :=
  BitVec.extractLsb'_append_eq_right

theorem addressHi_absAddress (lo hi : Byte) : addressHi (absAddress lo hi) = hi :=
  BitVec.extractLsb'_append_eq_left

/-- The bytes of an assembled address are the two argument bytes, low byte first (R59). -/
theorem addressBytes_absAddress (lo hi : Byte) :
    [addressLo (absAddress lo hi), addressHi (absAddress lo hi)] = [lo, hi] := by
  rw [addressLo_absAddress, addressHi_absAddress]

theorem Opcode.opcode_instrOfArgs (o : Opcode) (args : List Byte) : (o.instrOfArgs args).opcode = o := by
  cases o <;> rfl

/-- No argument bit is dropped: the operands give back the argument bytes they were assembled from. -/
theorem Opcode.argBytes_instrOfArgs (o : Opcode) {args : List Byte} (h : args.length = o.argCount) :
    (o.instrOfArgs args).argBytes = args := by
  cases o with
  | brk | nop | sys => exact (List.eq_nil_of_length_eq_zero h).symm
  | ldyImm | ldxImm | ldaImm | bne =>
    obtain ⟨v, rfl⟩ := List.length_eq_one_iff.1 h
    rfl
  | adc | sta | ldyAbs | ldaAbs | ldxAbs | cpx | inc =>
    obtain ⟨lo, tail, rfl⟩ := List.exists_cons_of_length_eq_add_one h
    obtain ⟨hi, rfl⟩ := List.length_eq_one_iff.1 (Nat.succ.inj h)
    exact addressBytes_absAddress lo hi

/-! ## Decode and encode -/

/-- What the decoder answers, said once: a row's opcode byte, its argument bytes, and the bytes after them. -/
theorem decode_ok {bs rest : List Byte} {i : Instr} : decode bs = .ok (i, rest) ↔
    ∃ (o : Opcode) (args : List Byte), bs = o.code :: (args ++ rest) ∧ args.length = o.argCount ∧
      o.instrOfArgs args = i := by
  constructor
  · intro h
    cases bs with
    | nil => cases h
    | cons op tail =>
      rw [decode] at h
      split at h
      · cases h
      · next o ho =>
        split at h
        · cases h
        · next hlen =>
          cases h
          refine ⟨o, tail.take o.argCount, ?_, List.length_take_of_le (Nat.le_of_not_lt hlen), rfl⟩
          rw [List.take_append_drop, decodeOpcode_eq_some.1 ho]
  · rintro ⟨o, args, rfl, hlen, rfl⟩
    simp [decode, decodeOpcode_eq_some.2 rfl, ← hlen]

/-- The decoder inverts the encoder and nothing else decodes. -/
theorem decode_eq_ok_iff {bs rest : List Byte} {i : Instr} :
    decode bs = .ok (i, rest) ↔ bs = encode i ++ rest := by
  rw [decode_ok]
  constructor
  · rintro ⟨o, args, rfl, hlen, rfl⟩
    rw [encode, o.opcode_instrOfArgs, o.argBytes_instrOfArgs hlen, List.cons_append]
  · rintro rfl
    exact ⟨i.opcode, i.argBytes, rfl, i.length_argBytes, i.instrOfArgs_argBytes⟩

/-- Settles O2: `decode_eq_ok_iff` is both directions, and every instruction is well formed. -/
theorem decodeEncodeAgree : Obligations.DecodeEncodeAgree :=
  ⟨fun _ _ _ => decode_eq_ok_iff.2 rfl, fun _ _ i h => ⟨decode_eq_ok_iff.1 h, i.wellFormed_eq_true⟩⟩

/-- Settles O1: each written word is the encoding of its instruction, by evaluation. -/
theorem writtenWordsDecode : Obligations.WrittenWordsDecode := by
  refine ⟨?_, ?_, ?_, ?_, ?_, ?_, ?_, ?_, ?_, ?_, ?_, ?_, ?_, ?_⟩ <;> exact decode_eq_ok_iff.2 rfl

end Sys2Proof

namespace Sys2Proof.Machine

/-! ## Illegal opcodes (R62) -/

/-- An illegal opcode byte ends the fetch before any argument byte is read. -/
theorem State.fetch_of_illegal {s : State} {op : Byte} (hop : s.Holds s.cpu.pc.toNat op)
    (h : decodeOpcode op = none) : s.fetch = .error .illegalOpcode := by
  simp [State.fetch, State.memRead_ok.2 hop, h]

/-- The byte values that find a row are the opcode column of the map, without repetition (R60). -/
theorem legal_opcodes_perm : ((List.range 256).filter fun n => (decodeOpcode (BitVec.ofNat 8 n)).isSome).Perm
    (opcodeMap.map fun o => o.code.toNat) := by
  refine (List.perm_ext_iff_of_nodup (List.nodup_range.filter _) (by decide)).2 fun n => ?_
  simp only [List.mem_filter, List.mem_range, List.mem_map, Option.isSome_iff_exists, decodeOpcode_eq_some]
  constructor
  · rintro ⟨hn, o, ho⟩
    exact ⟨o, mem_opcodeMap o, by rw [ho, BitVec.toNat_ofNat, Nat.mod_eq_of_lt hn]⟩
  · rintro ⟨o, -, rfl⟩
    exact ⟨o.code.isLt, o, (BitVec.ofNat_toNat 8 o.code).symm⟩

/-- The 256 byte values but the fourteen opcode bytes. -/
theorem length_illegal_opcodes :
    ((List.range 256).filter fun n => (decodeOpcode (BitVec.ofNat 8 n)).isNone).length = 242 := by
  have hlegal := legal_opcodes_perm.length_eq
  have hsplit := List.length_eq_countP_add_countP (fun n => (decodeOpcode (BitVec.ofNat 8 n)).isSome)
    (l := List.range 256)
  simp only [Bool.not_eq_true, Option.isSome_eq_false_iff, Bool.decide_eq_true, List.countP_eq_length_filter] at hsplit
  rw [hlegal, List.length_map, List.length_range] at hsplit
  exact Nat.add_left_cancel hsplit.symm

/-- Settles O3: the fourteen listed bytes are the opcode column of the map. -/
theorem illegalOpcodesRejected : Obligations.IllegalOpcodesRejected :=
  ⟨fun _ => decodeOpcode_eq_none, length_illegal_opcodes, fun _ _ => State.fetch_of_illegal⟩

/-! ## Program text (R64, R65) -/

/-! ### Digits and bytes -/

theorem hexDigit_hexChar {n : Nat} (h : n < 16) : hexDigit (hexChar n) = some n := by
  revert n
  decide

theorem isSpace_hexChar {n : Nat} (h : n < 16) : isSpace (hexChar n) = false := by
  revert n
  decide

/-- The two digits of a byte are below 16. -/
theorem digits_lt (b : Byte) : b.toNat / 16 < 16 ∧ b.toNat % 16 < 16 := by
  have := b.isLt
  omega

theorem isSpace_of_mem_renderByte {b : Byte} {c : Char} (h : c ∈ renderByte b) : isSpace c = false := by
  obtain ⟨hhi, hlo⟩ := digits_lt b
  obtain rfl | rfl : c = hexChar (b.toNat / 16) ∨ c = hexChar (b.toNat % 16) := by simpa [renderByte] using h
  · exact isSpace_hexChar hhi
  · exact isSpace_hexChar hlo

/-- The two digits of a byte put together are the byte. -/
theorem tokenByte_renderByte (b : Byte) : tokenByte (renderByte b) = .ok b := by
  obtain ⟨hhi, hlo⟩ := digits_lt b
  simp only [renderByte, tokenByte, hexDigit_hexChar hhi, hexDigit_hexChar hlo, Nat.div_add_mod', BitVec.ofNat_toNat,
    BitVec.setWidth_eq]

theorem tokenByte_of_length_ne_two {token : List Char} (h : token.length ≠ 2) :
    tokenByte token = .error (.malformedToken token) := by
  unfold tokenByte
  split
  · exact absurd rfl h
  · rfl

theorem tokenByte_of_not_hex {a b : Char} (h : hexDigit a = none ∨ hexDigit b = none) :
    tokenByte [a, b] = .error (.malformedToken [a, b]) := by
  rcases h with ha | hb
  · simp [tokenByte, ha]
  · simp [tokenByte, hb]

/-! ### Tokens -/

/-- Characters that are no white space join the token being read. -/
theorem splitTokens_append_token {token : List Char} (h : ∀ c ∈ token, isSpace c = false) (text current : List Char) :
    splitTokens (token ++ text) current = splitTokens text (current ++ token) := by
  induction token generalizing current with
  | nil => rw [List.nil_append, List.append_nil]
  | cons c token ih =>
    have hc : isSpace c = false := h c List.mem_cons_self
    have htoken : ∀ d ∈ token, isSpace d = false := fun d hd => h d (List.mem_cons_of_mem c hd)
    rw [List.cons_append, splitTokens, hc, if_neg (by decide), ih htoken, List.append_assoc, List.singleton_append]

/-- A token that ends at a white space character is the first of the text. -/
theorem splitTokens_token_space {token : List Char} (h : ∀ c ∈ token, isSpace c = false) (hne : token ≠ []) {c : Char}
    (hc : isSpace c = true) (text : List Char) : splitTokens (token ++ c :: text) [] = token :: splitTokens text [] := by
  rw [splitTokens_append_token h, List.nil_append, splitTokens, if_pos hc, if_neg (by simpa using hne)]

theorem splitTokens_token {token : List Char} (h : ∀ c ∈ token, isSpace c = false) (hne : token ≠ []) :
    splitTokens token [] = [token] := by
  have hsplit := splitTokens_append_token h [] []
  rw [List.append_nil, List.nil_append] at hsplit
  rw [hsplit, splitTokens, if_neg (by simpa using hne)]

theorem splitTokens_spaces {text : List Char} (h : ∀ c ∈ text, isSpace c = true) : splitTokens text [] = [] := by
  induction text with
  | nil => rfl
  | cons c text ih =>
    rw [splitTokens, if_pos (h c List.mem_cons_self), if_pos List.isEmpty_nil]
    exact ih fun d hd => h d (List.mem_cons_of_mem c hd)

/-! ### Texts -/

/-- The rendered byte is read as one token, and the rest of the text by itself. -/
theorem parseProgram_rendered (bs : List Byte) : parseProgram (bs.flatMap fun b => renderByte b ++ [' ']) = .ok bs := by
  induction bs with
  | nil => rfl
  | cons b bs ih =>
    rw [List.flatMap_cons, List.append_assoc, List.singleton_append, parseProgram,
      splitTokens_token_space (fun _ => isSpace_of_mem_renderByte) (List.cons_ne_nil _ _) rfl, tokensBytes,
      tokenByte_renderByte]
    rw [parseProgram] at ih
    simp only [ih]

/-- A text of one malformed token is that token's error. -/
theorem parseProgram_token_error {token : List Char} {e : ParseError} (h : ∀ c ∈ token, isSpace c = false)
    (hne : token ≠ []) (he : tokenByte token = .error e) : parseProgram token = .error e := by
  simp only [parseProgram, splitTokens_token h hne, tokensBytes, he]

theorem parseProgram_spaces {text : List Char} (h : ∀ c ∈ text, isSpace c = true) : parseProgram text = .ok [] := by
  rw [parseProgram, splitTokens_spaces h, tokensBytes]

/-! ### A load given as text (60_exceptions.md R163) -/

theorem State.submitProgram_ok {s : State} {text : List Char} {program : List Byte} {priority : Option Int}
    (h : parseProgram text = .ok program) :
    s.submitProgram text priority = s.hostAppend [.loadProgram program priority] := by
  simp only [State.submitProgram, h]

theorem State.submitProgram_error {s : State} {text : List Char} {e : ParseError} {priority : Option Int}
    (h : parseProgram text = .error e) : s.submitProgram text priority = s.report (.malformedProgram e) := by
  simp only [State.submitProgram, h]

/-- Settles O59: the lemmas on one token and on one text, and the two outcomes of the host's load. -/
theorem parseOfRenderedText : Obligations.ParseOfRenderedText := by
  refine ⟨parseProgram_rendered, ?_, ?_, fun _ => parseProgram_spaces, ?_⟩
  · intro token hspace hne hlen
    exact parseProgram_token_error hspace hne (tokenByte_of_length_ne_two hlen)
  · intro a b ha hb hhex
    refine parseProgram_token_error ?_ (List.cons_ne_nil a [b]) (tokenByte_of_not_hex hhex)
    simp [ha, hb]
  · intro s text priority
    exact ⟨fun program => State.submitProgram_ok, fun e => State.submitProgram_error⟩

end Sys2Proof.Machine
end

section
/-! PROOF. The instruction tick: a fresh process is restored first (O15), the three faults of a fetch (O16), and the
run of a decoded instruction (O14). -/

namespace Sys2Proof.Machine

/-! ## The restore (40_cycle.md R67) -/

theorem State.restoreIfFresh_of_not_fresh {s : State} {p : Pcb} (he : s.executing = some p) (hf : p.fresh = false) :
    s.restoreIfFresh = s := by
  simp [State.restoreIfFresh, he, hf]

theorem State.restoreIfFresh_of_fresh {s : State} {p : Pcb} (he : s.executing = some p) (hf : p.fresh = true) :
    s.restoreIfFresh = { s with cpu := s.cpu.loadedFrom p, executing := some p.deserialized } := by
  simp [State.restoreIfFresh, he, hf, State.setCpu, State.setExecuting]

/-- The restore is a one-time restore: it leaves no fresh process to restore. -/
theorem State.restoreIfFresh_idem (s : State) : s.restoreIfFresh.restoreIfFresh = s.restoreIfFresh := by
  rcases s.restoreIfFresh_cases with ⟨h, _⟩ | ⟨p, _, _, h⟩
  · rw [h, h]
  · rw [h]
    exact State.restoreIfFresh_of_not_fresh rfl rfl

/-- A cycle starts with the restore, so it makes no difference whether the restore was done before. -/
theorem cycle_restoreIfFresh (s : State) : cycle s.restoreIfFresh = cycle s := by
  rw [cycle, s.restoreIfFresh_idem, cycle]

/-! ## Fetch (40_cycle.md R68 to R70) -/

theorem State.fetch_of_namesNone {s : State} (h : s.NamesNone s.cpu.pc.toNat) : s.fetch = .error .fetchSegFault := by
  simp [State.fetch, State.memRead_error.2 ⟨rfl, h⟩]

/-- After a legal opcode byte only the argument bytes can still fault. -/
theorem State.fetch_of_legal {s : State} {op : Byte} {o : Opcode} (hop : s.Holds s.cpu.pc.toNat op)
    (ho : decodeOpcode op = some o) :
    s.fetch = (s.fetchArgs o.argCount s.cpu.pc.toNat).map fun r => (o.instrOfArgs r.1, s.atExecute op r.2) := by
  simp only [State.fetch, State.memRead_ok.2 hop, ho]
  cases s.fetchArgs o.argCount s.cpu.pc.toNat <;> rfl

/-- The argument addresses counted from the first of them. -/
theorem argAddress_incArg (c : Config) (pc j : Nat) : argAddress c (incArg c pc) j = argAddress c pc (j + 1) := by
  induction j with
  | zero => rfl
  | succ j ih => rw [argAddress, ih]; rfl

/-- The converse of `State.fetchArgs_ok`: argument bytes that stand at the argument addresses are fetched. -/
theorem State.fetchArgs_of_holds {s : State} {pc : Nat} {args : List Byte}
    (h : ∀ j b, args[j]? = some b →
      argAddress s.cfg pc (j + 1) ≤ 255 ∧ s.Holds (argAddress s.cfg pc (j + 1)) b) :
    s.fetchArgs args.length pc = .ok (args, argAddress s.cfg pc args.length) := by
  induction args generalizing pc with
  | nil => rfl
  | cons b args ih =>
    have hfirst : s.fetchArg (incArg s.cfg pc) = .ok b := State.fetchArg_ok.2 (h 0 b rfl)
    have hrest : s.fetchArgs args.length (incArg s.cfg pc) =
        .ok (args, argAddress s.cfg (incArg s.cfg pc) args.length) :=
      ih fun j c hj => by simpa only [argAddress_incArg] using h (j + 1) c hj
    simp only [List.length_cons, State.fetchArgs, hfirst, hrest, argAddress_incArg]

/-- One argument address without a byte, or past logical 255, is enough: the bytes cannot all be fetched (R70,
decision D3). -/
theorem State.fetchArgs_argSegFault {s : State} {n pc j : Nat} (h1 : 1 ≤ j) (hj : j ≤ n)
    (hbad : s.NamesNone (argAddress s.cfg pc j) ∨ 255 < argAddress s.cfg pc j) :
    s.fetchArgs n pc = .error .argSegFault := by
  cases hfetch : s.fetchArgs n pc with
  | error c => rw [State.fetchArgs_error hfetch]
  | ok r =>
    obtain ⟨hlen, -, hbytes⟩ := State.fetchArgs_ok hfetch
    have hbyte : r.1[j - 1]? = some r.1[j - 1] := List.getElem?_eq_getElem (by omega)
    obtain ⟨hle, a, hnames, -⟩ := hbytes (j - 1) _ hbyte
    rw [Nat.sub_add_cancel h1] at hle hnames
    rcases hbad with hnone | hpast
    · exact absurd hnames (hnone a)
    · omega

/-- The bytes of an instruction where it is fetched from are fetched as that instruction, with `PC` left at its last
byte. -/
theorem State.fetch_encode {s : State} {i : Instr} {rest : List Byte} (h : s.FetchesBytes (encode i ++ rest)) :
    s.fetch = .ok (i, s.atExecute i.opcode.code (argAddress s.cfg s.cpu.pc.toNat (i.length - 1))) := by
  obtain ⟨-, hop⟩ := h 0 i.opcode.code rfl
  have hstands : ∀ j b, i.argBytes[j]? = some b → (encode i ++ rest)[j + 1]? = some b := by
    intro j b hj
    obtain ⟨hlt, -⟩ := List.getElem?_eq_some_iff.1 hj
    rw [encode, List.cons_append, List.getElem?_cons_succ, List.getElem?_append_left hlt, hj]
  have hargs := State.fetchArgs_of_holds fun j b hj => h (j + 1) b (hstands j b hj)
  rw [State.fetch_of_legal hop (decodeOpcode_eq_some.2 rfl), ← i.length_argBytes, hargs, Except.map,
    i.instrOfArgs_argBytes, i.length_argBytes, Instr.length, Nat.add_sub_cancel_left]

/-! ## The tick of an executing process (60_exceptions.md R147) -/

section
variable {s : State} {p : Pcb} (hh : s.halted = false) (hq : s.intq = []) (he : s.executing = some p)
include hh hq he

/-- With a process executing `next()` has nothing to do. -/
theorem step_of_executing : step s = instructionTick s p.pid := by
  have hnext : s.nextProcess = s := by simp [State.nextProcess, he]
  simp [step, tickStep, hh, hq, hnext, he]

theorem step_of_cycle {t : State} (h : cycle s = .next t) : step s = .next (t.afterCycle p.pid) := by
  rw [step_of_executing hh hq he, instructionTick, h]

/-- A fetch that faults takes the fault path; its result is not OK, so that the policy is not consulted. -/
theorem step_of_fetch_error {c : FaultCause} (hf : p.fresh = false) (h : s.fetch = .error c) :
    step s = .next (Faulted s p c).updateStats := by
  have hcycle : cycle s = .next (Faulted s p c) := by
    simp only [cycle, State.restoreIfFresh_of_not_fresh he hf, h, State.takeFault_eq he]
  rw [step_of_cycle hh hq he hcycle, State.afterCycle, if_neg (by simp [Faulted])]

theorem step_of_fetch_ok {i : Instr} {t u : State} (hf : p.fresh = false) (h : s.fetch = .ok (i, t))
    (hexec : exec i t = .next u) : step s = .next (u.afterCycle p.pid) := by
  have hcycle : cycle s = .next u := by simp only [cycle, State.restoreIfFresh_of_not_fresh he hf, h, hexec]
  exact step_of_cycle hh hq he hcycle

end

/-- Settles O15: the second state is the first one restored, and a cycle does not see the difference. -/
theorem freshProcessIsRestored : Obligations.FreshProcessIsRestored := by
  intro s p hh hq he hf
  have hrestored := State.restoreIfFresh_of_fresh he hf
  have htick : step s.restoreIfFresh = instructionTick s.restoreIfFresh p.pid := by
    rw [hrestored]
    exact step_of_executing (p := p.deserialized) hh hq rfl
  calc step s
    _ = instructionTick s p.pid := step_of_executing hh hq he
    _ = instructionTick s.restoreIfFresh p.pid := by rw [instructionTick, instructionTick, cycle_restoreIfFresh]
    _ = step s.restoreIfFresh := htick.symm
    _ = _ := congrArg step hrestored

/-- Settles O16, one lemma on fetch for each cause. -/
theorem fetchFaultsInOrder : Obligations.FetchFaultsInOrder := by
  intro s p hh hq he hf
  refine ⟨fun hnone => ?_, fun op hop hillegal => ?_, fun op o j hop ho h1 hj hbad => ?_⟩
  · exact step_of_fetch_error hh hq he hf (State.fetch_of_namesNone hnone)
  · exact step_of_fetch_error hh hq he hf (State.fetch_of_illegal hop hillegal)
  · have hfetch : s.fetch = .error .argSegFault := by
      rw [State.fetch_of_legal hop ho, State.fetchArgs_argSegFault h1 hj hbad, Except.map]
    exact step_of_fetch_error hh hq he hf hfetch

/-- Settles O14: what decodes is an encoded instruction, and fetch answers it. -/
theorem stepRunsDecodedInstruction : Obligations.StepRunsDecodedInstruction := by
  intro s t p i bs rest hh hq he hf hbytes hdecode hexec
  obtain rfl := decode_eq_ok_iff.1 hdecode
  exact step_of_fetch_ok hh hq he hf (State.fetch_encode hbytes) hexec

end Sys2Proof.Machine
end

section
/-! PROOF. Loads and stores: STA (O6), the immediate loads (O4) and the absolute loads (O5). -/

namespace Sys2Proof

/-- An instruction assembled from its row and argument bytes is encoded as the opcode byte and those bytes
(30_encoding.md R56, R60). -/
theorem Opcode.encode_instrOfArgs (o : Opcode) {args : List Byte} (h : args.length = o.argCount) :
    encode (o.instrOfArgs args) = o.code :: args := by
  rw [encode, o.opcode_instrOfArgs, o.argBytes_instrOfArgs h]

end Sys2Proof

namespace Sys2Proof.Machine

/-! ## The execute steps of 41_load_store.md, one equation each -/

theorem exec_ldaImm (imm : Byte) (s : State) : exec (.ldaImm imm) s = finish s (.ok (s.setAcc imm)) := rfl

theorem exec_ldxImm (imm : Byte) (s : State) : exec (.ldxImm imm) s = finish s (.ok (s.setX imm)) := rfl

theorem exec_ldyImm (imm : Byte) (s : State) : exec (.ldyImm imm) s = finish s (.ok (s.setY imm)) := rfl

theorem exec_ldaAbs (addr : Addr) (s : State) :
    exec (.ldaAbs addr) s = finish s ((s.readOperand addr).map s.setAcc) := rfl

theorem exec_ldxAbs (addr : Addr) (s : State) :
    exec (.ldxAbs addr) s = finish s ((s.readOperand addr).map s.setX) := rfl

theorem exec_ldyAbs (addr : Addr) (s : State) :
    exec (.ldyAbs addr) s = finish s ((s.readOperand addr).map s.setY) := rfl

theorem exec_sta (addr : Addr) (s : State) : exec (.sta addr) s = finish s (s.writeOperand addr s.cpu.acc) := rfl

/-! ## How an execute step ends (40_cycle.md R71) -/

/-- An execute step that has changed only registers completes with them. -/
theorem finish_setCpu (s : State) (r : Cpu) :
    finish s (.ok (s.setCpu r)) = .next (Completed s r s.mem s.console) := rfl

/-- An execute step that has changed only the byte store completes with it. -/
theorem finish_setMem_ok (s : State) (m : Memory) :
    finish s (.ok (s.setMem m)) = .next (Completed s s.cpu m s.console) := rfl

/-- An execute step that ends in a cause leaves the fault state of the executing process. -/
theorem finish_error {s : State} {p : Pcb} (he : s.executing = some p) (c : FaultCause) :
    finish s (.error c) = .next (Faulted s p c) := by
  rw [finish, State.takeFault_eq he]

/-! ## Absolute operands of a process in its segment (20_memory.md R39) -/

section
variable {s : State} {p : Pcb} {i : Nat} {lo hi : Byte} (hrun : s.RunsIn p i)
include hrun

theorem State.RunsIn.executing_eq : s.executing = some p := by
  obtain ⟨-, -, he, -⟩ := hrun
  exact he

theorem State.RunsIn.names_operand (hk : hi.toNat * 256 + lo.toNat < s.cfg.segSize) :
    s.Names (hi ++ lo : Addr).toNat (i * s.cfg.segSize + (hi.toNat * 256 + lo.toNat)) := by
  rw [address_toNat]
  exact State.runsIn_names hrun hk

theorem State.RunsIn.namesNone_operand (hk : s.cfg.segSize ≤ hi.toNat * 256 + lo.toNat) :
    s.NamesNone (hi ++ lo : Addr).toNat := by
  rw [address_toNat]
  exact State.runsIn_namesNone hrun hk

theorem State.RunsIn.readOperand_inside (hk : hi.toNat * 256 + lo.toNat < s.cfg.segSize) :
    s.readOperand (hi ++ lo) = .ok (s.segByte i (hi.toNat * 256 + lo.toNat)) :=
  State.readOperand_names (hrun.names_operand hk)

theorem State.RunsIn.readOperand_outside (hk : s.cfg.segSize ≤ hi.toNat * 256 + lo.toNat) :
    s.readOperand (hi ++ lo) = .error .operandSegFault :=
  State.readOperand_none (hrun.namesNone_operand hk)

/-- An instruction that computes registers from the byte at its operand, inside the segment, completes with them. -/
theorem State.RunsIn.finish_read_inside (hk : hi.toNat * 256 + lo.toNat < s.cfg.segSize) (r : Byte → Cpu) :
    finish s ((s.readOperand (hi ++ lo)).map fun v => s.setCpu (r v)) =
      .next (Completed s (r (s.segByte i (hi.toNat * 256 + lo.toNat))) s.mem s.console) := by
  rw [hrun.readOperand_inside hk, Except.map, finish_setCpu]

/-- An instruction that reads its operand outside the segment takes the operand fault, whatever it would have done with
the byte. -/
theorem State.RunsIn.finish_read_outside (hk : s.cfg.segSize ≤ hi.toNat * 256 + lo.toNat) (f : Byte → State) :
    finish s ((s.readOperand (hi ++ lo)).map f) = .next (Faulted s p .operandSegFault) := by
  rw [hrun.readOperand_outside hk, Except.map, finish_error hrun.executing_eq]

theorem State.RunsIn.finish_write_inside (hk : hi.toNat * 256 + lo.toNat < s.cfg.segSize) (v : Byte) :
    finish s (s.writeOperand (hi ++ lo) v) =
      .next (Completed s s.cpu (Memory.write s.mem (i * s.cfg.segSize + (hi.toNat * 256 + lo.toNat)) v)
        s.console) := by
  rw [State.writeOperand_names (hrun.names_operand hk), finish_setMem_ok]

theorem State.RunsIn.finish_write_outside (hk : s.cfg.segSize ≤ hi.toNat * 256 + lo.toNat) (v : Byte) :
    finish s (s.writeOperand (hi ++ lo) v) = .next (Faulted s p .operandSegFault) := by
  rw [State.writeOperand_none (hrun.namesNone_operand hk), finish_error hrun.executing_eq]

end

/-! ## The three statements -/

/-- Settles O6: the store is one write of the byte the operand names, read back by the law of the byte store. -/
theorem storeResult : Obligations.StoreResult := by
  intro s p i lo hi hrun hwf
  refine ⟨Opcode.encode_instrOfArgs .sta (args := [lo, hi]) rfl, fun hk => ?_, fun hk => ?_⟩
  · rw [exec_sta, hrun.finish_write_inside hk]
    exact ⟨_, rfl, Memory.wf_write hwf _ _, Memory.read_write hwf _ _⟩
  · rw [exec_sta, hrun.finish_write_outside hk]

/-- Settles O4: each immediate load sets its register and completes. -/
theorem loadImmediateResult : Obligations.LoadImmediateResult := by
  intro s imm
  refine ⟨?_, ?_, ?_, ?_, ?_, ?_⟩
  · rw [exec_ldaImm, State.setAcc, finish_setCpu]
  · rw [exec_ldxImm, State.setX, finish_setCpu]
  · rw [exec_ldyImm, State.setY, finish_setCpu]
  · exact Opcode.encode_instrOfArgs .ldaImm (args := [imm]) rfl
  · exact Opcode.encode_instrOfArgs .ldxImm (args := [imm]) rfl
  · exact Opcode.encode_instrOfArgs .ldyImm (args := [imm]) rfl

/-- Settles O5: the three loads read one operand and differ in the register they set. -/
theorem loadAbsoluteResult : Obligations.LoadAbsoluteResult := by
  intro s p i lo hi hrun
  refine ⟨?_, ?_, ?_, fun hk => ?_, fun hk => ?_⟩
  · exact Opcode.encode_instrOfArgs .ldaAbs (args := [lo, hi]) rfl
  · exact Opcode.encode_instrOfArgs .ldxAbs (args := [lo, hi]) rfl
  · exact Opcode.encode_instrOfArgs .ldyAbs (args := [lo, hi]) rfl
  · rw [exec_ldaAbs, exec_ldxAbs, exec_ldyAbs]
    exact ⟨hrun.finish_read_inside hk fun v => { s.cpu with acc := v },
      hrun.finish_read_inside hk fun v => { s.cpu with x := v },
      hrun.finish_read_inside hk fun v => { s.cpu with y := v }⟩
  · rw [exec_ldaAbs, exec_ldxAbs, exec_ldyAbs]
    exact ⟨hrun.finish_read_outside hk _, hrun.finish_read_outside hk _, hrun.finish_read_outside hk _⟩

end Sys2Proof.Machine
end

section
/-! PROOF. Arithmetic and compare: ADC (O7), INC (O8) and CPX (O9). -/

namespace Sys2Proof.Machine

/-! ## The byte operations of 42_arith_compare.md -/

theorem aluAdd_toNat (a b : Byte) : (aluAdd a b).toNat = (a.toNat + b.toNat) % 256 := BitVec.toNat_add a b

theorem aluInc_toNat (v : Byte) : (aluInc v).toNat = (v.toNat + 1) % 256 := BitVec.toNat_add v 1#8

theorem compareFlag_eq_true_iff (v x : Byte) : compareFlag v x = true ↔ v = x := beq_iff_eq

/-! ## The execute steps, one equation each -/

theorem exec_adc (addr : Addr) (s : State) :
    exec (.adc addr) s = finish s ((s.readOperand addr).map fun v => s.setAcc (aluAdd s.cpu.acc v)) := rfl

theorem exec_inc (addr : Addr) (s : State) :
    exec (.inc addr) s = finish s ((s.readOperand addr).bind fun v => s.writeOperand addr (aluInc v)) := rfl

theorem exec_cpx (addr : Addr) (s : State) :
    exec (.cpx addr) s = finish s ((s.readOperand addr).map fun v => s.setZ (compareFlag v s.cpu.x)) := rfl

/-! ## A read followed by a write of the same operand (R90) -/

section
variable {s : State} {p : Pcb} {i : Nat} {lo hi : Byte} (hrun : s.RunsIn p i)
include hrun

/-- An instruction that replaces the byte at its operand, inside the segment, completes with that one write. -/
theorem State.RunsIn.finish_modify_inside (hk : hi.toNat * 256 + lo.toNat < s.cfg.segSize) (f : Byte → Byte) :
    finish s ((s.readOperand (hi ++ lo)).bind fun v => s.writeOperand (hi ++ lo) (f v)) =
      .next (Completed s s.cpu (Memory.write s.mem (i * s.cfg.segSize + (hi.toNat * 256 + lo.toNat))
        (f (s.segByte i (hi.toNat * 256 + lo.toNat)))) s.console) := by
  rw [hrun.readOperand_inside hk, Except.bind, hrun.finish_write_inside hk]

/-- Outside the segment the read already faults, so the write is not reached. -/
theorem State.RunsIn.finish_modify_outside (hk : s.cfg.segSize ≤ hi.toNat * 256 + lo.toNat) (f : Byte → Byte) :
    finish s ((s.readOperand (hi ++ lo)).bind fun v => s.writeOperand (hi ++ lo) (f v)) =
      .next (Faulted s p .operandSegFault) := by
  rw [hrun.readOperand_outside hk, Except.bind, finish_error hrun.executing_eq]

end

/-! ## The three statements -/

/-- Settles O8: the increment is one write, of the successor of the byte read, read back by the law of the byte
store. -/
theorem incrementResult : Obligations.IncrementResult := by
  intro s p i lo hi hrun hwf
  refine ⟨Opcode.encode_instrOfArgs .inc (args := [lo, hi]) rfl, fun hk => ?_, fun hk => ?_⟩
  · rw [exec_inc, hrun.finish_modify_inside hk]
    exact ⟨_, _, rfl, Memory.wf_write hwf _ _, aluInc_toNat _, Memory.read_write hwf _ _⟩
  · rw [exec_inc, hrun.finish_modify_outside hk]

/-- Settles O7: the sum is computed from the byte at the operand, and only `ACC` takes it. -/
theorem addResult : Obligations.AddResult := by
  intro s p i lo hi hrun
  refine ⟨Opcode.encode_instrOfArgs .adc (args := [lo, hi]) rfl, fun hk => ?_, fun hk => ?_⟩
  · rw [exec_adc]
    exact ⟨_, aluAdd_toNat _ _,
      hrun.finish_read_inside hk fun v => { s.cpu with acc := aluAdd s.cpu.acc v }⟩
  · rw [exec_adc, hrun.finish_read_outside hk]

/-- Settles O9: the comparison is of the byte at the operand with `X`, and only `Z` takes it. -/
theorem compareResult : Obligations.CompareResult := by
  intro s p i lo hi hrun
  refine ⟨Opcode.encode_instrOfArgs .cpx (args := [lo, hi]) rfl, fun hk => ?_, fun hk => ?_⟩
  · rw [exec_cpx]
    exact ⟨_, compareFlag_eq_true_iff _ _,
      hrun.finish_read_inside hk fun v => { s.cpu with z := compareFlag v s.cpu.x }⟩
  · rw [exec_cpx, hrun.finish_read_outside hk]

end Sys2Proof.Machine
end

section
/-! PROOF. Control transfer: BNE (O10), NOP (O11) and BRK (O12). -/

namespace Sys2Proof.Machine

/-! ## The branch target of 43_control.md R94 -/

theorem relTarget_toNat (pc rel : Byte) : (relTarget pc rel).toNat = (pc.toNat + rel.toNat) % 256 :=
  BitVec.toNat_add pc rel

/-- A byte read as a signed number differs from its unsigned reading by a multiple of 256. -/
theorem byte_toInt_emod (b : Byte) : b.toInt % 256 = b.toNat := by
  have hlt := b.isLt
  rw [BitVec.toInt_eq_toNat_bmod]
  exact Int.bmod_emod.trans (by omega)

/-- The completed `PC` of a taken branch with its opcode at `a`: past the two bytes, the offset is added. -/
theorem relTarget_next_toNat (a rel : Byte) :
    (relTarget (a + 1#8) rel + 1#8).toNat = (a.toNat + 2 + rel.toNat) % 256 := by
  rw [BitVec.toNat_add, relTarget_toNat, BitVec.toNat_add, BitVec.toNat_ofNat]
  omega

/-- The signed reading of the offset gives the same `PC`. -/
theorem relTarget_next_toInt (a rel : Byte) :
    ((relTarget (a + 1#8) rel + 1#8).toNat : Int) = ((a.toNat : Int) + 2 + rel.toInt) % 256 := by
  have hsigned := byte_toInt_emod rel
  rw [relTarget_next_toNat]
  omega

/-! ## The execute steps, one equation for each case -/

theorem exec_bne_taken {s : State} (hz : s.cpu.z = false) (rel : Byte) :
    exec (.bne rel) s = finish s (.ok (s.setPc (relTarget s.cpu.pc rel))) := by
  simp [exec, execBne, branchTaken, hz]

theorem exec_bne_not_taken {s : State} (hz : s.cpu.z = true) (rel : Byte) :
    exec (.bne rel) s = finish s (.ok s) := by
  simp [exec, execBne, branchTaken, hz]

theorem exec_nop (s : State) : exec .nop s = finish s (.ok s) := rfl

theorem exec_brk (s : State) : exec .brk s = .next s.takeBreak := rfl

/-- An execute step that has changed nothing completes with the registers, byte store and console as they were. -/
theorem finish_self (s : State) : finish s (.ok s) = .next (Completed s s.cpu s.mem s.console) := rfl

/-! ## The three statements -/

/-- Settles O10: the branch adds its offset to `PC` when `Z` is clear and does nothing when it is set; with `PC` at the
offset byte the increment of completion makes it `a + 2`. -/
theorem branchResult : Obligations.BranchResult := by
  intro s a rel hpc
  refine ⟨Opcode.encode_instrOfArgs .bne (args := [rel]) rfl, fun hz => ?_, fun hz => ?_⟩
  · refine ⟨relTarget s.cpu.pc rel, ?_, ?_, ?_⟩
    · rw [exec_bne_taken hz, State.setPc, finish_setCpu]
    · rw [hpc, relTarget_next_toNat]
    · rw [hpc, relTarget_next_toInt]
  · refine ⟨?_, ?_⟩
    · rw [exec_bne_not_taken hz, finish_self]
    · rw [hpc, BitVec.add_assoc, BitVec.toNat_add]
      rfl

/-- Settles O11: the execute step changes nothing and completes. -/
theorem nopResult : Obligations.NopResult := by
  refine ⟨Opcode.encode_instrOfArgs .nop (args := []) rfl, fun s => ?_⟩
  rw [exec_nop, finish_self]

/-- Settles O12: BRK takes the break path, which for an executing process leaves `Broken`. -/
theorem breakResult : Obligations.BreakResult := by
  refine ⟨Opcode.encode_instrOfArgs .brk (args := []) rfl, fun s p he => ?_⟩
  rw [exec_brk, State.takeBreak_eq he]

end Sys2Proof.Machine
end

section
/-! PROOF. The system instruction: SYS (O13). -/

namespace Sys2Proof.Machine

/-! ## Decimal numerals (44_system.md R98) -/

theorem decimalOf_digit {d : Nat} (hd : d < 10) : DecimalOf [digitByte d] d :=
  ⟨[d], rfl, by simpa using hd, by simp, by simp, by simp⟩

/-- One more digit after the numeral of a positive number: it cannot make a leading zero. -/
theorem DecimalOf.append_digit {text : List Byte} {n d : Nat} (h : DecimalOf text n) (hn : n ≠ 0) (hd : d < 10) :
    DecimalOf (text ++ [digitByte d]) (n * 10 + d) := by
  obtain ⟨ds, rfl, hlt, hne, hlead, rfl⟩ := h
  have hhead : ds.head? ≠ some 0 := fun h0 => hn (by rw [hlead h0]; rfl)
  refine ⟨ds ++ [d], by simp [digitByte], ?_, by simp, ?_, by simp⟩
  · intro e he
    rcases List.mem_append.1 he with he | he
    · exact hlt e he
    · exact List.mem_singleton.1 he ▸ hd
  · intro h0
    rw [List.head?_append, Option.or_of_isSome (List.isSome_head?.2 hne)] at h0
    exact absurd h0 hhead

/-- With enough fuel the digits put before `acc` are the numeral of `n`. -/
theorem decimalDigits_eq_append {fuel n : Nat} (hn : n < fuel) (acc : List Byte) :
    ∃ text, DecimalOf text n ∧ decimalDigits fuel n acc = text ++ acc := by
  induction fuel generalizing n acc with
  | zero => exact absurd hn (Nat.not_lt_zero n)
  | succ fuel ih =>
    rw [decimalDigits]
    split
    next hsmall => exact ⟨[digitByte n], decimalOf_digit hsmall, rfl⟩
    next hlarge =>
      obtain ⟨text, htext, heq⟩ := ih (n := n / 10) (by omega) (digitByte (n % 10) :: acc)
      have hnumeral := htext.append_digit (d := n % 10) (by omega) (by omega)
      rw [Nat.div_add_mod'] at hnumeral
      exact ⟨text ++ [digitByte (n % 10)], hnumeral, by rw [heq, List.append_assoc, List.singleton_append]⟩

theorem decimalOf_decimalText (n : Nat) : DecimalOf (decimalText n) n := by
  obtain ⟨text, htext, heq⟩ := decimalDigits_eq_append (Nat.lt_succ_self n) []
  rwa [decimalText, heq, List.append_nil]

/-! ## The string of a process in its segment (44_system.md R98) -/

/-- The executing process reads the bytes of its segment, and only those. -/
theorem State.RunsIn.holds_iff {s : State} {p : Pcb} {i k : Nat} {v : Byte} (hrun : s.RunsIn p i) :
    s.Holds k v ↔ k < s.cfg.segSize ∧ s.segByte i k = v := by
  simp only [State.Holds, State.runsIn_names_iff hrun, State.segByte, and_assoc, exists_and_left, exists_eq_left]

/-- The string read answers the nonzero bytes before a 0x00 byte inside the segment; the fuel never ends it, a segment
being no larger than the byte store. -/
theorem State.RunsIn.readString_ok_iff {s : State} {p : Pcb} {i k : Nat} {text : List Byte} (hrun : s.RunsIn p i) :
    s.readString k = .ok text ↔
      k + text.length < s.cfg.segSize ∧ (∀ j b, text[j]? = some b → b ≠ 0#8 ∧ s.segByte i (k + j) = b) ∧
        s.segByte i (k + text.length) = 0#8 := by
  have hsize : s.cfg.segSize ≤ s.cfg.memSize := Nat.div_le_self _ _
  simp only [State.readString, State.readStringFrom_ok, hrun.holds_iff]
  constructor
  · rintro ⟨-, hbytes, hend, hzero⟩
    refine ⟨hend, fun j b hj => ?_, hzero⟩
    obtain ⟨hb, -, hbyte⟩ := hbytes j b hj
    exact ⟨hb, hbyte⟩
  · rintro ⟨hend, hbytes, hzero⟩
    refine ⟨by omega, fun j b hj => ?_, hend, hzero⟩
    obtain ⟨hlen, -⟩ := List.getElem?_eq_some_iff.1 hj
    obtain ⟨hb, hbyte⟩ := hbytes j b hj
    exact ⟨hb, by omega, hbyte⟩

/-- Without a 0x00 byte before the segment's end the string read runs out of the segment. -/
theorem State.RunsIn.readString_unterminated {s : State} {p : Pcb} {i k : Nat} (hrun : s.RunsIn p i)
    (hbytes : ∀ j, k ≤ j → j < s.cfg.segSize → s.segByte i j ≠ 0#8) :
    s.readString k = .error .sysStringSegFault := by
  cases hread : s.readString k with
  | error c => rw [State.readStringFrom_error hread]
  | ok text =>
    obtain ⟨hend, -, hzero⟩ := hrun.readString_ok_iff.1 hread
    exact absurd hzero (hbytes _ (Nat.le_add_right k text.length) hend)

/-! ## The execute step of 44_system.md, one equation for each service -/

theorem exec_sys_decimal {s : State} (hx : s.cpu.x = 1#8) :
    exec .sys s = finish s (.ok (s.putText (decimalText s.cpu.y.toNat))) := if_pos hx

theorem exec_sys_string {s : State} (hx : s.cpu.x = 2#8) :
    exec .sys s = finish s ((s.readString s.cpu.y.toNat).map s.putText) := by
  have hx1 : s.cpu.x ≠ 1#8 := by rw [hx]; decide
  exact (if_neg hx1).trans (if_pos hx)

theorem exec_sys_invalid {s : State} (hx1 : s.cpu.x ≠ 1#8) (hx2 : s.cpu.x ≠ 2#8) :
    exec .sys s = finish s (.error .invalidSysArg) := (if_neg hx1).trans (if_neg hx2)

/-- An execute step that has only printed completes with the text at the console's end. -/
theorem finish_putText (s : State) (text : List Byte) :
    finish s (.ok (s.putText text)) = .next (Completed s s.cpu s.mem (s.console ++ [.putText text])) := rfl

/-- Settles O13, service by service: the numeral of `Y`, the string read to its end or out of the segment, and the
invalid selector. -/
theorem sysResult : Obligations.SysResult := by
  refine ⟨Opcode.encode_instrOfArgs .sys (args := []) rfl, fun s p i hrun => ⟨fun hx => ?_, ?_, ?_, ?_⟩⟩
  · exact ⟨_, decimalOf_decimalText _, by rw [exec_sys_decimal hx, finish_putText]⟩
  · intro hx text hend hbytes hzero
    rw [exec_sys_string hx, hrun.readString_ok_iff.2 ⟨hend, hbytes, hzero⟩, Except.map, finish_putText]
  · intro hx hbytes
    rw [exec_sys_string hx, hrun.readString_unterminated hbytes, Except.map, finish_error hrun.executing_eq]
  · intro hx1 hx2
    rw [exec_sys_invalid hx1 hx2, finish_error hrun.executing_eq]

end Sys2Proof.Machine
end

section
/-! PROOF. The queues of PCBs: what an insertion, a removal and a replacement do to a queue as a whole; the order of
READY (O42), the victim (O41) and the snapshot (O33). -/

namespace Sys2Proof.Machine

/-! ## A PCB found by its pid -/

theorem findPid_append {before after : List Pcb} {p : Pcb} (h : ∀ q ∈ before, q.pid ≠ p.pid) :
    findPid p.pid (before ++ p :: after) = some p := by
  rw [findPid, List.find?_append, List.find?_eq_none.2 (by simpa using h)]
  simp

theorem removePid_append {before after : List Pcb} {p : Pcb} (h : ∀ q ∈ before, q.pid ≠ p.pid) :
    removePid p.pid (before ++ p :: after) = before ++ after := by
  rw [removePid, List.eraseP_append_right _ (by simpa using h)]
  simp

theorem replacePid_append {before after : List Pcb} {p w : Pcb} (h : ∀ q ∈ before, q.pid ≠ w.pid)
    (hw : p.pid = w.pid) : replacePid w (before ++ p :: after) = before ++ w :: after := by
  induction before with
  | nil => simp [replacePid, hw]
  | cons q before ih =>
    rw [List.cons_append, replacePid, if_neg (h q (by simp)), ih fun r hr => h r (by simp [hr]), List.cons_append]

/-- The entry found is the first of its pid: the queue splits around it. -/
theorem findPid_split {pid : Nat} {ps : List Pcb} {p : Pcb} (h : findPid pid ps = some p) :
    p.pid = pid ∧ ∃ before after, ps = before ++ p :: after ∧ ∀ q ∈ before, q.pid ≠ p.pid := by
  obtain ⟨hp, before, after, hsplit, hbefore⟩ := List.find?_eq_some_iff_append.1 h
  have hp : p.pid = pid := by simpa using hp
  exact ⟨hp, before, after, hsplit, by simpa [hp] using hbefore⟩

/-- With unique pids an entry is found by its pid. -/
theorem findPid_of_mem {ps : List Pcb} (hnodup : (ps.map (·.pid)).Nodup) {p : Pcb} (hp : p ∈ ps) :
    findPid p.pid ps = some p := by
  obtain ⟨before, after, rfl⟩ := List.append_of_mem hp
  refine findPid_append fun q hq hpid => ?_
  rw [List.map_append, List.map_cons] at hnodup
  exact (List.nodup_append.1 hnodup).2.2 _ (List.mem_map_of_mem hq) _ (List.mem_cons_self) hpid

theorem perm_removePid {pid : Nat} {ps : List Pcb} {p : Pcb} (h : findPid pid ps = some p) :
    ps.Perm (p :: removePid pid ps) := by
  obtain ⟨rfl, before, after, rfl, hbefore⟩ := findPid_split h
  rw [removePid_append hbefore]
  exact List.perm_middle

theorem perm_replacePid {w : Pcb} {ps : List Pcb} {p : Pcb} (h : findPid w.pid ps = some p) :
    (replacePid w ps).Perm (w :: removePid w.pid ps) := by
  obtain ⟨hw, before, after, rfl, hbefore⟩ := findPid_split h
  rw [replacePid_append (hw ▸ hbefore) hw, ← hw, removePid_append hbefore]
  exact List.perm_middle

theorem findPid_cons_self (p : Pcb) (ps : List Pcb) : findPid p.pid (p :: ps) = some p :=
  findPid_append (before := []) (by simp)

theorem removePid_cons_self (p : Pcb) (ps : List Pcb) : removePid p.pid (p :: ps) = ps :=
  removePid_append (before := []) (by simp)

/-! ## Insertions -/

/-- An insertion by priority goes after entries that are not greater, and right before one that is, or at the end. -/
theorem insertByPriority_split (p : Pcb) (ps : List Pcb) :
    ∃ before after, ps = before ++ after ∧ insertByPriority p ps = before ++ p :: after ∧
      (∀ q ∈ before, p.priority.lt q.priority = false) ∧ ∀ q ∈ after.head?, p.priority.lt q.priority = true := by
  induction ps with
  | nil => exact ⟨[], [], by simp [insertByPriority]⟩
  | cons q ps ih =>
    rw [insertByPriority]
    split
    next hlt => exact ⟨[], q :: ps, by simp [hlt]⟩
    next hge =>
      obtain ⟨before, after, rfl, heq, hbefore, hafter⟩ := ih
      exact ⟨q :: before, after, rfl, by rw [heq, List.cons_append],
        List.forall_mem_cons.2 ⟨by simpa using hge, hbefore⟩, hafter⟩

/-- Under every policy the new entry is put somewhere into the queue, which is otherwise as it was (R105). -/
theorem readyInsert_split (policy : Policy) (p : Pcb) (ps : List Pcb) :
    ∃ before after, ps = before ++ after ∧ readyInsert policy p ps = before ++ p :: after := by
  cases policy with
  | rr => exact ⟨ps, [], by simp [readyInsert]⟩
  | fcfs => exact ⟨ps, [], by simp [readyInsert]⟩
  | priority =>
    obtain ⟨before, after, hsplit, heq, _⟩ := insertByPriority_split p ps
    exact ⟨before, after, hsplit, heq⟩

theorem perm_readyInsert (policy : Policy) (p : Pcb) (ps : List Pcb) : (readyInsert policy p ps).Perm (p :: ps) := by
  obtain ⟨before, after, rfl, heq⟩ := readyInsert_split policy p ps
  rw [heq]
  exact List.perm_middle

/-- Removing the entry just inserted gives back the queue. -/
theorem removePid_readyInsert {policy : Policy} {p : Pcb} {ps : List Pcb} (h : ∀ q ∈ ps, q.pid ≠ p.pid) :
    removePid p.pid (readyInsert policy p ps) = ps := by
  obtain ⟨before, after, rfl, heq⟩ := readyInsert_split policy p ps
  rw [heq, removePid_append fun q hq => h q (List.mem_append_left _ hq)]

/-- When the head after an insertion is not the new entry, it is the old head, and the new entry is in the rest. -/
theorem readyInsert_head {policy : Policy} {p h : Pcb} {ps rest : List Pcb} (hq : readyInsert policy p ps = h :: rest)
    (hne : h ≠ p) : ∃ before after, ps = h :: (before ++ after) ∧ rest = before ++ p :: after := by
  obtain ⟨before, after, rfl, heq⟩ := readyInsert_split policy p ps
  rw [hq] at heq
  cases before with
  | nil =>
    rw [List.nil_append, List.cons.injEq] at heq
    exact absurd heq.1 hne
  | cons q before =>
    rw [List.cons_append, List.cons.injEq] at heq
    obtain ⟨rfl, rfl⟩ := heq
    exact ⟨before, after, rfl, rfl⟩

theorem perm_insertByPid {p : Pcb} {ps : List Pcb} (h : ∀ q ∈ ps, q.pid ≠ p.pid) :
    (insertByPid p ps).Perm (p :: ps) := by
  induction ps with
  | nil => exact .refl _
  | cons q ps ih =>
    rw [insertByPid]
    split
    · exact .refl _
    · rw [if_neg (h q (by simp)).symm]
      exact ((ih fun r hr => h r (by simp [hr])).cons q).trans (.swap p q ps)

/-- A pid above every other goes to the end of the map. -/
theorem insertByPid_of_lt {p : Pcb} {ps : List Pcb} (h : ∀ q ∈ ps, q.pid < p.pid) : insertByPid p ps = ps ++ [p] := by
  induction ps with
  | nil => rfl
  | cons q ps ih =>
    have hq := h q (by simp)
    rw [insertByPid, if_neg (by omega), if_neg (by omega), ih fun r hr => h r (by simp [hr]), List.cons_append]

/-! ## The order of READY (45_context_switch.md R105) -/

/-- Below an entry that is not above another is below that other. -/
theorem Priority.lt_of_lt_of_not_lt {p q r : Priority} (hpq : p.lt q = true) (hrq : r.lt q = false) :
    p.lt r = true := by
  cases p <;> cases q <;> cases r <;> simp [Priority.lt] at *
  omega

/-- What is below is not above. -/
theorem Priority.not_lt_of_lt {p q : Priority} (h : p.lt q = true) : q.lt p = false := by
  cases p <;> cases q <;> simp [Priority.lt] at *
  omega

/-- Settles O42: the split of `insertByPriority_split`; on a sorted queue the entries after the first greater one are
greater too. -/
theorem readyInsertKeepsOrder : Obligations.ReadyInsertKeepsOrder := by
  refine ⟨fun m n => by simp [Priority.lt], fun m => rfl, fun q => rfl, fun p queue => ⟨rfl, rfl⟩,
    fun p queue hsorted => ?_⟩
  obtain ⟨before, after, rfl, heq, hbefore, hhead⟩ := insertByPriority_split p queue
  rw [List.pairwise_append] at hsorted
  obtain ⟨hsortedBefore, hsortedAfter, hcross⟩ := hsorted
  have hafter : ∀ q ∈ after, p.priority.lt q.priority = true := by
    cases after with
    | nil => simp
    | cons a after =>
      have ha : p.priority.lt a.priority = true := hhead a (by simp)
      obtain ⟨hle, _⟩ := List.pairwise_cons.1 hsortedAfter
      exact List.forall_mem_cons.2 ⟨ha, fun q hq => Priority.lt_of_lt_of_not_lt ha (hle q hq)⟩
  refine ⟨?_, before, after, rfl, heq, hbefore, hafter⟩
  rw [readyInsert, heq, List.pairwise_append, List.pairwise_cons]
  refine ⟨hsortedBefore, ⟨fun q hq => Priority.not_lt_of_lt (hafter q hq), hsortedAfter⟩, fun q hq r hr => ?_⟩
  rcases List.mem_cons.1 hr with rfl | hr
  · exact hbefore q hq
  · exact hcross q hq r hr

/-! ## The victim (R108) -/

/-- Settles O41: `victim` is the first in-memory entry of the reversed queue. -/
theorem victimIsNearestTail : Obligations.VictimIsNearestTail := by
  refine fun s => ⟨fun v => ?_, by simp [State.victim, Pcb.inMemory]⟩
  rw [State.victim, List.find?_eq_some_iff_append]
  constructor
  · rintro ⟨hv, after, before, hsplit, hafter⟩
    have hready : s.ready = before.reverse ++ v :: after.reverse := by
      rw [← s.ready.reverse_reverse, hsplit]
      simp
    exact ⟨before.reverse, after.reverse, hready, by simpa [Pcb.inMemory] using hv,
      by simpa [Pcb.inMemory] using hafter⟩
  · rintro ⟨before, after, hsplit, hv, hafter⟩
    exact ⟨by simpa [Pcb.inMemory] using hv, after.reverse, before.reverse, by simp [hsplit],
      by simpa [Pcb.inMemory] using hafter⟩

/-! ## The snapshot (R100 to R102) -/

/-- `serialize` on the PCB is the mirror of the registers, made fresh and ready. -/
theorem Pcb.serialized_eq (p : Pcb) (c : Cpu) :
    p.serialized c = { mirrored p c with fresh := true, status := .ready } := rfl

theorem Pcb.withSnapshotBytes_snapshotBytes (p q : Pcb) : p.withSnapshotBytes q.snapshotBytes = some { p with
    programCounter := q.programCounter
    accumulator := q.accumulator
    xReg := q.xReg
    yReg := q.yReg
    zFlag := q.zFlag
    lastInstruction := q.lastInstruction } := by
  cases hz : q.zFlag <;> simp [Pcb.withSnapshotBytes, Pcb.snapshotBytes, hz]

/-- Settles O33: each operation writes its fields, and the record's one coded byte reads back in both cases. -/
theorem snapshotRoundTrip : Obligations.SnapshotRoundTrip :=
  ⟨fun p c _ => ⟨p.serialized_eq c, rfl, rfl, rfl, rfl⟩, Pcb.withSnapshotBytes_snapshotBytes⟩

end Sys2Proof.Machine
end

section
/-! PROOF. What an instruction tick does to the processes: the executing PCB, the statistics (O38) and the quantum
(O36). -/

namespace Sys2Proof.Machine

/-! ## What a cycle leaves -/

theorem SameEngine.trans {s t u : State} (h : SameEngine s t) (h' : SameEngine t u) : SameEngine s u := by
  unfold SameEngine at *
  simp_all

theorem State.sameEngine_restoreIfFresh (s : State) : SameEngine s s.restoreIfFresh := by
  rcases s.restoreIfFresh_cases with ⟨h, _⟩ | ⟨p, _, _, h⟩ <;> rw [h] <;> simp [SameEngine]

theorem State.mem_restoreIfFresh (s : State) : s.restoreIfFresh.mem = s.mem := by
  rcases s.restoreIfFresh_cases with ⟨h, _⟩ | ⟨p, _, _, h⟩ <;> rw [h]

/-- After the restore the executing PCB is not fresh, and otherwise as it was (40_cycle.md R67). -/
theorem State.executing_restoreIfFresh {s : State} {p : Pcb} (h : s.executing = some p) :
    s.restoreIfFresh.executing = some { p with fresh := false } := by
  rcases s.restoreIfFresh_cases with ⟨hr, hfresh⟩ | ⟨q, hq, _, hr⟩ <;> rw [hr]
  · rw [h, ← hfresh p h]
  · rw [h] at hq
    cases hq
    rfl

/-- What a logical address names depends on the executing PCB only by its segment. -/
theorem State.names_of_segment {s t : State} {p q : Pcb} {k a : Nat} (hs : s.executing = some p)
    (ht : t.executing = some q) (hpq : p.occupiedSegment = q.occupiedSegment) (hcfg : s.cfg = t.cfg)
    (hseg : s.seg = t.seg) (h : t.Names k a) : s.Names k a := by
  obtain ⟨q', i, g, hq', hi, hg, hk, ha, hlt⟩ := h
  rw [ht] at hq'
  cases hq'
  exact ⟨p, i, g, hs, hpq ▸ hi, hseg ▸ hg, hk, ha, hcfg ▸ hlt⟩

/-- What a cycle of the process `p` leaves of the machine: the engine, `p` but for its snapshot and `fresh`, and the
byte store but for at most one byte that `p` names. -/
theorem cycle_frame {s u : State} {p : Pcb} (he : s.executing = some p) (h : cycle s = .next u) :
    SameEngine s u ∧ (∃ c, u.executing = some { mirrored p c with fresh := false }) ∧
      (u.mem = s.mem ∨ ∃ k a v, s.Names k a ∧ u.mem = Memory.write s.mem a v) := by
  have hrestored := State.executing_restoreIfFresh he
  have hengine := s.sameEngine_restoreIfFresh
  have hown : some { p with fresh := false } = some { mirrored p (s.cpu.loadedFrom p) with fresh := false } := rfl
  rcases cycle_cases s with ⟨c, _, hc⟩ | ⟨i, op, last, _, hc⟩ <;> rw [hc] at h
  · cases h
    obtain ⟨hfault, hmem, hexec, _⟩ := s.restoreIfFresh.takeFault_frame c
    exact ⟨hengine.trans hfault, ⟨_, (hexec.trans hrestored).trans hown⟩, .inl (hmem.trans s.mem_restoreIfFresh)⟩
  · obtain ⟨hrun, hexec, _⟩ := exec_keeps_engine h
    refine ⟨hengine.trans hrun, ?_, ?_⟩
    · rcases hexec with hexec | hexec
      · exact ⟨_, (hexec.trans hrestored).trans hown⟩
      · exact ⟨u.cpu, hexec.trans (congrArg (Option.map fun q => mirrored q u.cpu) hrestored)⟩
    · rcases exec_mem_cases h with hmem | ⟨addr, a, v, _, ha, hmem⟩
      · exact .inl (hmem.trans s.mem_restoreIfFresh)
      · refine .inr ⟨_, a, v, State.names_of_segment he hrestored rfl hengine.1.symm hengine.2.1.symm ha, ?_⟩
        exact hmem.trans (congrArg (Memory.write · a v) s.mem_restoreIfFresh)

/-! ## The accounting after a cycle (R112 to R115) -/

/-- After the statistics the accounting writes at most the quantum state and the queue's tail. -/
theorem State.afterCycle_eq (s : State) (pid : Nat) : ∃ qPid qCount intq,
    s.afterCycle pid = { s.updateStats with qPid := qPid, qCount := qCount, intq := intq } := by
  rcases s.afterCycle_cases pid with ⟨_, h⟩ | ⟨_, h⟩ <;> rw [h]
  · rcases s.updateStats.policyAfterInstruction_cases pid with ⟨_, hp⟩ | ⟨_, _, hp⟩ | ⟨_, _, hp⟩ <;> rw [hp] <;>
      exact ⟨_, _, _, rfl⟩
  · exact ⟨_, _, _, rfl⟩

/-- Settles O38: the cycle leaves READY and the two counters, and the statistics add to them. -/
theorem statisticsPerInstructionTick : Obligations.StatisticsPerInstructionTick := by
  intro s t p hh hq he hstep
  rw [step_of_executing hh hq he] at hstep
  obtain ⟨u, hcycle, rfl⟩ := instructionTick_next hstep
  obtain ⟨hengine, ⟨c, hexec⟩, _⟩ := cycle_frame he hcycle
  obtain ⟨_, _, _, _, hready, _⟩ := hengine
  obtain ⟨_, _, _, hafter⟩ := u.afterCycle_eq p.pid
  rw [hafter]
  refine ⟨?_, { mirrored p c with fresh := false, cyclesExecuting := p.cyclesExecuting + 1 }, ?_, rfl, rfl, rfl⟩
  · simp only [State.updateStats, hready]
  · simp only [State.updateStats, hexec]
    rfl

/-- Settles O36, by the cases of the policy after an OK cycle and of a cycle that was not OK. -/
theorem quantumRequestsSwitch : Obligations.QuantumRequestsSwitch := by
  intro s pid t n
  have hn : s.updateStats.quantumCount pid = n := rfl
  have hquantum : s.updateStats.cfg.quantum = s.cfg.quantum := rfl
  refine ⟨fun hrr hok hlt => ?_, fun hrr hok hle => ?_, fun hnot => ?_⟩
  · have ht : t = s.updateStats.policyAfterInstruction pid := if_pos hok
    rcases s.updateStats.policyAfterInstruction_cases pid with ⟨hp, _⟩ | ⟨_, _, h⟩ | ⟨_, hge, _⟩
    · exact absurd hrr hp
    · rw [ht, h]
      exact ⟨rfl, hn, rfl⟩
    · omega
  · have ht : t = s.updateStats.policyAfterInstruction pid := if_pos hok
    rcases s.updateStats.policyAfterInstruction_cases pid with ⟨hp, _⟩ | ⟨_, hlt, _⟩ | ⟨_, _, h⟩
    · exact absurd hrr hp
    · omega
    · rw [ht, h]
      exact ⟨rfl, rfl, rfl⟩
  · rcases s.afterCycle_cases pid with ⟨hok, h⟩ | ⟨_, h⟩
    · have hrr : s.cfg.policy ≠ .rr := hnot.resolve_right fun hne => hne hok
      rcases s.updateStats.policyAfterInstruction_cases pid with ⟨_, hp⟩ | ⟨hp, _⟩ | ⟨hp, _⟩
      · rw [show t = s.updateStats from h.trans hp]
        exact ⟨rfl, rfl, rfl⟩
      · exact absurd hp hrr
      · exact absurd hp hrr
    · rw [show t = s.updateStats from h]
      exact ⟨rfl, rfl, rfl⟩

end Sys2Proof.Machine
end

section
/-! PROOF. Termination: of the executing process (O39), of a ready one and of a pid that is not active (O40). -/

namespace Sys2Proof.Machine

/-! ## The tick of a record (60_exceptions.md R147) -/

theorem step_of_record {s : State} {r : Interrupt} {records : List Interrupt} (hh : s.halted = false)
    (hq : s.intq = r :: records) : step s = .next (State.handle { s with intq := records } r) := by
  simp [step, tickStep, hh, hq]

theorem State.handle_of_terminates {r : Interrupt} {pid : Nat} (h : r.Terminates pid) (s : State) :
    s.handle r = s.handleTerminate pid := by
  rcases h with rfl | rfl | rfl <;> rfl

/-! ## The swap file of a process (45_context_switch.md R110, R116) -/

theorem State.swapFilePresent_of_gone {s : State} {pid : Nat} (h : s.SwapImageGone pid) :
    s.swapFilePresent pid = .ok false := by
  unfold State.swapFilePresent
  split
  next hswap =>
    have hlookup : s.disk.lookup s.cfg (swapName pid) = .ok none := by
      simpa [State.SwapImageGone, hswap.1, hswap.2] using h
    rw [hlookup]
    rfl
  next => rfl

theorem State.swapFilePresent_of_listed {s : State} {pid : Nat} (hf : s.disk.formatted = true)
    (hs : pid ∈ s.disk.swaps) :
    s.swapFilePresent pid = (s.disk.lookup s.cfg (swapName pid)).map Option.isSome := by
  rw [State.swapFilePresent, if_pos ⟨hf, hs⟩]
  cases s.disk.lookup s.cfg (swapName pid) <;> rfl

/-- An image that is not lost is of a pid in `SWAPS` on a formatted disk. -/
theorem State.listed_of_not_gone {s : State} {pid : Nat} (h : ¬ s.SwapImageGone pid) :
    s.disk.formatted = true ∧ pid ∈ s.disk.swaps := by
  simp only [State.SwapImageGone, not_or, Bool.not_eq_false, Decidable.not_not] at h
  exact ⟨h.1, h.2.1⟩

theorem State.reclaimSwap_of_absent {s : State} {pid : Nat} (h : s.swapFilePresent pid = .ok false) :
    s.reclaimSwap pid = s := by
  simp [State.reclaimSwap, h]

theorem State.reclaimSwap_of_deleteSwap {s : State} {pid : Nat} {img : List Byte} {d : Disk}
    (h : s.swapFilePresent pid = .ok true) (hd : s.disk.deleteSwap s.cfg pid = .ok (img, d)) :
    s.reclaimSwap pid = { s with disk := d } := by
  simp [State.reclaimSwap, h, hd]

theorem State.reclaimSwap_of_error {s : State} {pid : Nat} {e : FsError}
    (h : s.swapFilePresent pid = .error e ∨
      s.swapFilePresent pid = .ok true ∧ s.disk.deleteSwap s.cfg pid = .error e) :
    s.reclaimSwap pid = s.report (.reclaimFailed pid e) := by
  rcases h with h | ⟨h, hd⟩
  · simp [State.reclaimSwap, h]
  · simp [State.reclaimSwap, h, hd]

theorem Disk.not_mem_swaps_of_deleteSwap {c : Config} {d d' : Disk} {pid : Nat} {img : List Byte}
    (h : d.deleteSwap c pid = .ok (img, d')) : pid ∉ d'.swaps := by
  obtain ⟨_, _, _, d1, _, rfl⟩ := Disk.deleteSwap_ok h
  exact fun hmem => (mem_erasePid.1 hmem).1 rfl

/-! ## What `terminate` leaves, in full (R116) -/

theorem State.terminate_of_executing {s : State} {p : Pcb} (h : s.executing = some p) :
    s.terminate p.pid = some (State.finishTermination { s with executing := none } p true) := by
  simp [State.terminate, h]

theorem State.terminate_of_ready {s : State} {pid : Nat} {p : Pcb} (he : ∀ q, s.executing = some q → q.pid ≠ pid)
    (hp : findPid pid s.ready = some p) :
    s.terminate pid = some (State.finishTermination { s with ready := removePid pid s.ready } p false) := by
  cases hs : s.executing with
  | none => simp [State.terminate, hs, hp]
  | some q => simp [State.terminate, hs, hp, he q hs]

/-- A termination by what its reclamation answers. -/
theorem State.finishTermination_of_reclaim {s u : State} {p q : Pcb}
    (h : (s.setCpu { s.cpu with isExecuting := false }).reclaim { p with status := .terminated } = (q, u))
    (wasExec : Bool) :
    s.finishTermination p wasExec = { u with
      terminated := u.terminated ++ [q]
      cpu := if wasExec then zeroCpu else u.cpu
      display := if wasExec then u.display ++ [{ cpu := zeroCpu, pcb := u.executing }] else u.display
      qPid := if u.qPid = some p.pid then none else u.qPid
      qCount := if u.qPid = some p.pid then 0 else u.qCount
      console := u.console ++
        [.putSystemText (.terminated p.pid p.cyclesInReady (p.cyclesInReady + p.cyclesExecuting))] } := by
  unfold State.finishTermination
  rw [h]
  cases wasExec <;> by_cases hq : u.qPid = some p.pid <;> simp [State.forgetQuantum, hq] <;> rfl

/-- A registered process in a segment of the table: its segment is zero-filled, freed and unregistered. -/
theorem State.finishTermination_of_memory {s : State} {p : Pcb} {i : Nat} {g : Segment} (hl : p.location = .memory)
    (hp : p.occupiedSegment = some i) (hg : s.seg[i]? = some g) (hreg : p.pid ∈ s.reg) (wasExec : Bool) :
    s.finishTermination p wasExec =
      { Terminated s { p with occupiedSegment := none } [] with
        mem := Memory.zeroRange s.mem g.base g.size
        occ := s.occ.set i false
        reg := erasePid p.pid s.reg
        cpu := if wasExec then zeroCpu else { s.cpu with isExecuting := false }
        display := if wasExec then s.display ++ [{ cpu := zeroCpu, pcb := s.executing }] else s.display } := by
  have hreclaim : (s.setCpu { s.cpu with isExecuting := false }).reclaim { p with status := .terminated } =
      (s.setCpu { s.cpu with isExecuting := false }).evacuate { p with status := .terminated } := by
    simp [State.reclaim, hl]
  have hevacuate := State.evacuate_of_segment (s := s.setCpu { s.cpu with isExecuting := false })
    (p := { p with status := .terminated }) hreg hp hg
  rw [State.finishTermination_of_reclaim (hreclaim.trans hevacuate)]
  rfl

/-- A ready process on disk: its swap file is reclaimed, and its segment is none to begin with. -/
theorem State.finishTermination_of_disk {s : State} {p : Pcb} (hl : p.location = .disk) {d : Disk}
    {reports : List Report}
    (h : (s.setCpu { s.cpu with isExecuting := false }).reclaimSwap p.pid =
      { s with
        cpu := { s.cpu with isExecuting := false }
        disk := d
        console := s.console ++ reports.map .putSystemText }) :
    s.finishTermination p false = { Terminated s p reports with disk := d } := by
  have hreclaim : (s.setCpu { s.cpu with isExecuting := false }).reclaim { p with status := .terminated } =
      ({ p with status := .terminated },
        (s.setCpu { s.cpu with isExecuting := false }).reclaimSwap p.pid) := by
    simp [State.reclaim, hl]
  rw [h] at hreclaim
  rw [State.finishTermination_of_reclaim hreclaim]
  simp [Terminated]

/-- A ready process on disk whose swap file is gone: nothing is reclaimed. -/
theorem State.finishTermination_of_gone {s : State} {p : Pcb} (hl : p.location = .disk)
    (h : s.SwapImageGone p.pid) : s.finishTermination p false = Terminated s p [] := by
  refine State.finishTermination_of_disk hl (d := s.disk) (reports := []) ?_
  have habsent := State.swapFilePresent_of_gone (s := s.setCpu { s.cpu with isExecuting := false }) h
  rw [State.reclaimSwap_of_absent habsent]
  simp [State.setCpu]

/-! ## The two statements -/

/-- Settles O39: the record's handler finds the executing PCB, and its segment is freed. -/
theorem terminationOfExecuting : Obligations.TerminationOfExecuting := by
  intro s t p i r records hrun hl hreg hh hq hr hstep
  obtain ⟨hlegal, hseg, he, hp, hi⟩ := hrun
  have hg : s.seg[i]? = some (segmentAt s.cfg i) := by rw [hseg, segmentTable_getElem?_of_lt hi]
  rw [step_of_record hh hq, State.handle_of_terminates hr, State.handleTerminate,
    State.terminate_of_executing (s := { s with intq := records }) he,
    State.finishTermination_of_memory (s := { s with intq := records, executing := none }) hl hp hg hreg] at hstep
  cases hstep
  refine ⟨rfl, rfl, rfl, rfl, rfl, rfl, rfl, rfl, fun q => mem_erasePid, fun a => ?_, fun h => ?_, fun h => ?_, rfl⟩
  · exact (Memory.read_zeroRange s.mem _ _ a).trans (by rw [segmentAt_size hlegal, segmentAt])
  · exact ⟨if_pos h, if_pos h⟩
  · exact ⟨if_neg h, if_neg h⟩

/-- Settles O40: the pid is not found, or the first PCB of that pid in READY is terminated, in memory or on disk with
each of the outcomes of reclaiming its swap file. -/
theorem terminationOfReadyOrInactive : Obligations.TerminationOfReadyOrInactive := by
  intro s pid r records hh hq hr hexec
  have hstep : step s = .next (State.handleTerminate { s with intq := records } pid) := by
    rw [step_of_record hh hq, State.handle_of_terminates hr]
  refine ⟨fun hready => ?_, ?_⟩
  · have hnone : State.terminate { s with intq := records } pid = none :=
      State.terminate_none.2 ⟨hexec, findPid_none.2 hready⟩
    rw [hstep, State.handleTerminate, hnone]
    rfl
  intro before p after hready hpid hbefore
  subst hpid
  have hterminate : step s =
      .next (State.finishTermination { s with intq := records, ready := before ++ after } p false) := by
    have hfind : findPid p.pid s.ready = some p := by rw [hready, findPid_append hbefore]
    have hremove : removePid p.pid s.ready = before ++ after := by rw [hready, removePid_append hbefore]
    rw [hstep, State.handleTerminate, State.terminate_of_ready (s := { s with intq := records }) hexec hfind, hremove]
  rw [hterminate]
  refine ⟨fun i hmem hi hl hp hreg => ?_, fun hl hgone => ?_, fun l img d hl hlookup hdelete => ⟨?_, ?_⟩,
    fun e hl hgone herror => ?_⟩
  · obtain ⟨hlegal, hseg, _, _⟩ := hmem
    have hg : s.seg[i]? = some (segmentAt s.cfg i) := by rw [hseg, segmentTable_getElem?_of_lt hi]
    rw [State.finishTermination_of_memory (s := { s with intq := records, ready := before ++ after }) hl hp hg hreg]
    refine ⟨_, _, rfl, fun q => mem_erasePid, fun a => ?_⟩
    exact (Memory.read_zeroRange s.mem _ _ a).trans (by rw [segmentAt_size hlegal, segmentAt])
  · exact congrArg _
      (State.finishTermination_of_gone (s := { s with intq := records, ready := before ++ after }) hl hgone)
  · exact Disk.not_mem_swaps_of_deleteSwap hdelete
  · obtain ⟨hf, hswaps, _⟩ := Disk.deleteSwap_ok hdelete
    have hpresent : s.swapFilePresent p.pid = .ok true := by
      rw [State.swapFilePresent_of_listed hf hswaps, hlookup]
      rfl
    refine congrArg _ (State.finishTermination_of_disk (s := { s with intq := records, ready := before ++ after }) hl
      (d := d) (reports := []) ?_)
    rw [List.map_nil, List.append_nil]
    exact State.reclaimSwap_of_deleteSwap hpresent hdelete
  · obtain ⟨hf, hswaps⟩ := State.listed_of_not_gone hgone
    have hfail : s.swapFilePresent p.pid = .error e ∨
        s.swapFilePresent p.pid = .ok true ∧ s.disk.deleteSwap s.cfg p.pid = .error e := by
      rw [State.swapFilePresent_of_listed hf hswaps]
      rcases herror with h | ⟨⟨l, h⟩, hdelete⟩ <;> rw [h]
      · exact .inl rfl
      · exact .inr ⟨rfl, hdelete⟩
    exact congrArg _ (State.finishTermination_of_disk (s := { s with intq := records, ready := before ++ after }) hl
      (d := s.disk) (reports := [.reclaimFailed p.pid e]) (State.reclaimSwap_of_error hfail))

end Sys2Proof.Machine
end

section
/-! PROOF. The ledger of segments and pids: the part of the process table that memory management moves, as a list of
(pid, segment) seats, and the six moves that keep it. -/

namespace Sys2Proof.Machine

/-- Who sits where: the pid of a PCB and its segment, `none` for one on disk. -/
def Pcb.seat (p : Pcb) : Nat × Option Nat := (p.pid, p.occupiedSegment)

/-- Memory, occupancy map, registry and pid counter of `s` agree with the live `seats` and the terminated pids `gone`:
no pid is used twice, no segment is shared, the occupied segments and the registered pids are exactly those of the
seats, and free segments are zero (45_context_switch.md R117, 20_memory.md R38, R46). -/
structure State.Ledger (s : State) (seats : List (Nat × Option Nat)) (gone : List Nat) : Prop where
  memory : s.memoryOk
  zero : s.freeSegmentsZero
  pids_nodup : (seats.map Prod.fst ++ gone).Nodup
  pid_lt : ∀ pid ∈ seats.map Prod.fst ++ gone, pid < s.nextPid
  occ_length : s.occ.length = s.cfg.numSegments
  occ_iff : ∀ i, s.occ[i]? = some true ↔ ∃ pid, (pid, some i) ∈ seats
  segments_nodup : (seats.filterMap Prod.snd).Nodup
  reg_iff : ∀ pid, pid ∈ s.reg ↔ ∃ i, (pid, some i) ∈ seats

namespace State.Ledger

variable {s t : State} {seats seats' : List (Nat × Option Nat)} {gone gone' : List Nat} {pid i : Nat}

/-- The ledger reads six fields of the state; for a record update of others each hypothesis is `rfl`. -/
theorem of_eq (h : s.Ledger seats gone) (cfg : t.cfg = s.cfg := by rfl) (seg : t.seg = s.seg := by rfl)
    (mem : t.mem = s.mem := by rfl) (occ : t.occ = s.occ := by rfl) (reg : t.reg = s.reg := by rfl)
    (nextPid : t.nextPid = s.nextPid := by rfl) : t.Ledger seats gone where
  memory := by rw [State.memoryOk, cfg, seg, mem]; exact h.memory
  zero := by rw [State.freeSegmentsZero, occ, seg, mem]; exact h.zero
  pids_nodup := h.pids_nodup
  pid_lt := nextPid ▸ h.pid_lt
  occ_length := by rw [occ, cfg, h.occ_length]
  occ_iff := occ ▸ h.occ_iff
  segments_nodup := h.segments_nodup
  reg_iff := reg ▸ h.reg_iff

/-- The order of the seats and of the terminated pids does not matter. -/
theorem perm (h : s.Ledger seats gone) (hseats : seats.Perm seats') (hgone : gone.Perm gone') :
    s.Ledger seats' gone' where
  memory := h.memory
  zero := h.zero
  pids_nodup := ((hseats.map _).append hgone).nodup_iff.1 h.pids_nodup
  pid_lt := fun pid hpid => h.pid_lt pid (((hseats.map _).append hgone).mem_iff.2 hpid)
  occ_length := h.occ_length
  occ_iff := fun i => by simp only [h.occ_iff i, hseats.mem_iff]
  segments_nodup := (hseats.filterMap _).nodup_iff.1 h.segments_nodup
  reg_iff := fun pid => by simp only [h.reg_iff pid, hseats.mem_iff]

/-- A seat's segment is in the table. -/
theorem segment_lt (h : s.Ledger seats gone) (hseat : (pid, some i) ∈ seats) : i < s.cfg.numSegments := by
  rw [← h.occ_length]
  exact (List.getElem?_eq_some_iff.1 ((h.occ_iff i).2 ⟨pid, hseat⟩)).1

theorem segment (h : s.Ledger seats gone) (hi : i < s.cfg.numSegments) : s.seg[i]? = some (segmentAt s.cfg i) := by
  obtain ⟨_, hseg, _⟩ := h.memory
  rw [hseg, segmentTable_getElem?_of_lt hi]

theorem segments_cons (pid i : Nat) (seats : List (Nat × Option Nat)) :
    ((pid, some i) :: seats).filterMap Prod.snd = i :: seats.filterMap Prod.snd := rfl

/-- The pid of the first seat is in no other one. -/
theorem head_pid_notMem {o o' : Option Nat} (h : s.Ledger ((pid, o) :: seats) gone) : (pid, o') ∉ seats := by
  intro hmem
  have hnodup := h.pids_nodup
  rw [List.map_cons, List.cons_append, List.nodup_cons] at hnodup
  exact hnodup.1 (List.mem_append_left _ (List.mem_map.2 ⟨_, hmem, rfl⟩))

/-- The segment of the first seat is in no other one. -/
theorem head_segment_notMem {q : Nat} (h : s.Ledger ((pid, some i) :: seats) gone) : (q, some i) ∉ seats := by
  intro hmem
  have hnodup := h.segments_nodup
  rw [segments_cons, List.nodup_cons] at hnodup
  exact hnodup.1 (List.mem_filterMap.2 ⟨_, hmem, rfl⟩)

/-! ## The moves -/

/-- A new process gets the next pid and, to begin with, no segment (45_context_switch.md R103). -/
theorem enroll (h : s.Ledger seats gone) :
    Ledger { s with nextPid := s.nextPid + 1 } ((s.nextPid, none) :: seats) gone where
  memory := h.memory
  zero := h.zero
  pids_nodup := by
    rw [List.map_cons, List.cons_append, List.nodup_cons]
    exact ⟨fun hmem => absurd (h.pid_lt _ hmem) (Nat.lt_irrefl _), h.pids_nodup⟩
  pid_lt := fun pid hpid => by
    rcases List.mem_cons.1 hpid with rfl | hpid
    · exact Nat.lt_succ_self _
    · exact Nat.lt_succ_of_lt (h.pid_lt pid hpid)
  occ_length := h.occ_length
  occ_iff := by simpa using h.occ_iff
  segments_nodup := h.segments_nodup
  reg_iff := by simpa using h.reg_iff

/-- A process without a segment terminates (R116). -/
theorem retire (h : s.Ledger ((pid, none) :: seats) gone) : s.Ledger seats (gone ++ [pid]) := by
  have hperm : (((pid, none) :: seats).map Prod.fst ++ gone).Perm (seats.map Prod.fst ++ (gone ++ [pid])) := by
    rw [List.map_cons, ← List.append_assoc]
    exact (List.perm_append_singleton _ _).symm
  exact {
    memory := h.memory
    zero := h.zero
    pids_nodup := hperm.nodup_iff.1 h.pids_nodup
    pid_lt := fun q hq => h.pid_lt q (hperm.mem_iff.2 hq)
    occ_length := h.occ_length
    occ_iff := by simpa using h.occ_iff
    segments_nodup := h.segments_nodup
    reg_iff := by simpa using h.reg_iff }

/-- A process gives its segment back: zero-filled, free and out of the registry (20_memory.md R44, R45). -/
theorem vacate {p : Pcb} (hp : p.seat = (pid, some i)) (h : s.Ledger ((pid, some i) :: seats) gone) :
    (s.vacate p).Ledger ((pid, none) :: seats) gone := by
  obtain ⟨rfl, hi⟩ := Prod.mk.inj hp
  have hlt := h.segment_lt (List.mem_cons_self)
  have hg := h.segment hlt
  have hmemory := State.memoryOk_vacate h.memory p
  rcases s.vacate_cases p with ⟨j, g, hj, hg', hv⟩ | ⟨hno, _⟩
  case inr => rw [hno i hi] at hg; cases hg
  rw [hi] at hj
  cases hj
  rw [hg] at hg'
  cases hg'
  rw [hv] at hmemory ⊢
  refine ⟨hmemory, fun k g hk hgk a hbase hlimit => ?_, h.pids_nodup, h.pid_lt, ?_, fun k => ?_, ?_, fun q => ?_⟩
  · rw [Memory.read_zeroRange]
    split
    next => rfl
    next hout =>
      have hne : i ≠ k := by
        rintro rfl
        cases hg.symm.trans hgk
        simp only [Segment.size] at hout
        omega
      rw [List.getElem?_set_ne hne] at hk
      exact h.zero k g hk hgk a hbase hlimit
  · rw [List.length_set, h.occ_length]
  · by_cases hk : i = k
    · subst hk
      have hnone : ∀ q, (q, some i) ∉ seats := fun q => h.head_segment_notMem
      simp [hnone, h.occ_length, hlt]
    · rw [List.getElem?_set_ne hk, h.occ_iff k]
      simp [Ne.symm hk]
  · have hnodup := h.segments_nodup
    rw [segments_cons, List.nodup_cons] at hnodup
    exact hnodup.2
  · rw [mem_erasePid, h.reg_iff q]
    by_cases hq : q = p.pid
    · subst hq
      have hnone : ∀ j, (p.pid, some j) ∉ seats := fun j => h.head_pid_notMem
      simp [hnone]
    · simp [hq]

/-- A process is placed in the first free segment and registered (20_memory.md R42, R43). -/
theorem occupy {u : State} {program : List Byte} (hplace : s.place program = .ok (i, u))
    (h : s.Ledger ((pid, none) :: seats) gone) :
    Ledger { u with reg := insertPid pid u.reg } ((pid, some i) :: seats) gone := by
  have hmemory : u.memoryOk := State.memoryOk_of_place h.memory hplace
  obtain ⟨hfree, g, hg, rfl⟩ := State.place_ok.1 hplace
  obtain ⟨hocc, _⟩ := State.freeSegment_some hfree
  obtain ⟨hlegal, hseg, hwf, _⟩ := h.memory
  have hlt : i < s.occ.length := (List.getElem?_eq_some_iff.1 hocc).1
  obtain rfl : segmentAt s.cfg i = g := by
    rw [h.segment (h.occ_length ▸ hlt)] at hg
    exact Option.some.inj hg
  have hvacant : ∀ q, (q, some i) ∉ seats := fun q hq => by
    have htrue := (h.occ_iff i).2 ⟨q, List.mem_cons_of_mem _ hq⟩
    rw [hocc] at htrue
    cases htrue
  refine ⟨hmemory, fun k g hk hgk a hbase hlimit => ?_, h.pids_nodup, h.pid_lt, ?_, fun k => ?_, ?_, fun q => ?_⟩
  · have hne : i ≠ k := by
      rintro rfl
      simp [hlt] at hk
    rw [List.getElem?_set_ne hne] at hk
    obtain ⟨_, rfl⟩ := segmentTable_getElem? (hseg ▸ hgk)
    have hout : ¬ ((segmentAt s.cfg i).base ≤ a ∧ a ≤ (segmentAt s.cfg i).limit) := fun hin =>
      hne (((segmentAt_contains_iff hlegal).1 hin).symm.trans ((segmentAt_contains_iff hlegal).1 ⟨hbase, hlimit⟩))
    have hout' : ¬ ((segmentAt s.cfg i).base ≤ a ∧ a < (segmentAt s.cfg i).base + s.cfg.segSize) :=
      fun hin => hout ⟨hin.1, Nat.le_sub_one_of_lt hin.2⟩
    exact (Memory.read_writeBytes_outside hwf (List.length_take_le _ _) hout').trans
      (h.zero k _ hk hgk a hbase hlimit)
  · rw [List.length_set, h.occ_length]
  · by_cases hk : i = k
    · subst hk
      simp [hlt]
    · rw [List.getElem?_set_ne hk, h.occ_iff k]
      simp [Ne.symm hk]
  · rw [segments_cons, List.nodup_cons]
    refine ⟨fun hmem => ?_, h.segments_nodup⟩
    obtain ⟨⟨q, o⟩, hq, rfl⟩ := List.mem_filterMap.1 hmem
    exact hvacant q hq
  · rw [mem_insertPid, h.reg_iff q]
    by_cases hq : q = pid <;> simp [hq]

/-- The executing process stores a byte in its own segment, which is not free (R41). -/
theorem write {p : Pcb} {k a : Nat} (he : s.executing = some p) (hseat : p.seat ∈ seats) (hnames : s.Names k a)
    (v : Byte) (h : s.Ledger seats gone) : (s.setMem (Memory.write s.mem a v)).Ledger seats gone := by
  obtain ⟨hlegal, hseg, hwf, _⟩ := h.memory
  obtain ⟨q, i, g, hq, hi, hg, hk, rfl, hlt⟩ := hnames
  rw [he] at hq
  cases hq
  obtain ⟨_, rfl⟩ := segmentTable_getElem? (hseg ▸ hg)
  refine ⟨State.memoryOk_setMem_write h.memory hlt v, fun j g' hj hg' b hbase hlimit => ?_, h.pids_nodup, h.pid_lt,
    h.occ_length, h.occ_iff, h.segments_nodup, h.reg_iff⟩
  obtain ⟨_, rfl⟩ := segmentTable_getElem? (hseg ▸ hg')
  have hocc : s.occ[i]? = some true := (h.occ_iff i).2 ⟨p.pid, by rwa [Pcb.seat, hi] at hseat⟩
  have hne : b ≠ (segmentAt s.cfg i).base + k := by
    rintro rfl
    have hpos := (Config.segSize_legal hlegal).1
    have hin : (segmentAt s.cfg i).base ≤ (segmentAt s.cfg i).base + k ∧
        (segmentAt s.cfg i).base + k ≤ (segmentAt s.cfg i).limit := by
      simp only [segmentAt] at hk ⊢
      omega
    have hij : i = j :=
      ((segmentAt_contains_iff hlegal).1 hin).symm.trans ((segmentAt_contains_iff hlegal).1 ⟨hbase, hlimit⟩)
    subst hij
    have hfalse : s.occ[i]? = some false := hj
    rw [hocc] at hfalse
    cases hfalse
  exact (Memory.read_write hwf _ v b).trans ((if_neg hne).trans (h.zero j _ hj hg' b hbase hlimit))

end State.Ledger

end Sys2Proof.Machine
end

section
/-! PROOF. The process table: a table in order, one with a PCB taken out of its place, and the ways a PCB leaves its
place and gets another. -/

namespace Sys2Proof.Machine

/-! ## A table in order -/

/-- The seats of the live PCBs. -/
def State.seats (s : State) : List (Nat × Option Nat) :=
  s.executing.toList.map Pcb.seat ++ s.ready.map Pcb.seat ++ s.resident.map Pcb.seat

/-- A live PCB is in memory, with a segment, or on disk, without one. -/
def Pcb.Seated (p : Pcb) : Prop := p.location ≠ .undefined ∧ (p.location = .memory ↔ p.occupiedSegment ≠ none)

/-- Every PCB has the status of its place (10_state.md R26). -/
structure State.QueuesOk (s : State) : Prop where
  executing : ∀ p, s.executing = some p → p.status = .running ∧ p.location = .memory ∧ p.Seated
  ready : ∀ p ∈ s.ready, p.status = .ready ∧ p.Seated
  resident : ∀ p ∈ s.resident, p.status = .resident ∧ p.Seated
  terminated : ∀ p ∈ s.terminated, p.status = .terminated ∧ p.occupiedSegment = none

/-- An update of other fields; for a record update each hypothesis is `rfl`. -/
theorem State.QueuesOk.of_eq {s t : State} (h : s.QueuesOk) (executing : t.executing = s.executing := by rfl)
    (ready : t.ready = s.ready := by rfl) (resident : t.resident = s.resident := by rfl)
    (terminated : t.terminated = s.terminated := by rfl) : t.QueuesOk :=
  ⟨executing ▸ h.executing, ready ▸ h.ready, resident ▸ h.resident, terminated ▸ h.terminated⟩

/-- The table is in order: the ledger agrees with the PCBs in their places. -/
structure State.TableOk (s : State) : Prop where
  ledger : s.Ledger s.seats (s.terminated.map (·.pid))
  queues : s.QueuesOk

/-- The table is in order but for the live PCB `p`, which has been taken out of its place. -/
structure State.TableOkBut (s : State) (p : Pcb) : Prop where
  ledger : s.Ledger (p.seat :: s.seats) (s.terminated.map (·.pid))
  queues : s.QueuesOk
  seated : p.Seated

theorem State.mem_live {s : State} {p : Pcb} : p ∈ s.live ↔ s.executing = some p ∨ p ∈ s.ready ∨ p ∈ s.resident := by
  simp [State.live]

theorem State.mem_seats {s : State} {pid : Nat} {o : Option Nat} :
    (pid, o) ∈ s.seats ↔ ∃ p ∈ s.live, p.pid = pid ∧ p.occupiedSegment = o := by
  simp [State.seats, State.live, Pcb.seat, or_and_right, exists_or]

theorem State.pids_seats (s : State) :
    s.seats.map Prod.fst ++ s.terminated.map (·.pid) = s.allPcbs.map (·.pid) := by
  simp [State.seats, State.allPcbs, Pcb.seat, Function.comp_def]

theorem State.segments_seats (s : State) : s.seats.filterMap Prod.snd = s.live.filterMap (·.occupiedSegment) := by
  simp [State.seats, State.live, Pcb.seat, List.filterMap_map, Function.comp_def]

/-- The ledger's clauses are those of the three invariants that speak of seats. -/
theorem State.TableOk.invariants {s : State} (h : s.TableOk) :
    s.memoryOk ∧ s.processesOk ∧ s.freeSegmentsZero := by
  obtain ⟨hledger, hexec, hready, hresident, hterminated⟩ := h
  have hseated : ∀ p ∈ s.live, p.Seated := fun p hp => by
    rcases State.mem_live.1 hp with hp | hp | hp
    · exact (hexec p hp).2.2
    · exact (hready p hp).2
    · exact (hresident p hp).2
  refine ⟨hledger.memory, ⟨?_, ?_, fun p hp => ?_, fun p hp => (hready p hp).1, fun p hp => (hresident p hp).1,
    hterminated, hseated, hledger.occ_length, fun i _ => ?_, fun p hp i hi => ?_, ?_, fun pid hpid => ?_,
    fun p hp hl => ?_⟩, hledger.zero⟩
  · exact s.pids_seats ▸ hledger.pids_nodup
  · intro p hp
    exact hledger.pid_lt p.pid (s.pids_seats ▸ List.mem_map_of_mem hp)
  · obtain ⟨hstatus, hl, _⟩ := hexec p (by simpa using hp)
    exact ⟨hstatus, hl⟩
  · rw [hledger.occ_iff i]
    simp only [State.mem_seats]
    constructor
    · rintro ⟨pid, p, hp, _, hi⟩
      exact ⟨p, hp, hi⟩
    · rintro ⟨p, hp, hi⟩
      exact ⟨p.pid, p, hp, rfl, hi⟩
  · exact hledger.segment_lt (State.mem_seats.2 ⟨p, hp, rfl, hi⟩)
  · exact s.segments_seats ▸ hledger.segments_nodup
  · obtain ⟨i, hi⟩ := (hledger.reg_iff pid).1 hpid
    obtain ⟨p, hp, hpid, hi⟩ := State.mem_seats.1 hi
    exact ⟨p, hp, hpid, (hseated p hp).2.2 (by simp [hi])⟩
  · obtain ⟨i, hi⟩ := Option.ne_none_iff_exists'.1 ((hseated p hp).2.1 hl)
    exact (hledger.reg_iff p.pid).2 ⟨i, State.mem_seats.2 ⟨p, hp, rfl, hi⟩⟩

theorem State.TableOk.of_invariants {s : State} (hmemory : s.memoryOk) (hprocesses : s.processesOk)
    (hzero : s.freeSegmentsZero) : s.TableOk := by
  obtain ⟨hnodup, hlt, hexec, hready, hresident, hterminated, hseated, hlength, hocc, hsegment, hsegments, hreg,
    hreg'⟩ := hprocesses
  refine ⟨⟨hmemory, hzero, s.pids_seats ▸ hnodup, fun pid hpid => ?_, hlength, fun i => ?_,
    s.segments_seats ▸ hsegments, fun pid => ?_⟩, fun p hp => ?_, fun p hp => ?_, fun p hp => ?_, hterminated⟩
  · rw [s.pids_seats] at hpid
    obtain ⟨p, hp, rfl⟩ := List.mem_map.1 hpid
    exact hlt p hp
  · simp only [State.mem_seats]
    constructor
    · intro hi
      have hin : i < s.cfg.numSegments := hlength ▸ (List.getElem?_eq_some_iff.1 hi).1
      obtain ⟨p, hp, hi⟩ := (hocc i hin).1 hi
      exact ⟨p.pid, p, hp, rfl, hi⟩
    · rintro ⟨pid, p, hp, _, hi⟩
      exact (hocc i (hsegment p hp i hi)).2 ⟨p, hp, hi⟩
  · simp only [State.mem_seats]
    constructor
    · intro hpid
      obtain ⟨p, hp, rfl, hl⟩ := hreg pid hpid
      obtain ⟨i, hi⟩ := Option.ne_none_iff_exists'.1 ((hseated p hp).2.1 hl)
      exact ⟨i, p, hp, rfl, hi⟩
    · rintro ⟨i, p, hp, rfl, hi⟩
      exact hreg' p hp ((hseated p hp).2.2 (by simp [hi]))
  · obtain ⟨hstatus, hl⟩ := hexec p (by simp [hp])
    exact ⟨hstatus, hl, hseated p (State.mem_live.2 (.inl hp))⟩
  · exact ⟨hready p hp, hseated p (State.mem_live.2 (.inr (.inl hp)))⟩
  · exact ⟨hresident p hp, hseated p (State.mem_live.2 (.inr (.inr hp)))⟩

/-! ## Seats -/

theorem Pcb.Seated.of_eq {p q : Pcb} (h : p.Seated) (hseat : q.seat = p.seat) (hl : q.location = p.location) :
    q.Seated := by
  obtain ⟨_, hsegment⟩ := Prod.mk.inj hseat
  rw [Pcb.Seated, hl, hsegment]
  exact h

theorem Pcb.Seated.segment_some {p : Pcb} (h : p.Seated) (hl : p.location = .memory) :
    ∃ i, p.occupiedSegment = some i := Option.ne_none_iff_exists'.1 (h.2.1 hl)

theorem Pcb.Seated.segment_none {p : Pcb} (h : p.Seated) (hl : p.location ≠ .memory) : p.occupiedSegment = none :=
  Decidable.byContradiction fun hne => hl (h.2.2 hne)

/-- A seated PCB that is not on disk is in memory. -/
theorem Pcb.Seated.memory {p : Pcb} (h : p.Seated) (hl : p.location ≠ .disk) : p.location = .memory := by
  obtain ⟨hundefined, _⟩ := h
  cases hp : p.location <;> simp_all

theorem State.seats_executing {s : State} {p : Pcb} (h : s.executing = some p) :
    s.seats = p.seat :: State.seats { s with executing := none } := by
  simp [State.seats, h]

theorem State.perm_seats_ready {s : State} {p : Pcb} {ps : List Pcb} (h : s.ready.Perm (p :: ps)) :
    s.seats.Perm (p.seat :: State.seats { s with ready := ps }) := by
  have hmap : (s.executing.toList.map Pcb.seat ++ s.ready.map Pcb.seat).Perm
      (p.seat :: (s.executing.toList.map Pcb.seat ++ ps.map Pcb.seat)) :=
    ((h.map Pcb.seat).append_left _).trans List.perm_middle
  exact hmap.append_right _

theorem State.perm_seats_resident {s : State} {p : Pcb} {ps : List Pcb} (h : s.resident.Perm (p :: ps)) :
    s.seats.Perm (p.seat :: State.seats { s with resident := ps }) :=
  ((h.map Pcb.seat).append_left _).trans List.perm_middle

theorem State.vacate_of_segment {s : State} {p : Pcb} {i : Nat} {g : Segment} (hp : p.occupiedSegment = some i)
    (hg : s.seg[i]? = some g) :
    s.vacate p = { s with
      mem := Memory.zeroRange s.mem g.base g.size
      occ := s.occ.set i false
      reg := erasePid p.pid s.reg } := by
  simp [State.vacate, hp, State.releaseSegment, hg]

/-! ## Leaving a place -/

namespace State.TableOk

variable {s t : State} {p : Pcb}

/-- An update of other fields; for a record update each hypothesis is `rfl`. -/
theorem of_eq (h : s.TableOk) (cfg : t.cfg = s.cfg := by rfl) (seg : t.seg = s.seg := by rfl)
    (mem : t.mem = s.mem := by rfl) (occ : t.occ = s.occ := by rfl) (reg : t.reg = s.reg := by rfl)
    (nextPid : t.nextPid = s.nextPid := by rfl) (executing : t.executing = s.executing := by rfl)
    (ready : t.ready = s.ready := by rfl) (resident : t.resident = s.resident := by rfl)
    (terminated : t.terminated = s.terminated := by rfl) : t.TableOk where
  ledger := by
    rw [State.seats, executing, ready, resident, terminated]
    exact h.ledger.of_eq cfg seg mem occ reg nextPid
  queues := h.queues.of_eq executing ready resident terminated

theorem takeExecuting (h : s.TableOk) (hp : s.executing = some p) : TableOkBut { s with executing := none } p where
  ledger := (State.seats_executing hp ▸ h.ledger).of_eq
  queues := ⟨fun _ hq => (Option.some_ne_none _ hq.symm).elim, h.queues.ready, h.queues.resident, h.queues.terminated⟩
  seated := (h.queues.executing p hp).2.2

theorem takeReady {ps : List Pcb} (h : s.TableOk) (hp : s.ready.Perm (p :: ps)) :
    TableOkBut { s with ready := ps } p where
  ledger := (h.ledger.perm (State.perm_seats_ready hp) (.refl _)).of_eq
  queues := ⟨h.queues.executing, fun q hq => h.queues.ready q (hp.mem_iff.2 (List.mem_cons_of_mem _ hq)),
    h.queues.resident, h.queues.terminated⟩
  seated := (h.queues.ready p (hp.mem_iff.2 List.mem_cons_self)).2

theorem takeResident {ps : List Pcb} (h : s.TableOk) (hp : s.resident.Perm (p :: ps)) :
    TableOkBut { s with resident := ps } p where
  ledger := (h.ledger.perm (State.perm_seats_resident hp) (.refl _)).of_eq
  queues := ⟨h.queues.executing, h.queues.ready,
    fun q hq => h.queues.resident q (hp.mem_iff.2 (List.mem_cons_of_mem _ hq)), h.queues.terminated⟩
  seated := (h.queues.resident p (hp.mem_iff.2 List.mem_cons_self)).2

/-- A new process, on disk to begin with, has the next pid. -/
theorem enroll (h : s.TableOk) (hpid : p.pid = s.nextPid) (hp : p.occupiedSegment = none) (hl : p.location = .disk) :
    TableOkBut { s with nextPid := s.nextPid + 1 } p where
  ledger := by
    rw [Pcb.seat, hpid, hp]
    exact h.ledger.enroll
  queues := h.queues.of_eq
  seated := by simp [Pcb.Seated, hl, hp]

/-- The pids of READY are unique. -/
theorem ready_nodup (h : s.TableOk) : (s.ready.map (·.pid)).Nodup := by
  have hsublist : (s.ready.map (·.pid)).Sublist (s.allPcbs.map (·.pid)) := by
    rw [State.allPcbs, List.append_assoc, List.append_assoc]
    exact ((List.sublist_append_left _ _).trans (List.sublist_append_right _ _)).map _
  exact (s.pids_seats ▸ h.ledger.pids_nodup).sublist hsublist

end State.TableOk

/-! ## Getting a place, giving back a segment, getting one -/

namespace State.TableOkBut

variable {s t u : State} {p q : Pcb}

theorem of_eq (h : s.TableOkBut p) (cfg : t.cfg = s.cfg := by rfl) (seg : t.seg = s.seg := by rfl)
    (mem : t.mem = s.mem := by rfl) (occ : t.occ = s.occ := by rfl) (reg : t.reg = s.reg := by rfl)
    (nextPid : t.nextPid = s.nextPid := by rfl) (executing : t.executing = s.executing := by rfl)
    (ready : t.ready = s.ready := by rfl) (resident : t.resident = s.resident := by rfl)
    (terminated : t.terminated = s.terminated := by rfl) : t.TableOkBut p where
  ledger := by
    rw [State.seats, executing, ready, resident, terminated]
    exact h.ledger.of_eq cfg seg mem occ reg nextPid
  queues := h.queues.of_eq executing ready resident terminated
  seated := h.seated

theorem putExecuting (h : s.TableOkBut p) (he : s.executing = none) (hseat : q.seat = p.seat)
    (hl : p.location = .memory) (hl' : q.location = p.location) (hstatus : q.status = .running) :
    TableOk { s with executing := some q } where
  ledger := by
    rw [State.seats_executing rfl, hseat]
    have hseats : State.seats { s with executing := none } = s.seats := by rw [← he]
    exact (hseats ▸ h.ledger).of_eq
  queues := by
    refine ⟨fun r hr => ?_, h.queues.ready, h.queues.resident, h.queues.terminated⟩
    cases hr
    exact ⟨hstatus, hl'.trans hl, h.seated.of_eq hseat hl'⟩

theorem putReady {ps : List Pcb} (h : s.TableOkBut p) (hps : ps.Perm (q :: s.ready)) (hseat : q.seat = p.seat)
    (hl : q.location = p.location) (hstatus : q.status = .ready) : TableOk { s with ready := ps } where
  ledger := by
    have hperm := State.perm_seats_ready (s := { s with ready := ps }) hps
    rw [hseat] at hperm
    exact (h.ledger.perm hperm.symm (.refl _)).of_eq
  queues := by
    refine ⟨h.queues.executing, fun r hr => ?_, h.queues.resident, h.queues.terminated⟩
    rcases List.mem_cons.1 (hps.mem_iff.1 hr) with rfl | hr
    · exact ⟨hstatus, h.seated.of_eq hseat hl⟩
    · exact h.queues.ready r hr

theorem putResident {ps : List Pcb} (h : s.TableOkBut p) (hps : ps.Perm (q :: s.resident)) (hseat : q.seat = p.seat)
    (hl : q.location = p.location) (hstatus : q.status = .resident) : TableOk { s with resident := ps } where
  ledger := by
    have hperm := State.perm_seats_resident (s := { s with resident := ps }) hps
    rw [hseat] at hperm
    exact (h.ledger.perm hperm.symm (.refl _)).of_eq
  queues := by
    refine ⟨h.queues.executing, h.queues.ready, fun r hr => ?_, h.queues.terminated⟩
    rcases List.mem_cons.1 (hps.mem_iff.1 hr) with rfl | hr
    · exact ⟨hstatus, h.seated.of_eq hseat hl⟩
    · exact h.queues.resident r hr

/-- Another pid than that of the PCB taken out. -/
theorem pid_ne (h : s.TableOkBut p) (hq : q ∈ s.live) : q.pid ≠ p.pid := fun hpid =>
  h.ledger.head_pid_notMem (o' := q.occupiedSegment) (State.mem_seats.2 ⟨q, hq, hpid, rfl⟩)

/-- Exactly a PCB in memory is registered. -/
theorem mem_reg_iff (h : s.TableOkBut p) : p.pid ∈ s.reg ↔ p.location = .memory := by
  rw [h.ledger.reg_iff, h.seated.2]
  constructor
  · rintro ⟨i, hi⟩ hnone
    rcases List.mem_cons.1 hi with hi | hi
    · rw [Pcb.seat, hnone] at hi
      cases hi
    · exact h.ledger.head_pid_notMem hi
  · intro hne
    obtain ⟨i, hi⟩ := Option.ne_none_iff_exists'.1 hne
    exact ⟨i, by simp [Pcb.seat, hi]⟩

/-- The ledger after the segment is given back. -/
theorem ledger_vacate (h : s.TableOkBut p) (hl : p.location = .memory) :
    (s.vacate p).Ledger ((p.pid, none) :: s.seats) (s.terminated.map (·.pid)) := by
  obtain ⟨i, hi⟩ := h.seated.segment_some hl
  have hseat : p.seat = (p.pid, some i) := by rw [Pcb.seat, hi]
  exact .vacate hseat (hseat ▸ h.ledger)

/-- A process in memory gives back its segment and goes to disk (R109). -/
theorem evict {i : Nat} {g : Segment} (h : s.TableOkBut p) (hl : p.location = .memory)
    (hp : p.occupiedSegment = some i) (hg : s.seg[i]? = some g) :
    TableOkBut { s with
      mem := Memory.zeroRange s.mem g.base g.size
      occ := s.occ.set i false
      reg := erasePid p.pid s.reg } { p with occupiedSegment := none, location := .disk } where
  ledger := by
    have hledger := h.ledger_vacate hl
    rwa [State.vacate_of_segment hp hg] at hledger
  queues := h.queues.of_eq
  seated := by simp [Pcb.Seated]

/-- A process on disk is placed in a segment (20_memory.md R43). -/
theorem place {program : List Byte} {i : Nat} (h : s.TableOkBut p) (hl : p.location = .disk)
    (hplace : s.place program = .ok (i, u)) :
    TableOkBut { u with reg := insertPid p.pid u.reg } { p with occupiedSegment := some i, location := .memory } := by
  have hseat : p.seat = (p.pid, none) := by rw [Pcb.seat, h.seated.segment_none (by simp [hl])]
  have hledger := State.Ledger.occupy hplace (hseat ▸ h.ledger)
  obtain ⟨_, g, _, rfl⟩ := State.place_ok.1 hplace
  exact ⟨hledger, h.queues.of_eq, by simp [Pcb.Seated]⟩

/-- Evacuating the PCB, whose status may have been changed, leaves a homeless PCB and a ledger without it (R116). -/
theorem evacuate (h : s.TableOkBut p) (status : Status) :
    ∃ mem occ reg, s.evacuate { p with status := status } =
        ({ p with status := status, occupiedSegment := none }, { s with mem := mem, occ := occ, reg := reg }) ∧
      Ledger { s with mem := mem, occ := occ, reg := reg } s.seats (s.terminated.map (·.pid) ++ [p.pid]) := by
  rcases s.evacuate_cases { p with status := status } with ⟨hreg, hev⟩ | ⟨hreg, hev⟩
  · have hl := h.mem_reg_iff.1 hreg
    have hledger : (s.vacate { p with status := status }).Ledger _ _ := (h.ledger_vacate hl).retire
    rcases s.vacate_cases { p with status := status } with ⟨i, g, _, _, hv⟩ | ⟨_, hv⟩ <;> rw [hv] at hledger hev <;>
      exact ⟨_, _, _, hev, hledger⟩
  · have hnone := h.seated.segment_none fun hl => hreg (h.mem_reg_iff.2 hl)
    have hseat : p.seat = (p.pid, none) := by rw [Pcb.seat, hnone]
    refine ⟨s.mem, s.occ, s.reg, ?_, (hseat ▸ h.ledger).retire⟩
    rw [hev]
    simp [hnone]

end State.TableOkBut

/-- Into TERMINATED, after the ledger has been cleared of the PCB. -/
theorem State.TableOk.of_terminated {s : State} (hq : s.QueuesOk) {gone : Pcb}
    (hledger : s.Ledger s.seats (s.terminated.map (·.pid) ++ [gone.pid]))
    (hstatus : gone.status = .terminated) (hsegment : gone.occupiedSegment = none) :
    State.TableOk { s with terminated := s.terminated ++ [gone] } where
  ledger := by
    rw [List.map_append]
    exact hledger.of_eq
  queues := by
    refine ⟨hq.executing, hq.ready, hq.resident, fun r hr => ?_⟩
    rcases List.mem_append.1 hr with hr | hr
    · exact hq.terminated r hr
    · rw [List.mem_singleton.1 hr]
      exact ⟨hstatus, hsegment⟩

end Sys2Proof.Machine
end

section
/-! PROOF. What every step keeps: the process table (O55), the serializer handshake (O54) and the quantum (O37). One
pass over the operations of a tick, each of which is shown to keep all three. -/

namespace Sys2Proof.Machine

/-! ## What the operations on processes write -/

theorem State.evacuate_eq (s : State) (p : Pcb) : ∃ q mem occ reg,
    s.evacuate p = (q, { s with mem := mem, occ := occ, reg := reg }) := by
  rcases s.evacuate_cases p with ⟨_, h⟩ | ⟨_, h⟩ <;> rw [h]
  · rcases s.vacate_cases p with ⟨i, g, _, _, h⟩ | ⟨_, h⟩ <;> rw [h] <;> exact ⟨_, _, _, _, rfl⟩
  · exact ⟨_, _, _, _, rfl⟩

theorem State.reclaim_eq (s : State) (p : Pcb) : ∃ q mem occ reg disk console,
    s.reclaim p = (q, { s with mem := mem, occ := occ, reg := reg, disk := disk, console := console }) := by
  rcases s.reclaim_cases p with ⟨_, h⟩ | ⟨_, h⟩ | ⟨_, h⟩ <;> rw [h]
  · obtain ⟨q, mem, occ, reg, h⟩ := s.evacuate_eq p
    rw [h]
    exact ⟨_, _, _, _, _, _, rfl⟩
  · rcases s.reclaimSwap_cases p.pid with ⟨_, h⟩ | ⟨_, img, d, _, h⟩ | ⟨e, _, h⟩ <;> rw [h] <;>
      exact ⟨_, _, _, _, _, _, rfl⟩
  · exact ⟨_, _, _, _, _, _, rfl⟩

/-- A termination leaves the queues, the parameters and the interrupts, and forgets the quantum of its pid only. -/
theorem State.finishTermination_eq (s : State) (p : Pcb) (wasExec : Bool) :
    ∃ q mem occ reg disk console cpu display, s.finishTermination p wasExec = { s with
      mem := mem
      occ := occ
      reg := reg
      disk := disk
      console := console
      cpu := cpu
      display := display
      terminated := s.terminated ++ [q]
      qPid := if s.qPid = some p.pid then none else s.qPid
      qCount := if s.qPid = some p.pid then 0 else s.qCount } := by
  obtain ⟨q, mem, occ, reg, disk, console, h⟩ :=
    (s.setCpu { s.cpu with isExecuting := false }).reclaim_eq { p with status := .terminated }
  exact ⟨_, _, _, _, _, _, _, _, State.finishTermination_of_reclaim h wasExec⟩

/-- A roll-out in full but for its disk: the victim's segment is zero-filled, freed and unregistered, and its PCB is
replaced in READY (R109). -/
theorem State.rollOut_eq {s t : State} {v : Pcb} (h : s.rollOut v = .ok t) :
    ∃ i g d, v.pid ∈ s.reg ∧ v.occupiedSegment = some i ∧ s.seg[i]? = some g ∧
      s.disk.swapLoad s.cfg (Memory.readBytes s.mem g.base s.cfg.segSize) v.pid = .ok d ∧
      t = { s with
        mem := Memory.zeroRange s.mem g.base g.size
        occ := s.occ.set i false
        reg := erasePid v.pid s.reg
        disk := d
        ready := replacePid { v with occupiedSegment := none, location := .disk } s.ready } := by
  obtain ⟨w, image, u, d, hdequeue, hswap, rfl⟩ := State.rollOut_ok h
  obtain ⟨i, g, hreg, hi, hg, rfl, rfl, rfl⟩ := State.dequeueDiskCandidate_ok hdequeue
  rw [State.vacate_of_segment hi hg] at hswap ⊢
  exact ⟨i, g, d, hreg, hi, hg, hswap, rfl⟩

/-- A read-back in full but for its disk: the image in the first free segment, its pid registered (R110). -/
theorem State.loadImage_eq {s u : State} {h h' : Pcb} (hl : s.loadImage h = .ok (h', u)) :
    ∃ i g img d, s.disk.deleteSwap s.cfg h.pid = .ok (img, d) ∧ s.freeSegment = some i ∧ s.seg[i]? = some g ∧
      h' = { h with occupiedSegment := some i, location := .memory } ∧
      u = { s with
        mem := Memory.writeBytes s.mem g.base (img.take s.cfg.segSize)
        occ := s.occ.set i true
        reg := insertPid h.pid s.reg
        disk := d } := by
  obtain ⟨img, d, hd, hload⟩ := State.loadImage_ok hl
  obtain ⟨i, t, hplace, rfl, rfl⟩ := State.loadFromPcb_ok hload
  obtain ⟨hfree, g, hg, rfl⟩ := State.place_ok.1 hplace
  exact ⟨i, g, img, d, hd, hfree, hg, rfl, rfl⟩

/-- A lost image of the head of READY, with nothing executing: the head is terminated. -/
theorem State.rollInDrop_of_head {s : State} {h : Pcb} {rest : List Pcb} (he : s.executing = none)
    (hr : s.ready = h :: rest) :
    s.rollInDrop h = .failDrop (State.finishTermination
      { s.report (.rollInFailed h.pid .imageLost) with ready := rest } h false) := by
  have hfind : findPid h.pid s.ready = some h := hr ▸ findPid_cons_self h rest
  have hremove : removePid h.pid s.ready = rest := hr ▸ removePid_cons_self h rest
  have hterminate := State.terminate_of_ready (s := s.report (.rollInFailed h.pid .imageLost)) (pid := h.pid)
    (fun q hq => by rw [State.report_executing, he] at hq; cases hq) hfind
  rw [State.report_ready, hremove] at hterminate
  rw [State.rollInDrop, hterminate]
  rfl

/-! ## What an operation keeps -/

/-- Every waiting PCB is fresh (R117 (6)). -/
def State.WaitingFresh (s : State) : Prop := ∀ p ∈ s.ready ++ s.resident, p.fresh = true

/-- The executing PCB is not fresh (R117 (6)). -/
def State.RunningNotFresh (s : State) : Prop := ∀ p ∈ s.executing.toList, p.fresh = false

/-- From `s` to `t` the quantum bound, the freshness of waiting PCBs and the process table are kept. A dispatch by
`next()` does this; the process it dispatches is still fresh. -/
structure State.KeepsWaiting (s t : State) : Prop where
  quantum : s.quantumOk → t.quantumOk
  waiting : s.WaitingFresh → t.WaitingFresh
  table : s.TableOk → t.TableOk

/-- From `s` to `t` the executing PCB's side of the handshake is kept as well. -/
structure State.Keeps (s t : State) : Prop extends s.KeepsWaiting t where
  running : s.RunningNotFresh → t.RunningNotFresh

theorem State.KeepsWaiting.trans {s t u : State} (h : s.KeepsWaiting t) (h' : t.KeepsWaiting u) : s.KeepsWaiting u :=
  ⟨h'.quantum ∘ h.quantum, h'.waiting ∘ h.waiting, h'.table ∘ h.table⟩

namespace State.Keeps

/-- An update of other fields; for a record update each hypothesis is `rfl`. -/
theorem of_eq {s t : State} (cfg : t.cfg = s.cfg := by rfl) (seg : t.seg = s.seg := by rfl)
    (mem : t.mem = s.mem := by rfl) (occ : t.occ = s.occ := by rfl) (reg : t.reg = s.reg := by rfl)
    (nextPid : t.nextPid = s.nextPid := by rfl) (executing : t.executing = s.executing := by rfl)
    (ready : t.ready = s.ready := by rfl) (resident : t.resident = s.resident := by rfl)
    (terminated : t.terminated = s.terminated := by rfl) (qPid : t.qPid = s.qPid := by rfl)
    (qCount : t.qCount = s.qCount := by rfl) : s.Keeps t where
  quantum := by rw [State.quantumOk, State.quantumOk, cfg, qPid, qCount]; exact id
  waiting := by rw [State.WaitingFresh, State.WaitingFresh, ready, resident]; exact id
  table := fun h => h.of_eq cfg seg mem occ reg nextPid executing ready resident terminated
  running := by rw [State.RunningNotFresh, State.RunningNotFresh, executing]; exact id

theorem refl (s : State) : s.Keeps s := .of_eq

theorem trans {s t u : State} (h : s.Keeps t) (h' : t.Keeps u) : s.Keeps u :=
  ⟨h.toKeepsWaiting.trans h'.toKeepsWaiting, h'.running ∘ h.running⟩

/-- A handler's loop keeps what each round keeps. -/
theorem foldl {α : Type} {f : State → α → State} (hf : ∀ (s : State) (x : α), s.Keeps (f s x)) (xs : List α)
    (s : State) : s.Keeps (xs.foldl f s) := by
  induction xs generalizing s with
  | nil => exact .refl s
  | cons x xs ih => exact (hf s x).trans (ih (f s x))

end State.Keeps

/-- Waiting PCBs that were waiting before, or are fresh. -/
theorem State.WaitingFresh.of_subset {s t : State} (h : s.WaitingFresh)
    (hready : ∀ p ∈ t.ready, p ∈ s.ready ++ s.resident ∨ p.fresh = true)
    (hresident : ∀ p ∈ t.resident, p ∈ s.ready ++ s.resident ∨ p.fresh = true) : t.WaitingFresh := by
  intro p hp
  rcases List.mem_append.1 hp with hp | hp
  · exact (hready p hp).elim (h p) id
  · exact (hresident p hp).elim (h p) id

theorem State.WaitingFresh.ready {s : State} (h : s.WaitingFresh) {p : Pcb} (hp : p ∈ s.ready) : p.fresh = true :=
  h p (List.mem_append_left _ hp)

theorem State.WaitingFresh.resident {s : State} (h : s.WaitingFresh) {p : Pcb} (hp : p ∈ s.resident) :
    p.fresh = true := h p (List.mem_append_right _ hp)

/-! ### Termination -/

/-- Reclaiming a PCB taken out of its place, made terminated, clears the ledger of it (R116). -/
theorem State.TableOkBut.reclaim {s : State} {p : Pcb} (h : s.TableOkBut p) :
    ∃ mem occ reg disk console, s.reclaim { p with status := .terminated } =
        ({ p with status := .terminated, occupiedSegment := none },
          { s with mem := mem, occ := occ, reg := reg, disk := disk, console := console }) ∧
      State.Ledger { s with mem := mem, occ := occ, reg := reg } s.seats (s.terminated.map (·.pid) ++ [p.pid]) := by
  rcases s.reclaim_cases { p with status := .terminated } with ⟨_, hr⟩ | ⟨hl, hr⟩ | ⟨hl, _⟩
  · obtain ⟨mem, occ, reg, hev, hledger⟩ := h.evacuate .terminated
    exact ⟨mem, occ, reg, s.disk, s.console, hr.trans hev, hledger⟩
  · have hnone : p.occupiedSegment = none := h.seated.segment_none fun hm => by cases hm.symm.trans hl
    have hseat : p.seat = (p.pid, none) := by rw [Pcb.seat, hnone]
    have hledger := (hseat ▸ h.ledger).retire
    rw [show ({ p with status := .terminated } : Pcb) =
      { p with status := .terminated, occupiedSegment := none } by rw [← hnone]] at hr ⊢
    rcases s.reclaimSwap_cases p.pid with ⟨_, hs⟩ | ⟨_, img, d, _, hs⟩ | ⟨e, _, hs⟩
    all_goals exact ⟨s.mem, s.occ, s.reg, _, _, hr.trans (congrArg (Prod.mk _) hs), hledger⟩
  · exact absurd hl h.seated.1

theorem State.TableOkBut.finishTermination {s : State} {p : Pcb} (h : s.TableOkBut p) (wasExec : Bool) :
    (s.finishTermination p wasExec).TableOk := by
  have hstopped : (s.setCpu { s.cpu with isExecuting := false }).TableOkBut p := h.of_eq
  obtain ⟨mem, occ, reg, disk, console, hreclaim, hledger⟩ := hstopped.reclaim
  have hterminated := State.TableOk.of_terminated
    (s := { s.setCpu { s.cpu with isExecuting := false } with mem := mem, occ := occ, reg := reg })
    (gone := { p with status := .terminated, occupiedSegment := none })
    h.queues.of_eq hledger rfl rfl
  rw [State.finishTermination_of_reclaim hreclaim]
  exact hterminated.of_eq

theorem State.quantumOk_finishTermination {s : State} (h : s.quantumOk) (p : Pcb) (wasExec : Bool) :
    (s.finishTermination p wasExec).quantumOk := by
  obtain ⟨q, mem, occ, reg, disk, console, cpu, display, heq⟩ := s.finishTermination_eq p wasExec
  obtain ⟨hlt, hnone⟩ := h
  rw [heq]
  by_cases hq : s.qPid = some p.pid
  · simp only [State.quantumOk, if_pos hq]
    exact ⟨by omega, fun _ => trivial⟩
  · simp only [State.quantumOk, if_neg hq]
    exact ⟨hlt, hnone⟩

theorem State.keeps_of_terminate {s t : State} {pid : Nat} (h : s.terminate pid = some t) : s.Keeps t := by
  rcases State.terminate_some h with ⟨p, he, _, rfl⟩ | ⟨_, p, hp, rfl⟩
  · obtain ⟨q, mem, occ, reg, disk, console, cpu, display, heq⟩ :=
      State.finishTermination_eq { s with executing := none } p true
    refine ⟨⟨fun hs => State.quantumOk_finishTermination (s := { s with executing := none }) hs p true,
      fun hs => ?_, fun hs => (hs.takeExecuting he).finishTermination true⟩, fun _ => ?_⟩
    · rw [heq]
      exact hs
    · rw [heq]
      simp [State.RunningNotFresh]
  · obtain ⟨q, mem, occ, reg, disk, console, cpu, display, heq⟩ :=
      State.finishTermination_eq { s with ready := removePid pid s.ready } p false
    refine ⟨⟨fun hs =>
        State.quantumOk_finishTermination (s := { s with ready := removePid pid s.ready }) hs p false,
      fun hs => ?_, fun hs => (hs.takeReady (perm_removePid hp)).finishTermination false⟩, fun hs => ?_⟩
    · rw [heq]
      exact hs.of_subset (fun q hq => .inl (List.mem_append_left _ (mem_removePid hq)))
        (fun q hq => .inl (List.mem_append_right _ hq))
    · rw [heq]
      exact hs

/-! ### Roll-out and roll-in -/

theorem State.TableOk.rollOut {s t : State} {v : Pcb} (hs : s.TableOk) (hv : v ∈ s.ready)
    (hl : v.location = .memory) (h : s.rollOut v = .ok t) : t.TableOk := by
  obtain ⟨i, g, d, _, hi, hg, _, rfl⟩ := State.rollOut_eq h
  have hfind := findPid_of_mem hs.ready_nodup hv
  have hput := ((hs.takeReady (perm_removePid hfind)).evict hl hi hg).putReady
    (q := { v with occupiedSegment := none, location := .disk })
    (perm_replacePid (w := { v with occupiedSegment := none, location := .disk }) hfind) rfl rfl
    (hs.queues.ready v hv).1
  exact hput.of_eq

theorem State.keeps_of_rollOut {s t : State} {v : Pcb} (hv : v ∈ s.ready) (hl : v.location = .memory)
    (h : s.rollOut v = .ok t) : s.Keeps t := by
  refine ⟨⟨?_, fun hs => ?_, fun hs => hs.rollOut hv hl h⟩, ?_⟩ <;>
    obtain ⟨i, g, d, _, _, _, _, rfl⟩ := State.rollOut_eq h
  · exact id
  · refine hs.of_subset (fun p hp => ?_) (fun p hp => .inl (List.mem_append_right _ hp))
    rcases mem_replacePid hp with rfl | hp
    · exact .inr (show v.fresh = true from hs.ready hv)
    · exact .inl (List.mem_append_left _ hp)
  · exact id

theorem State.keeps_of_makeRoom {s t : State} (h : s.makeRoom = .ok t) : s.Keeps t := by
  rcases State.makeRoom_ok h with ⟨_, rfl⟩ | ⟨_, v, hv, hroll⟩
  · exact .refl t
  · obtain ⟨hmem, hl⟩ := State.victim_some hv
    exact keeps_of_rollOut hmem hl hroll

/-- Making room leaves the executing process, and a head of READY on disk where it is. -/
theorem State.makeRoom_frame {s t : State} (h : s.makeRoom = .ok t) :
    t.executing = s.executing ∧ t.halted = s.halted ∧ t.intq = s.intq ∧
      (s.TableOk → ∀ q rest, s.ready = q :: rest → q.location = .disk → ∃ rest', t.ready = q :: rest') := by
  rcases State.makeRoom_ok h with ⟨_, rfl⟩ | ⟨_, v, hv, hroll⟩
  · exact ⟨rfl, rfl, rfl, fun _ q rest hr _ => ⟨rest, hr⟩⟩
  · obtain ⟨hmem, hl⟩ := State.victim_some hv
    obtain ⟨i, g, d, _, _, _, _, rfl⟩ := State.rollOut_eq hroll
    refine ⟨rfl, rfl, rfl, fun hs q rest hr hq =>
      ⟨replacePid { v with occupiedSegment := none, location := .disk } rest, ?_⟩⟩
    have hne : q.pid ≠ v.pid := fun hpid => by
      have hfind := findPid_of_mem hs.ready_nodup hmem
      rw [hr, ← hpid, findPid_cons_self] at hfind
      cases hfind
      cases hq.symm.trans hl
    show replacePid _ s.ready = _
    rw [hr, replacePid, if_neg hne]

/-- A PCB on disk that has been taken out of READY, its image read back into memory. -/
theorem State.TableOkBut.loadImage {s u : State} {h h' : Pcb} {ps : List Pcb}
    (ht : State.TableOkBut { s with ready := ps } h) (hl : h.location = .disk) (hload : s.loadImage h = .ok (h', u)) :
    State.TableOkBut { u with ready := ps } h' := by
  obtain ⟨i, g, img, d, _, hfree, hg, rfl, rfl⟩ := State.loadImage_eq hload
  have hplace : State.place { s with ready := ps } img = .ok (i, { s with
      ready := ps
      mem := Memory.writeBytes s.mem g.base (img.take s.cfg.segSize)
      occ := s.occ.set i true }) := State.place_ok.2 ⟨hfree, g, hg, rfl⟩
  exact (ht.place hl hplace).of_eq

/-- A roll-in that fails keeps everything. -/
theorem State.keeps_of_rollIn_fail {s t : State} {h : Pcb}
    (hr : s.rollIn h = .failKeep t ∨ s.rollIn h = .failDrop t) : s.Keeps t := by
  rcases s.rollIn_cases h with ⟨_, hi⟩ | ⟨_, why, hi⟩ | ⟨_, m, h', u, _, _, hi⟩ <;> rw [hi] at hr
  · have ht : ((s.report (.rollInFailed h.pid .imageLost)).terminate h.pid).getD
        (s.report (.rollInFailed h.pid .imageLost)) = t := by
      rw [State.rollInDrop] at hr
      simpa using hr
    subst ht
    refine .trans (t := s.report (.rollInFailed h.pid .imageLost)) .of_eq ?_
    cases ht : (s.report (.rollInFailed h.pid .imageLost)).terminate h.pid with
    | none => exact .refl _
    | some t => exact keeps_of_terminate ht
  · have ht : s.report (.rollInFailed h.pid why) = t := by simpa using hr
    subst ht
    exact .of_eq
  · simp at hr

/-- A roll-in of the head of READY that succeeds keeps quantum and waiting PCBs, and its process is ready for
dispatch. -/
theorem State.rollIn_ok_keeps {s u : State} {h h' : Pcb} {rest : List Pcb} (he : s.executing = none)
    (hr : s.ready = h :: rest) (hl : h.location = .disk) (hi : s.rollIn h = .ok h' u) :
    (s.quantumOk → u.quantumOk) ∧ (s.WaitingFresh → u.WaitingFresh) ∧ u.executing = none ∧
      h'.location = .memory ∧ (s.TableOk → State.TableOkBut { u with ready := u.ready.tail } h') := by
  rcases s.rollIn_cases h with ⟨_, hc⟩ | ⟨_, why, hc⟩ | ⟨_, m, q, t, hroom, himage, hc⟩ <;> rw [hc] at hi
  · cases hi
  · cases hi
  cases hi
  have hkeeps := State.keeps_of_makeRoom hroom
  obtain ⟨hexec, _, _, hhead⟩ := State.makeRoom_frame hroom
  have htable : s.TableOk → State.TableOkBut { u with ready := m.ready.tail } h' := fun hs => by
    obtain ⟨rest', hready⟩ := hhead hs h rest hr hl
    have htake := (hkeeps.table hs).takeReady (p := h) (ps := rest') (hready ▸ .refl _)
    have htail : m.ready.tail = rest' := by rw [hready, List.tail_cons]
    rw [htail]
    exact htake.loadImage hl himage
  obtain ⟨i, g, img, d, _, _, _, rfl, rfl⟩ := State.loadImage_eq himage
  exact ⟨hkeeps.quantum, hkeeps.waiting, hexec.trans he, rfl, htable⟩

/-! ### Dispatch -/

/-- Taking the head off READY leaves the others waiting. -/
theorem State.WaitingFresh.startProcess {s : State} (hs : s.WaitingFresh) (h : Pcb) :
    (s.startProcess h).WaitingFresh :=
  hs.of_subset (fun _ hp => .inl (List.mem_append_left _ (List.mem_of_mem_tail hp)))
    (fun _ hp => .inl (List.mem_append_right _ hp))

/-- A PCB in memory that has been taken off READY becomes the executing one. -/
theorem State.TableOkBut.startProcess {s : State} {h q : Pcb} (ht : State.TableOkBut { s with ready := s.ready.tail } h)
    (he : s.executing = none) (hl : h.location = .memory) (hseat : q.seat = h.seat) (hq : q.location = h.location) :
    (s.startProcess q).TableOk :=
  (ht.putExecuting (q := { q with status := .running }) he hseat hl hq rfl).of_eq

theorem State.TableOk.takeHead {s : State} {h : Pcb} {rest : List Pcb} (hs : s.TableOk) (hr : s.ready = h :: rest) :
    State.TableOkBut { s with ready := s.ready.tail } h :=
  hs.takeReady (by rw [hr, List.tail_cons])

theorem State.keepsWaiting_nextProcess (s : State) : s.KeepsWaiting s.nextProcess := by
  rcases s.nextProcess_cases with ⟨h, _⟩ | ⟨q, rest, he, hr, hl, h⟩ |
    ⟨q, rest, he, hr, hl, ⟨t, hi, h⟩ | ⟨q', t, hi, h⟩⟩ <;> rw [h]
  · exact (Keeps.refl s).toKeepsWaiting
  · refine ⟨id, fun hs => hs.startProcess q, fun hs => ?_⟩
    have htake := hs.takeHead hr
    exact htake.startProcess he (htake.seated.memory hl) rfl rfl
  · exact (keeps_of_rollIn_fail hi).toKeepsWaiting
  · obtain ⟨hquantum, hwaiting, hexec, hmem, htable⟩ := State.rollIn_ok_keeps he hr hl hi
    exact ⟨hquantum, fun hs => (hwaiting hs).startProcess q', fun hs => (htable hs).startProcess hexec hmem rfl rfl⟩

/-! ### The context switch -/

/-- The executing PCB goes to READY, serialized (R107). -/
theorem State.keeps_requeue {s : State} {p : Pcb} (he : s.executing = some p) :
    s.Keeps (s.requeue (p.serialized s.cpu)) := by
  refine ⟨⟨id, fun hs => ?_, fun hs => ?_⟩, fun _ => by simp [State.RunningNotFresh, State.requeue]⟩
  · refine hs.of_subset (fun q hq => ?_) (fun q hq => .inl (List.mem_append_right _ hq))
    rcases mem_readyInsert.1 hq with rfl | hq
    · exact .inr rfl
    · exact .inl (List.mem_append_left _ hq)
  · exact ((hs.takeExecuting he).putReady (q := p.serialized s.cpu) (perm_readyInsert s.cfg.policy _ _) rfl rfl
      rfl).of_eq

/-- A PCB in memory in READY is made the executing one again (R107). -/
theorem State.TableOk.undoSwitch {s : State} {c : Pcb} (hs : s.TableOk) (he : s.executing = none) (hc : c ∈ s.ready)
    (hl : c.location = .memory) : (s.undoSwitch c).TableOk := by
  have htake := hs.takeReady (perm_removePid (findPid_of_mem hs.ready_nodup hc))
  exact (htake.putExecuting (q := { c with status := .running, fresh := false }) he rfl hl rfl rfl).of_eq

/-- A failed roll-in of the head leaves another PCB of READY there, and nothing executing. -/
theorem State.rollIn_fail_frame {s t : State} {h c : Pcb} {rest : List Pcb} (he : s.executing = none)
    (hr : s.ready = h :: rest) (hi : s.rollIn h = .failKeep t ∨ s.rollIn h = .failDrop t) :
    t.executing = none ∧ t.halted = s.halted ∧ t.intq = s.intq ∧ (c ∈ s.ready → c ≠ h → c ∈ t.ready) := by
  rcases s.rollIn_cases h with ⟨_, hc⟩ | ⟨_, why, hc⟩ | ⟨_, m, h', u, _, _, hc⟩ <;> rw [hc] at hi
  · rw [State.rollInDrop_of_head he hr] at hi
    obtain ⟨q, mem, occ, reg, disk, console, cpu, display, heq⟩ :=
      State.finishTermination_eq { s.report (.rollInFailed h.pid .imageLost) with ready := rest } h false
    rw [heq] at hi
    have ht := by simpa using hi
    rw [← ht]
    refine ⟨he, rfl, rfl, fun hmem hne => ?_⟩
    rw [hr] at hmem
    exact (List.mem_cons.1 hmem).resolve_left hne
  · have ht : s.report (.rollInFailed h.pid why) = t := by simpa using hi
    subst ht
    exact ⟨he, rfl, rfl, fun hmem _ => hmem⟩
  · simp at hi

theorem State.keeps_contextSwitch (s : State) : s.Keeps s.contextSwitch := by
  rcases s.contextSwitch_cases with ⟨_, h⟩ | ⟨p, _, _, h⟩ | ⟨p, he, _, h⟩ <;> rw [h]
  · exact .refl s
  · exact .of_eq
  have hrequeue := State.keeps_requeue he
  have hexec : (s.requeue (p.serialized s.cpu)).executing = none := rfl
  have hc : p.serialized s.cpu ∈ (s.requeue (p.serialized s.cpu)).ready := mem_readyInsert.2 (.inl rfl)
  have hmemory : s.TableOk → (p.serialized s.cpu).location = .memory := fun hs => (hs.queues.executing p he).2.1
  obtain ⟨q, rest, hr⟩ := s.requeue_ready (p.serialized s.cpu)
  generalize s.requeue (p.serialized s.cpu) = r at hrequeue hexec hc hr ⊢
  generalize p.serialized s.cpu = c at hc hmemory ⊢
  rcases State.switchToHead_cases hr c with ⟨hl, h⟩ | ⟨hl, t, hi, h⟩ | ⟨hl, q', t, hi, h⟩ <;> rw [h]
  · refine ⟨⟨hrequeue.quantum, fun hs => (hrequeue.waiting hs).startProcess q.deserialized, fun hs => ?_⟩,
      fun _ => by simp [State.RunningNotFresh, State.switchTo, State.startProcess, Pcb.deserialized]⟩
    have htake := (hrequeue.table hs).takeHead hr
    exact (htake.startProcess (q := q.deserialized) hexec (htake.seated.memory hl) rfl rfl).of_eq
  · obtain ⟨hexec', _, _, hstays⟩ := State.rollIn_fail_frame (c := c) hexec hr hi
    have hkeeps := hrequeue.trans (State.keeps_of_rollIn_fail hi)
    refine ⟨⟨hkeeps.quantum, fun hs => ?_, fun hs => ?_⟩, fun _ => by simp [State.RunningNotFresh, State.undoSwitch]⟩
    · exact (hkeeps.waiting hs).of_subset (fun q hq => .inl (List.mem_append_left _ (mem_removePid hq)))
        (fun q hq => .inl (List.mem_append_right _ hq))
    · have hne : c ≠ q := fun hcq => by cases (hmemory hs).symm.trans (hcq ▸ hl)
      exact (hkeeps.table hs).undoSwitch hexec' (hstays hc hne) (hmemory hs)
  · obtain ⟨hquantum, hwaiting, hexec', hmem, htable⟩ := State.rollIn_ok_keeps hexec hr hl hi
    refine ⟨⟨hquantum ∘ hrequeue.quantum,
        fun hs => (hwaiting (hrequeue.waiting hs)).startProcess q'.deserialized, fun hs => ?_⟩,
      fun _ => by simp [State.RunningNotFresh, State.switchTo, State.startProcess, Pcb.deserialized]⟩
    exact ((htable (hrequeue.table hs)).startProcess (q := q'.deserialized) hexec' hmem rfl rfl).of_eq

/-! ### Residency and readiness -/

theorem State.keeps_of_requestCpuExecution {s t : State} {pid : Nat} (h : s.requestCpuExecution pid = some t) :
    s.Keeps t := by
  obtain ⟨p, hp, rfl⟩ := State.requestCpuExecution_some h
  obtain ⟨hmem, _⟩ := findPid_some hp
  refine ⟨⟨id, fun hs => ?_, fun hs => ?_⟩, id⟩
  · refine hs.of_subset (fun q hq => ?_) (fun q hq => .inl (List.mem_append_right _ (mem_removePid hq)))
    rcases mem_readyInsert.1 hq with rfl | hq
    · exact .inr (show p.fresh = true from hs.resident hmem)
    · exact .inl (List.mem_append_left _ hq)
  · exact ((hs.takeResident (perm_removePid hp)).putReady (q := { p with status := .ready })
      (perm_readyInsert s.cfg.policy _ _) rfl rfl rfl).of_eq

/-- A new PCB goes into RESIDENT, among smaller pids. -/
theorem State.TableOkBut.putNewResident {s : State} {p : Pcb} (h : s.TableOkBut p) {q : Pcb} (hseat : q.seat = p.seat)
    (hl : q.location = p.location) (hstatus : q.status = .resident) :
    State.TableOk { s with resident := insertByPid q s.resident } := by
  refine h.putResident (perm_insertByPid fun r hr => ?_) hseat hl hstatus
  rw [(Prod.mk.inj hseat).1]
  exact h.pid_ne (State.mem_live.2 (.inr (.inr hr)))

theorem State.keeps_of_requestResidency {s t : State} {program : List Byte} {priority : Option Int} {pid : Nat}
    (h : s.requestResidency program priority = .ok (pid, t)) : s.Keeps t := by
  obtain ⟨_, p, u, hplace, rfl⟩ := State.requestResidency_ok h
  have hnew : ∀ q : Pcb, q.fresh = true → s.WaitingFresh → ∀ r ∈ insertByPid q s.resident,
      r ∈ s.ready ++ s.resident ∨ r.fresh = true := fun q hq hs r hr => by
    rcases mem_insertByPid hr with rfl | hr
    · exact .inr hq
    · exact .inl (List.mem_append_right _ hr)
  rcases State.placeProgram_ok hplace with ⟨_, d, _, rfl, rfl⟩ | ⟨_, hload⟩
  · refine ⟨⟨id, fun hs => hs.of_subset (fun q hq => .inl (List.mem_append_left _ hq)) (hnew _ rfl hs),
      fun hs => ?_⟩, id⟩
    have henroll := hs.enroll (p := { newPcb s.nextPid with occupiedSegment := none, location := .disk }) rfl rfl rfl
    exact (henroll.putNewResident (q := { newPcb s.nextPid with
      occupiedSegment := none, location := .disk, status := .resident, priority := requestedPriority priority })
      rfl rfl rfl).of_eq
  · obtain ⟨i, v, hv, rfl, rfl⟩ := State.load_ok hload
    obtain ⟨hfree, g, hg, rfl⟩ := State.place_ok.1 hv
    refine ⟨⟨id, fun hs => hs.of_subset (fun q hq => .inl (List.mem_append_left _ hq)) (hnew _ rfl hs),
      fun hs => ?_⟩, id⟩
    have henroll := hs.enroll (p := { newPcb s.nextPid with occupiedSegment := none, location := .disk }) rfl rfl rfl
    have hplace' : State.place { s with nextPid := s.nextPid + 1 } program = .ok (i, { s with
        nextPid := s.nextPid + 1
        mem := Memory.writeBytes s.mem g.base (program.take s.cfg.segSize)
        occ := s.occ.set i true }) := State.place_ok.2 ⟨hfree, g, hg, rfl⟩
    exact ((henroll.place rfl hplace').putNewResident (q := { newPcb s.nextPid with
      occupiedSegment := some i, location := .memory, status := .resident, priority := requestedPriority priority })
      rfl rfl rfl).of_eq

/-! ### The kernel's handlers -/

theorem State.keeps_handleLoad (s : State) (program : List Byte) (priority : Option Int) :
    s.Keeps (s.handleLoad program priority) := by
  unfold State.handleLoad
  split
  next e _ => exact .of_eq
  next pid t ht => exact (keeps_of_requestResidency ht).trans .of_eq

theorem State.keeps_handleRun (s : State) (pid : Nat) : s.Keeps (s.handleRun pid) := by
  unfold State.handleRun
  split
  next => exact .of_eq
  next t ht => exact keeps_of_requestCpuExecution ht

theorem State.keeps_handleTerminate (s : State) (pid : Nat) : s.Keeps (s.handleTerminate pid) := by
  unfold State.handleTerminate
  split
  next => exact .of_eq
  next t ht => exact keeps_of_terminate ht

/-- A resident PCB is evacuated and terminated (60_exceptions.md R157). -/
theorem State.keeps_clearResident {s : State} {pid : Nat} {p : Pcb} (hp : findPid pid s.resident = some p) {q : Pcb}
    {t : State}
    (h : State.evacuate { s with resident := removePid pid s.resident } { p with status := .terminated } = (q, t)) :
    s.Keeps { t with terminated := t.terminated ++ [q] } := by
  have hwaiting : s.WaitingFresh → State.WaitingFresh { s with resident := removePid pid s.resident } := fun hs =>
    hs.of_subset (fun q hq => .inl (List.mem_append_left _ hq))
      (fun q hq => .inl (List.mem_append_right _ (mem_removePid hq)))
  have htable : s.TableOk → State.TableOk { t with terminated := t.terminated ++ [q] } := fun hs => by
    have htake := hs.takeResident (perm_removePid hp)
    obtain ⟨mem, occ, reg, hev, hledger⟩ := htake.evacuate .terminated
    rw [hev] at h
    cases h
    exact .of_terminated
      (s := { s with resident := removePid pid s.resident, mem := mem, occ := occ, reg := reg })
      (gone := { p with status := .terminated, occupiedSegment := none })
      htake.queues.of_eq hledger rfl rfl
  obtain ⟨q', mem, occ, reg, hev⟩ :=
    State.evacuate_eq { s with resident := removePid pid s.resident } { p with status := .terminated }
  rw [hev] at h
  cases h
  exact ⟨⟨id, hwaiting, htable⟩, id⟩

theorem State.keeps_clearOne (s : State) (pid : Nat) : s.Keeps (s.clearOne pid) := by
  unfold State.clearOne
  split
  next t ht => exact keeps_of_terminate ht
  next =>
    split
    next => exact .refl s
    next p hp => exact keeps_clearResident hp rfl

theorem State.keeps_handleRunAll (s : State) : s.Keeps s.handleRunAll := by
  refine .foldl (fun t pid => ?_) _ s
  cases ht : t.requestCpuExecution pid with
  | none => exact .refl t
  | some u => exact keeps_of_requestCpuExecution ht

theorem State.keeps_handleFileSystem (s : State) (request : FsRequest) : s.Keeps (s.handleFileSystem request) := by
  have hfinish : ∀ r : Except FsError Disk, s.Keeps (s.finishFs request r) := fun r => by cases r <;> exact .of_eq
  cases request with
  | read name =>
    simp only [State.handleFileSystem]
    split <;> exact .of_eq
  | unrecognized n => exact .of_eq
  | format => exact hfinish (.ok s.disk.format)
  | create name => exact hfinish _
  | write name data => exact hfinish _
  | delete name => exact hfinish _

theorem State.keeps_handle (s : State) (r : Interrupt) : s.Keeps (s.handle r) := by
  cases r with
  | timer => exact .refl s
  | keyboard data => exact .refl s
  | loadProgram program priority => exact s.keeps_handleLoad program priority
  | runProgram pid => exact s.keeps_handleRun pid
  | breakProgram pid => exact s.keeps_handleTerminate pid
  | errProgram pid => exact s.keeps_handleTerminate pid
  | killProgram pid => exact s.keeps_handleTerminate pid
  | requestClearMemory => exact .foldl State.keeps_clearOne _ s
  | contextSwitch => exact s.keeps_contextSwitch
  | runAllPrograms => exact s.keeps_handleRunAll
  | fileSystem request => exact s.keeps_handleFileSystem request
  | unrecognized code => exact .of_eq

/-! ### The cycle and the tick -/

/-- A cycle changes of the executing PCB its snapshot and `fresh` only, and of the byte store at most one byte of that
PCB's segment. -/
theorem State.TableOk.cycle {s u : State} {p : Pcb} (hs : s.TableOk) (he : s.executing = some p)
    (h : cycle s = .next u) : u.TableOk := by
  obtain ⟨⟨hcfg, hseg, hocc, hreg, hready, hresident, hterminated, hpid, _⟩, ⟨c, hexec⟩, hmem⟩ := cycle_frame he h
  have hledger : State.Ledger { s with mem := u.mem } s.seats (s.terminated.map (·.pid)) := by
    rcases hmem with hmem | ⟨k, a, v, hnames, hmem⟩ <;> rw [hmem]
    · exact hs.ledger
    · exact hs.ledger.write he (State.seats_executing he ▸ List.mem_cons_self) hnames v
  have htake : State.TableOkBut { s with mem := u.mem, executing := none } p :=
    ⟨(State.seats_executing he ▸ hledger).of_eq, (hs.takeExecuting he).queues.of_eq, (hs.takeExecuting he).seated⟩
  obtain ⟨hstatus, hl, _⟩ := hs.queues.executing p he
  exact (htake.putExecuting (q := { mirrored p c with fresh := false }) rfl rfl hl rfl hstatus).of_eq hcfg hseg rfl
    hocc hreg hpid hexec hready hresident hterminated

/-- After a cycle everything is kept, and the process that ran is not fresh. -/
theorem keepsWaiting_of_cycle {s u : State} {p : Pcb} (he : s.executing = some p) (h : cycle s = .next u) :
    s.KeepsWaiting u ∧ u.RunningNotFresh := by
  obtain ⟨⟨hcfg, _, _, _, hready, hresident, _, _, hqPid, hqCount, _⟩, ⟨c, hexec⟩, _⟩ := cycle_frame he h
  refine ⟨⟨?_, ?_, fun hs => hs.cycle he h⟩, ?_⟩
  · rw [State.quantumOk, State.quantumOk, hcfg, hqPid, hqCount]
    exact id
  · rw [State.WaitingFresh, State.WaitingFresh, hready, hresident]
    exact id
  · simp [State.RunningNotFresh, hexec]

/-- Counting changes no pid, place, status or `fresh` (R115). -/
theorem State.keeps_updateStats (s : State) : s.Keeps s.updateStats := by
  have hseats : s.updateStats.seats = s.seats := by
    simp only [State.seats, State.updateStats, Option.toList_map, List.map_map]
    rfl
  refine ⟨⟨id, fun hs p hp => ?_, fun hs => ⟨(hseats ▸ hs.ledger).of_eq, ?_, ?_, hs.queues.resident,
    hs.queues.terminated⟩⟩, fun hs p hp => ?_⟩
  · rcases List.mem_append.1 hp with hp | hp
    · obtain ⟨q, hq, rfl⟩ := List.mem_map.1 hp
      exact (show q.fresh = true from hs.ready hq)
    · exact hs.resident hp
  · intro p hp
    obtain ⟨q, hq, rfl⟩ := Option.map_eq_some_iff.1 hp
    exact hs.queues.executing q hq
  · intro p hp
    obtain ⟨q, hq, rfl⟩ := List.mem_map.1 hp
    exact hs.queues.ready q hq
  · obtain ⟨q, hq, rfl⟩ := Option.map_eq_some_iff.1 (Option.mem_toList.1 hp)
    exact hs q (Option.mem_toList.2 hq)

/-- Below the quantum the count is stored; at the quantum it goes back to 0 (R112). -/
theorem State.keeps_policyAfterInstruction (s : State) (pid : Nat) : s.Keeps (s.policyAfterInstruction pid) := by
  rcases s.policyAfterInstruction_cases pid with ⟨_, h⟩ | ⟨_, hlt, h⟩ | ⟨_, _, h⟩ <;> rw [h]
  · exact .refl s
  · exact ⟨⟨fun _ => ⟨hlt, fun hnone => by cases hnone⟩, id, fun hs => hs.of_eq⟩, id⟩
  · exact ⟨⟨fun hs => ⟨Nat.lt_of_le_of_lt (Nat.zero_le _) hs.1, fun _ => rfl⟩, id, fun hs => hs.of_eq⟩, id⟩

theorem State.keeps_afterCycle (s : State) (pid : Nat) : s.Keeps (s.afterCycle pid) := by
  rcases s.afterCycle_cases pid with ⟨_, h⟩ | ⟨_, h⟩ <;> rw [h]
  · exact s.keeps_updateStats.trans (s.updateStats.keeps_policyAfterInstruction pid)
  · exact s.keeps_updateStats

/-- Every tick keeps the quantum bound, the process table and the handshake; the handshake of the executing PCB is
made in the tick that dispatches it. -/
theorem keepsWaiting_of_step {s t : State} (h : step s = .next t) :
    s.KeepsWaiting t ∧ (s.RunningNotFresh → t.RunningNotFresh) := by
  rw [step] at h
  rcases tickStep_cases s with ⟨_, hs⟩ | ⟨r, rest, _, _, hs⟩ | ⟨_, _, he, hs⟩ | ⟨p, _, _, he, hs⟩ <;> rw [hs] at h
  · cases h
    exact ⟨(State.Keeps.refl s).toKeepsWaiting, id⟩
  · cases h
    have hkeeps : s.Keeps (State.handle { s with intq := rest } r) :=
      .trans (t := { s with intq := rest }) .of_eq (State.keeps_handle _ r)
    exact ⟨hkeeps.toKeepsWaiting, hkeeps.running⟩
  · cases h
    exact ⟨s.keepsWaiting_nextProcess, fun _ => by simp [State.RunningNotFresh, he]⟩
  · obtain ⟨u, hcycle, rfl⟩ := instructionTick_next h
    obtain ⟨hkeeps, hrunning⟩ := keepsWaiting_of_cycle he hcycle
    have hafter := u.keeps_afterCycle p.pid
    exact ⟨(s.keepsWaiting_nextProcess.trans hkeeps).trans hafter.toKeepsWaiting, fun _ => hafter.running hrunning⟩

/-! ## The three statements -/

/-- Settles O55: the three invariants are the table in order, which every operation of a tick keeps. -/
theorem processTableKept : Obligations.ProcessTableKept := by
  intro s t hmemory hprocesses hzero h
  exact ((keepsWaiting_of_step h).1.table (.of_invariants hmemory hprocesses hzero)).invariants

/-- Settles O54. -/
theorem handshakeKept : Obligations.HandshakeKept := by
  intro s t ⟨hwaiting, hrunning⟩ h
  obtain ⟨hkeeps, hrun⟩ := keepsWaiting_of_step h
  exact ⟨hkeeps.waiting hwaiting, hrun hrunning⟩

/-- Settles O37. -/
theorem quantumStaysBelow : Obligations.QuantumStaysBelow := by
  intro s t hs h
  exact (keepsWaiting_of_step h).1.quantum hs

end Sys2Proof.Machine
end

section
/-! PROOF. Residency: RUN_PROGRAM and RUN_ALL_PROGRAMS (O44), and LOAD_PROGRAM (O45). -/

namespace Sys2Proof.Machine

/-! ## Pids in ascending order (60_exceptions.md R159) -/

theorem pairwise_insertPid {pid : Nat} {ps : List Nat} (h : ps.Pairwise (· < ·)) :
    (insertPid pid ps).Pairwise (· < ·) := by
  induction ps with
  | nil => simp [insertPid]
  | cons q ps ih =>
    obtain ⟨hq, hps⟩ := List.pairwise_cons.1 h
    rw [insertPid]
    split
    next hlt =>
      exact List.pairwise_cons.2 ⟨List.forall_mem_cons.2 ⟨hlt, fun r hr => Nat.lt_trans hlt (hq r hr)⟩, h⟩
    next hge =>
      split
      next => exact h
      next hne =>
        refine List.pairwise_cons.2 ⟨fun r hr => ?_, ih hps⟩
        rcases mem_insertPid.1 hr with rfl | hr
        · omega
        · exact hq r hr

theorem mem_ascendingPids {pid : Nat} {ps : List Pcb} : pid ∈ ascendingPids ps ↔ pid ∈ ps.map (·.pid) := by
  induction ps with
  | nil => rfl
  | cons p ps ih =>
    rw [show ascendingPids (p :: ps) = insertPid p.pid (ascendingPids ps) from rfl, mem_insertPid, ih, List.map_cons,
      List.mem_cons]

theorem pairwise_ascendingPids (ps : List Pcb) : (ascendingPids ps).Pairwise (· < ·) := by
  induction ps with
  | nil => exact .nil
  | cons p ps ih => exact pairwise_insertPid ih

/-- The pids of PCBs given in rising order are the ascending pids of any arrangement of them. -/
theorem ascendingPids_eq {ps inOrder : List Pcb} (hperm : inOrder.Perm ps)
    (hsorted : inOrder.Pairwise (fun p q => p.pid < q.pid)) : ascendingPids ps = inOrder.map (·.pid) := by
  have hrises : (inOrder.map (·.pid)).Pairwise (· < ·) := List.pairwise_map.2 hsorted
  have hsame : (ascendingPids ps).Perm (inOrder.map (·.pid)) :=
    (List.perm_ext_iff_of_nodup ((pairwise_ascendingPids ps).imp Nat.ne_of_lt) (hrises.imp Nat.ne_of_lt)).2
      fun _ => mem_ascendingPids.trans (hperm.map _).symm.mem_iff
  exact hsame.eq_of_pairwise (fun _ _ _ _ hlt hgt => absurd hgt (Nat.lt_asymm hlt)) (pairwise_ascendingPids ps) hrises

/-! ## From RESIDENT to READY (R104) -/

theorem State.requestCpuExecution_of_find {s : State} {pid : Nat} {p : Pcb} (h : findPid pid s.resident = some p) :
    s.requestCpuExecution pid = some { s with
      resident := removePid pid s.resident
      ready := readyInsert s.cfg.policy { p with status := .ready } s.ready } := by
  simp [State.requestCpuExecution, h]

theorem State.requestCpuExecution_of_absent {s : State} {pid : Nat} (h : ∀ p ∈ s.resident, p.pid ≠ pid) :
    s.requestCpuExecution pid = none := by
  simp [State.requestCpuExecution, findPid_none.2 h]

/-- Running all resident PCBs one after another, in any order of unique pids. -/
theorem State.foldl_requestCpuExecution {inOrder : List Pcb} {s : State} (hperm : inOrder.Perm s.resident)
    (hnodup : (inOrder.map (·.pid)).Nodup) :
    (inOrder.map (·.pid)).foldl (fun t pid => (t.requestCpuExecution pid).getD t) s = { s with
      resident := []
      ready := inOrder.foldl (fun queue p => readyInsert s.cfg.policy { p with status := .ready } queue) s.ready } := by
  induction inOrder generalizing s with
  | nil =>
    have hnone : s.resident = [] := List.nil_perm.1 hperm
    have hsame : s = { s with resident := [] } := by rw [← hnone]
    exact hsame
  | cons p rest ih =>
    have hfind : findPid p.pid s.resident = some p :=
      findPid_of_mem ((hperm.map _).nodup_iff.1 hnodup) (hperm.mem_iff.1 List.mem_cons_self)
    have hrest : rest.Perm (removePid p.pid s.resident) := (hperm.trans (perm_removePid hfind)).cons_inv
    rw [List.map_cons, List.nodup_cons] at hnodup
    rw [List.map_cons, List.foldl_cons, State.requestCpuExecution_of_find hfind, Option.getD_some]
    exact ih (s := { s with
      resident := removePid p.pid s.resident
      ready := readyInsert s.cfg.policy { p with status := .ready } s.ready }) hrest hnodup.2

/-- Settles O44: the loop of RUN_ALL_PROGRAMS by induction on the PCBs in order, and the two outcomes of RUN_PROGRAM. -/
theorem runProgramRecord : Obligations.RunProgramRecord := by
  refine ⟨fun s inOrder records hh hq hperm hsorted => ?_, fun s pid records hh hq => ⟨fun habsent => ?_,
    fun before p after hresident hpid hbefore => ?_⟩⟩ <;> rw [step_of_record hh hq]
  · have hnodup : (inOrder.map (·.pid)).Nodup := (List.pairwise_map.2 hsorted).imp Nat.ne_of_lt
    have hfold := State.foldl_requestCpuExecution (s := { s with intq := records }) hperm hnodup
    rw [← ascendingPids_eq hperm hsorted] at hfold
    exact congrArg _ hfold
  · rw [State.handle, State.handleRun, State.requestCpuExecution_of_absent (s := { s with intq := records }) habsent]
    rfl
  · subst hpid
    have hfind : findPid p.pid s.resident = some p := by rw [hresident, findPid_append hbefore]
    have hremove : removePid p.pid s.resident = before ++ after := by rw [hresident, removePid_append hbefore]
    rw [State.handle, State.handleRun, State.requestCpuExecution_of_find (s := { s with intq := records }) hfind,
      hremove]

/-! ## Loading (R103) -/

theorem State.isFull_iff {s : State} : s.isFull = true ↔ ∀ o ∈ s.occ, o = true := by
  simp [State.isFull]

theorem State.isFull_eq_false {s : State} (h : ∃ o ∈ s.occ, o = false) : s.isFull = false := by
  simpa [State.isFull] using h

/-- With memory not full there is a first free segment, one of the table. -/
theorem State.exists_freeSegment {s : State} (h : s.isFull = false) (hlen : s.occ.length = s.cfg.numSegments) :
    ∃ i, s.freeSegment = some i ∧ i < s.cfg.numSegments := by
  cases hfree : s.freeSegment with
  | none => simp [State.freeSegment_none.1 hfree] at h
  | some i =>
    obtain ⟨hi, _⟩ := State.freeSegment_some hfree
    exact ⟨i, rfl, hlen ▸ (List.getElem?_eq_some_iff.1 hi).1⟩

theorem State.placeProgram_of_not_full {s : State} (h : s.isFull = false) {program : List Byte} {pid : Nat}
    {r : Pcb × State} (hload : s.load program pid = .ok r) : s.placeProgram program pid = .ok r := by
  simp [State.placeProgram, h, hload]

theorem State.placeProgram_of_full {s : State} (h : s.isFull = true) {program : List Byte} {pid : Nat} {d : Disk}
    (hswap : s.disk.swapLoad s.cfg (program.take s.cfg.segSize) pid = .ok d) :
    s.placeProgram program pid =
      .ok ({ newPcb pid with occupiedSegment := none, location := .disk }, { s with disk := d }) := by
  simp [State.placeProgram, h, hswap]

theorem State.placeProgram_of_full_error {s : State} (h : s.isFull = true) {program : List Byte} {pid : Nat}
    {e : FsError} (hswap : s.disk.swapLoad s.cfg (program.take s.cfg.segSize) pid = .error e) :
    s.placeProgram program pid = .error (.fs e) := by
  simp [State.placeProgram, h, hswap]

/-- A load that is placed, with the pids of RESIDENT below the next one: the new PCB goes to the end of RESIDENT and
its pid is reported. -/
theorem State.handleLoad_of_place {s u : State} {program : List Byte} {p : Pcb}
    (hplace : s.placeProgram program s.nextPid = .ok (p, u)) (hpid : p.pid = s.nextPid)
    (hlt : ∀ o ∈ u.resident, o.pid < s.nextPid) (priority : Option Int) :
    s.handleLoad program priority = { u with
      nextPid := s.nextPid + 1
      resident := u.resident ++ [{ p with status := .resident, priority := requestedPriority priority }]
      console := u.console ++ [.putSystemText (.loaded s.nextPid)] } := by
  have hinsert := insertByPid_of_lt (p := { p with status := .resident, priority := requestedPriority priority })
    fun o ho => Nat.lt_of_lt_of_eq (hlt o ho) hpid.symm
  rw [State.handleLoad, State.requestResidency, hplace]
  simp only [hinsert]
  rfl

/-- Settles O45: a free segment, the swap file, or its error. -/
theorem loadProgramRecord : Obligations.LoadProgramRecord := by
  intro s program priority records hh hq ⟨_, hseg, _⟩ hlen hlt rank
  have hrank : rank = requestedPriority priority := by cases priority <;> rfl
  have hstep : step s = .next (State.handleLoad { s with intq := records } program priority) := step_of_record hh hq
  refine ⟨fun hfree => ?_, fun hfull d hswap => ?_, fun hfull e hswap => ?_⟩ <;> rw [hstep]
  · have hroom := State.isFull_eq_false hfree
    obtain ⟨i, hi, hin⟩ := State.exists_freeSegment hroom hlen
    have hload := State.load_of_freeSegment hseg hi hin program s.nextPid
    have hload' := State.load_of_freeSegment (s := { s with intq := records }) hseg hi hin program s.nextPid
    refine ⟨_, _, hload, ?_⟩
    have hplace := State.placeProgram_of_not_full (s := { s with intq := records }) hroom hload'
    rw [State.handleLoad_of_place hplace rfl hlt, hrank]
  · rw [State.handleLoad_of_place (State.placeProgram_of_full (s := { s with intq := records })
      (State.isFull_iff.2 hfull) hswap) rfl hlt, hrank]
    rfl
  · rw [State.handleLoad, State.requestResidency, State.placeProgram_of_full_error (s := { s with intq := records })
      (State.isFull_iff.2 hfull) hswap]
    rfl

end Sys2Proof.Machine
end

section
/-! PROOF. Dispatch by `next()` (O43) and by a context switch (O34, O35). -/

namespace Sys2Proof.Machine

/-! ## The three outcomes of a roll-in (45_context_switch.md R110) -/

theorem State.imageLost_of_gone {s : State} {h : Pcb} (hgone : s.SwapImageGone h.pid) : s.imageLost h = true :=
  State.imageLost_iff.2 hgone

theorem State.imageLost_of_not_gone {s : State} {h : Pcb} (hgone : ¬ s.SwapImageGone h.pid) :
    s.imageLost h = false := by
  rw [← Bool.not_eq_true, State.imageLost_iff]
  exact hgone

theorem State.makeRoom_of_roomMade {s m : State} (h : s.RoomMade m) : s.makeRoom = .ok m := by
  rcases h with ⟨hfree, rfl⟩ | ⟨hfull, v, hv, hroll⟩
  · simp [State.makeRoom, State.isFull_eq_false hfree]
  · simp [State.makeRoom, State.isFull_iff.2 hfull, hv, hroll]

/-- A roll-in that stops reports its reason and changes nothing else. -/
theorem State.rollIn_of_stops {s : State} {h : Pcb} {why : RollError} (hstops : s.RollInStops h.pid why) :
    s.rollIn h = .failKeep (s.report (.rollInFailed h.pid why)) := by
  obtain ⟨hgone, hcase⟩ := hstops
  rw [State.rollIn, State.imageLost_of_not_gone hgone]
  rcases hcase with ⟨hfull, hv, rfl⟩ | ⟨hfull, v, e, hv, hroll, rfl⟩ | ⟨m, e, hroom, hdelete, rfl⟩
  · simp [State.makeRoom, State.isFull_iff.2 hfull, hv, State.rollInKeep]
  · simp [State.makeRoom, State.isFull_iff.2 hfull, hv, hroll, State.rollInKeep]
  · simp [State.makeRoom_of_roomMade hroom, State.loadImage, hdelete, State.rollInKeep]

/-- A head of READY whose image is lost is terminated with both reports. -/
theorem State.rollIn_of_gone {s : State} {h : Pcb} {rest : List Pcb} (he : s.executing = none)
    (hr : s.ready = h :: rest) (hl : h.location = .disk) (hgone : s.SwapImageGone h.pid) :
    s.rollIn h = .failDrop { Terminated s h [.rollInFailed h.pid .imageLost] with ready := rest } := by
  have hfinish := State.finishTermination_of_gone
    (s := { s.report (.rollInFailed h.pid .imageLost) with ready := rest }) hl hgone
  rw [State.rollIn, State.imageLost_of_gone hgone, if_pos rfl, State.rollInDrop_of_head he hr, hfinish]
  simp only [Terminated, State.report, State.emit, List.append_assoc]
  rfl

/-- Making room keeps the shape of memory. -/
theorem State.RoomMade.frame {s m : State} (h : s.RoomMade m) (hmem : s.memoryOk)
    (hlen : s.occ.length = s.cfg.numSegments) :
    m.memoryOk ∧ m.occ.length = m.cfg.numSegments ∧ m.cpu = s.cpu := by
  have hroom := State.makeRoom_of_roomMade h
  refine ⟨(storePath_of_makeRoom hroom).keeps (fun _ _ => State.memoryOk_of_storeOp) hmem, ?_⟩
  rcases h with ⟨_, rfl⟩ | ⟨_, v, _, hroll⟩
  · exact ⟨hlen, rfl⟩
  · obtain ⟨i, g, d, _, _, _, _, rfl⟩ := State.rollOut_eq hroll
    exact ⟨(List.length_set ..).trans hlen, rfl⟩

/-- Reading back an image that is on the disk, with `j` the first free segment, succeeds and places it there. -/
theorem State.loadImage_of_deleteSwap {m : State} {h : Pcb} {img : List Byte} {d : Disk} {j : Nat} (hmem : m.memoryOk)
    (hlen : m.occ.length = m.cfg.numSegments) (hdelete : m.disk.deleteSwap m.cfg h.pid = .ok (img, d))
    (hj : m.occ[j]? = some false) (hfirst : ∀ k < j, m.occ[k]? = some true) :
    ∃ u, m.RolledIn h.pid img d j u ∧
      m.loadImage h = .ok ({ h with occupiedSegment := some j, location := .memory }, u) := by
  obtain ⟨_, hseg, hwf, _⟩ := hmem
  have hlt : j < m.cfg.numSegments := hlen ▸ (List.getElem?_eq_some_iff.1 hj).1
  have hg : m.seg[j]? = some (segmentAt m.cfg j) := by rw [hseg, segmentTable_getElem?_of_lt hlt]
  refine ⟨{ m with
    disk := d
    mem := Memory.writeBytes m.mem (j * m.cfg.segSize) (img.take m.cfg.segSize)
    occ := m.occ.set j true
    reg := insertPid h.pid m.reg }, ⟨rfl, Disk.not_mem_swaps_of_deleteSwap hdelete, fun q => mem_insertPid,
      fun k hk => Memory.read_writeBytes_take hwf _ img hk,
      fun a ha => Memory.read_writeBytes_outside hwf (List.length_take_le _ _) ha⟩, ?_⟩
  have hplace := (State.place_ok (program := img)).2
    ⟨State.freeSegment_eq_some (s := { m with disk := d }) hj hfirst, _, hg, rfl⟩
  rw [State.loadImage, hdelete]
  simp only [State.loadFromPcb, hplace]
  rfl

/-- A roll-in whose image is not lost, for which room is made and whose image reads back, succeeds. -/
theorem State.rollIn_of_roomMade {s m : State} {h : Pcb} {img : List Byte} {d : Disk} {j : Nat} (hmem : s.memoryOk)
    (hlen : s.occ.length = s.cfg.numSegments) (hgone : ¬ s.SwapImageGone h.pid) (hroom : s.RoomMade m)
    (hdelete : m.disk.deleteSwap m.cfg h.pid = .ok (img, d)) (hj : m.occ[j]? = some false)
    (hfirst : ∀ k < j, m.occ[k]? = some true) :
    ∃ u, m.RolledIn h.pid img d j u ∧ u.ready = m.ready ∧ u.cpu = s.cpu ∧
      s.rollIn h = .ok { h with occupiedSegment := some j, location := .memory } u := by
  obtain ⟨hmem', hlen', hcpu⟩ := hroom.frame hmem hlen
  obtain ⟨u, hrolled, hload⟩ := State.loadImage_of_deleteSwap hmem' hlen' hdelete hj hfirst
  have hu := hrolled.1
  refine ⟨u, hrolled, by rw [hu], by rw [hu]; exact hcpu, ?_⟩
  rw [State.rollIn, State.imageLost_of_not_gone hgone, State.makeRoom_of_roomMade hroom]
  simp [hload]

/-! ## `next()` (R106) -/

section
variable {s : State} {h : Pcb} {rest : List Pcb} (he : s.executing = none) (hr : s.ready = h :: rest)
include he hr

theorem State.nextProcess_of_not_disk (hl : h.location ≠ .disk) : s.nextProcess = s.startProcess h := by
  simp [State.nextProcess, he, hr, hl]

theorem State.nextProcess_of_fail {t : State} (hl : h.location = .disk)
    (hi : s.rollIn h = .failKeep t ∨ s.rollIn h = .failDrop t) : s.nextProcess = t := by
  rcases hi with hi | hi <;> simp [State.nextProcess, he, hr, hl, hi]

theorem State.nextProcess_of_rollIn {h' : Pcb} {t : State} (hl : h.location = .disk) (hi : s.rollIn h = .ok h' t) :
    s.nextProcess = t.startProcess h' := by
  simp [State.nextProcess, he, hr, hl, hi]

end

/-- `next()` reads and writes no interrupt. -/
theorem State.nextProcess_inputs (s : State) : s.nextProcess.halted = s.halted ∧ s.nextProcess.intq = s.intq := by
  rcases s.nextProcess_cases with ⟨h, _⟩ | ⟨q, _, _, _, _, h⟩ | ⟨q, rest, he, hr, _, ⟨t, hi, h⟩ | ⟨q', t, hi, h⟩⟩ <;>
    rw [h]
  · exact ⟨rfl, rfl⟩
  · exact ⟨rfl, rfl⟩
  · obtain ⟨_, hhalted, hintq, _⟩ := State.rollIn_fail_frame (c := q) he hr hi
    exact ⟨hhalted, hintq⟩
  · rcases s.rollIn_cases q with ⟨_, hc⟩ | ⟨_, why, hc⟩ | ⟨_, m, h', u, hroom, himage, hc⟩ <;> rw [hc] at hi <;>
      cases hi
    obtain ⟨_, hhalted, hintq, _⟩ := State.makeRoom_frame hroom
    obtain ⟨i, g, img, d, _, _, _, _, rfl⟩ := State.loadImage_eq himage
    exact ⟨hhalted, hintq⟩

/-- Dispatch and first instruction are one tick (decision D1). -/
theorem step_nextProcess {s : State} (hh : s.halted = false) (hq : s.intq = []) :
    (s.nextProcess.executing ≠ none → step s = step s.nextProcess) ∧
      (s.nextProcess.executing = none → step s = .next s.nextProcess) := by
  obtain ⟨hhalted, hintq⟩ := s.nextProcess_inputs
  constructor
  · intro hne
    obtain ⟨p, hp⟩ := Option.ne_none_iff_exists'.1 hne
    rw [step_of_executing (hhalted.trans hh) (hintq.trans hq) hp]
    simp [step, tickStep, hh, hq, hp]
  · intro hnone
    simp [step, tickStep, hh, hq, hnone]

/-- Settles O43: the head in memory, its roll-in with each of its outcomes, and the tick that goes on from there. -/
theorem dispatchOfHead : Obligations.DispatchOfHead := by
  intro s h rest he hr
  refine ⟨fun hl => ?_, fun hl hgone => ?_, fun why hl hstops => ?_, fun hl hmem hlen hgone m img d j hroom hdelete hj
    hfirst => ?_, fun hh hq => step_nextProcess hh hq⟩
  · rw [State.nextProcess_of_not_disk he hr hl, State.startProcess, hr, List.tail_cons]
  · exact State.nextProcess_of_fail he hr hl (.inr (State.rollIn_of_gone he hr hl hgone))
  · exact State.nextProcess_of_fail he hr hl (.inl (State.rollIn_of_stops hstops))
  · obtain ⟨u, hrolled, hready, hcpu, hroll⟩ := State.rollIn_of_roomMade hmem hlen hgone hroom hdelete hj hfirst
    refine ⟨u, hrolled, ?_⟩
    rw [State.nextProcess_of_rollIn he hr hl hroll, ← hready, ← hcpu]
    rfl

/-! ## `contextSwitch()` (R107) -/

/-- The tick of a `CONTEXT_SWITCH` record, with a process executing and READY not empty, is the dispatch of the head
after the re-queue. -/
theorem step_contextSwitch {s : State} {p h : Pcb} {rest : List Pcb} {records : List Interrupt}
    (hh : s.halted = false) (hq : s.intq = .contextSwitch :: records) (he : s.executing = some p) (hne : s.ready ≠ [])
    (hr : readyInsert s.cfg.policy (p.serialized s.cpu) s.ready = h :: rest) :
    step s = .next (State.switchToHead { s with intq := records, executing := none, ready := h :: rest }
      (p.serialized s.cpu)) := by
  rw [step_of_record hh hq, ← hr]
  simp [State.handle, State.contextSwitch, he, hne, State.requeue]

section
variable {s : State} {h : Pcb} {rest : List Pcb} (hr : s.ready = h :: rest)
include hr

theorem State.switchToHead_of_not_disk (hl : h.location ≠ .disk) (c : Pcb) : s.switchToHead c = s.switchTo h := by
  simp [State.switchToHead, hr, hl]

theorem State.switchToHead_of_fail {t : State} (hl : h.location = .disk)
    (hi : s.rollIn h = .failKeep t ∨ s.rollIn h = .failDrop t) (c : Pcb) : s.switchToHead c = t.undoSwitch c := by
  rcases hi with hi | hi <;> simp [State.switchToHead, hr, hl, hi]

theorem State.switchToHead_of_rollIn {h' : Pcb} {t : State} (hl : h.location = .disk) (hi : s.rollIn h = .ok h' t)
    (c : Pcb) : s.switchToHead c = t.switchTo h' := by
  simp [State.switchToHead, hr, hl, hi]

end

/-- Settles O34: the head of the new queue is put on the CPU as it is, or after its roll-in. -/
theorem contextSwitchSwapsProcesses : Obligations.ContextSwitchSwapsProcesses := by
  intro s p h rest records hh hq he hne hr restored
  have hstep := step_contextSwitch hh hq he hne hr
  refine ⟨fun hl => ?_, fun hl hmem hlen hgone m img d j hroom hdelete hj hfirst => ?_⟩
  · rw [hstep, State.switchToHead_of_not_disk rfl hl]
    rfl
  · obtain ⟨u, hrolled, hready, hcpu, hroll⟩ := State.rollIn_of_roomMade
      (s := { s with intq := records, executing := none, ready := h :: rest }) hmem hlen hgone hroom hdelete hj hfirst
    refine ⟨u, hrolled, ?_⟩
    rw [hstep, State.switchToHead_of_rollIn rfl hl hroll, ← hready]
    rfl

/-- The head of the new queue, on disk, is not the process just re-queued, which is in memory: it was the head before,
and the rest of the new queue without that process is the rest of the old one. -/
theorem removePid_rest_of_head_on_disk {policy : Policy} {c h : Pcb} {ps rest : List Pcb}
    (hr : readyInsert policy c ps = h :: rest) (hc : c.location = .memory) (hh : h.location = .disk)
    (hpid : ∀ q ∈ ps, q.pid ≠ c.pid) : removePid c.pid rest = ps.tail := by
  have hne : h ≠ c := fun heq => by cases hc.symm.trans (heq ▸ hh)
  obtain ⟨before, after, rfl, rfl⟩ := readyInsert_head hr hne
  rw [removePid_append fun q hq => hpid q (List.mem_cons_of_mem _ (List.mem_append_left _ hq)), List.tail_cons]

/-- Settles O35: nothing to switch from, nothing to switch to, or a failed roll-in, after which the re-queued process
is taken out of READY again. -/
theorem contextSwitchNoops : Obligations.ContextSwitchNoops := by
  intro s records hh hq
  refine ⟨fun he => ?_, fun he hr => ?_, fun p h rest he hp hne hpid hr hl => ?_⟩
  · rw [step_of_record hh hq]
    simp [State.handle, State.contextSwitch, he]
  · obtain ⟨p, hp⟩ := Option.ne_none_iff_exists'.1 he
    rw [step_of_record hh hq]
    simp [State.handle, State.contextSwitch, hp, hr, State.report, State.emit]
  intro kept
  refine ⟨fun why hstops => ?_, fun hgone => ?_⟩
  · have hback : removePid p.pid (h :: rest) = s.ready :=
      hr ▸ removePid_readyInsert (p := p.serialized s.cpu) hpid
    rw [step_contextSwitch hh hq he hne hr, State.switchToHead_of_fail rfl hl (.inl (State.rollIn_of_stops hstops)),
      ← hback]
    rfl
  · have hback : removePid p.pid rest = s.ready.tail :=
      removePid_rest_of_head_on_disk (c := p.serialized s.cpu) hr hp hl hpid
    have hroll := State.rollIn_of_gone (s := { s with intq := records, executing := none, ready := h :: rest }) rfl rfl
      hl hgone
    rw [step_contextSwitch hh hq he hne hr, State.switchToHead_of_fail rfl hl (.inr hroll), ← hback]
    rfl

end Sys2Proof.Machine
end

section
/-! PROOF. The round trip of a swap image: blocks read back as written, a new file holds the pieces written to it, and
a process rolled out and in again finds its segment as it was (O48). -/

namespace Sys2Proof.Machine

/-! ## Blocks (46_disk_fs.md R120) -/

/-- The stored form of a block whose pointer is on a legal grid decodes to the block. -/
theorem FsBlock.decode_encode {c : Config} (hc : c.legal = true) {b : FsBlock} (hb : b.pointer.onGrid c = true) :
    FsBlock.decode c b.encode = some b := by
  obtain ⟨ht, hs, hbl⟩ := DiskLoc.onGrid_lt hc hb
  have hpointer : (⟨(BitVec.ofNat 8 b.pointer.t).toNat, (BitVec.ofNat 8 b.pointer.s).toNat,
      (BitVec.ofNat 8 b.pointer.b).toNat⟩ : DiskLoc) = b.pointer := by
    simp only [BitVec.toNat_ofNat]
    rw [Nat.mod_eq_of_lt (by omega), Nat.mod_eq_of_lt (by omega), Nat.mod_eq_of_lt (by omega)]
  rw [FsBlock.encode, FsBlock.decode, BlockState.ofByte_byte]
  simp only [hpointer, hb, if_true]

/-- A block written reads back. -/
theorem Disk.readBlock_writeBlock {c : Config} {d : Disk} (hc : c.legal = true)
    (hd : Sparse.wf unlistedBlock d.blocks = true) (l : DiskLoc) {b : FsBlock} (hb : b.pointer.onGrid c = true) :
    (d.writeBlock l b).readBlock c l = .ok b := by
  rw [Disk.readBlock, Disk.stored_writeBlock hd, if_pos rfl, FsBlock.decode_encode hc hb]

/-- Another block of the grid reads as before. -/
theorem Disk.readBlock_writeBlock_of_ne {c : Config} {d : Disk} (hc : c.legal = true)
    (hd : Sparse.wf unlistedBlock d.blocks = true) {l m : DiskLoc} (hl : l.onGrid c = true) (hm : m.onGrid c = true)
    (hne : m ≠ l) (b : FsBlock) : (d.writeBlock l b).readBlock c m = d.readBlock c m := by
  have hkey : m.key ≠ l.key := fun h => hne (DiskLoc.key_inj hc hm hl h)
  rw [Disk.readBlock, Disk.stored_writeBlock hd, if_neg hkey, Disk.readBlock]

/-! ## The content region (R118) -/

theorem nodup_trackLocs (c : Config) (t : Nat) : (trackLocs c t).Nodup := by
  refine List.pairwise_flatMap.2 ⟨fun s _ => ?_, ?_⟩
  · refine List.pairwise_map.2 (List.nodup_range.imp fun {b b'} hne heq => hne ?_)
    injection heq
  · refine List.nodup_range.imp fun {s s'} hne l hl l' hl' heq => hne ?_
    obtain ⟨b, _, rfl⟩ := List.mem_map.1 hl
    obtain ⟨b', _, rfl⟩ := List.mem_map.1 hl'
    injection heq

theorem nodup_contentRegion (c : Config) : (contentRegion c).Nodup := by
  refine List.pairwise_flatMap.2 ⟨fun t _ => nodup_trackLocs c (t + 1), ?_⟩
  refine List.nodup_range.imp fun {t t'} hne l hl l' hl' heq => hne ?_
  subst heq
  have ht := (mem_trackLocs.1 hl).1
  have ht' := (mem_trackLocs.1 hl').1
  omega

theorem length_trackLocs (c : Config) (t : Nat) : (trackLocs c t).length = c.numSectors * c.numBlocks := by
  simp only [trackLocs, List.length_flatMap, List.length_map, List.length_range, List.map_const',
    List.sum_replicate_nat]

theorem length_contentRegion_le (c : Config) : (contentRegion c).length ≤ c.gridBlocks := by
  have hlength : (contentRegion c).length = (c.numTracks - 1) * (c.numSectors * c.numBlocks) := by
    simp only [contentRegion, List.length_flatMap, length_trackLocs, List.map_const', List.length_range,
      List.sum_replicate_nat]
  rw [hlength, Config.gridBlocks, Nat.mul_assoc]
  exact Nat.mul_le_mul_right _ (Nat.sub_le _ _)

/-! ## A chain as it was written (R126, R129) -/

/-- A block of a file at `l`, before the blocks `ls`: it points to the first of them, or to itself (R129). -/
def chainBlock (l : DiskLoc) (ls : List DiskLoc) (content : List Byte) : FsBlock where
  state := .occupied
  pointer := ls.head?.getD l
  content := content

@[simp] theorem content_chainBlock (l : DiskLoc) (ls : List DiskLoc) (content : List Byte) :
    (chainBlock l ls content).content = content := rfl

@[simp] theorem isOccupied_chainBlock (l : DiskLoc) (ls : List DiskLoc) (content : List Byte) :
    (chainBlock l ls content).isOccupied = true := rfl

theorem chainBlock_pointer_onGrid {c : Config} {l : DiskLoc} {ls : List DiskLoc} (hl : l.onGrid c = true)
    (hls : ∀ m ∈ ls, m.onGrid c = true) (content : List Byte) : (chainBlock l ls content).pointer.onGrid c = true := by
  cases ls with
  | nil => exact hl
  | cons m ls => exact hls m List.mem_cons_self

theorem Disk.writeChain_cons (d : Disk) (l : DiskLoc) (ls : List DiskLoc) (piece : List Byte)
    (pieces : List (List Byte)) : d.writeChain (l :: ls) (piece :: pieces) =
      (d.writeBlock l (chainBlock l ls (padTo Config.blockPayload piece))).writeChain ls pieces := by
  cases ls <;> rfl

/-- The blocks at `ls` hold the `pieces`, each padded to a block, and point each to the next, the last to itself. -/
def Disk.HoldsPieces (c : Config) (d : Disk) : List DiskLoc → List (List Byte) → Prop
  | [], [] => True
  | l :: ls, piece :: pieces =>
    d.readBlock c l = .ok (chainBlock l ls (padTo Config.blockPayload piece)) ∧ d.HoldsPieces c ls pieces
  | _, _ => False

/-- What `writeChain` leaves outside its blocks: all other blocks of the grid, and the disk's other two fields. -/
theorem Disk.writeChain_frame {c : Config} (hc : c.legal = true) {ls : List DiskLoc} {pieces : List (List Byte)}
    {d : Disk} (hd : Sparse.wf unlistedBlock d.blocks = true) (hls : ∀ l ∈ ls, l.onGrid c = true) :
    Sparse.wf unlistedBlock (d.writeChain ls pieces).blocks = true ∧
      (d.writeChain ls pieces).formatted = d.formatted ∧ (d.writeChain ls pieces).swaps = d.swaps ∧
      ∀ m, m.onGrid c = true → m ∉ ls → (d.writeChain ls pieces).readBlock c m = d.readBlock c m := by
  induction ls generalizing d pieces with
  | nil => simp [Disk.writeChain, hd]
  | cons l ls ih =>
    cases pieces with
    | nil => simp [Disk.writeChain, hd]
    | cons piece pieces =>
      obtain ⟨hl, hls⟩ := List.forall_mem_cons.1 hls
      rw [Disk.writeChain_cons]
      obtain ⟨hwf, hformatted, hswaps, hread⟩ := ih (pieces := pieces) (Disk.wf_writeBlock hd l _) hls
      refine ⟨hwf, hformatted, hswaps, fun m hm hnot => ?_⟩
      obtain ⟨hne, hnot⟩ := not_or.1 (fun h => hnot (List.mem_cons.2 h))
      rw [hread m hm hnot, Disk.readBlock_writeBlock_of_ne hc hd hl hm hne]

theorem Disk.holdsPieces_writeChain {c : Config} (hc : c.legal = true) {ls : List DiskLoc}
    {pieces : List (List Byte)} {d : Disk} (hd : Sparse.wf unlistedBlock d.blocks = true)
    (hls : ∀ l ∈ ls, l.onGrid c = true) (hnodup : ls.Nodup) (hlen : ls.length = pieces.length) :
    (d.writeChain ls pieces).HoldsPieces c ls pieces := by
  induction ls generalizing d pieces with
  | nil =>
    rw [List.length_nil, eq_comm, List.length_eq_zero_iff] at hlen
    rw [hlen]
    trivial
  | cons l ls ih =>
    cases pieces with
    | nil => cases hlen
    | cons piece pieces =>
      obtain ⟨hl, hls'⟩ := List.forall_mem_cons.1 hls
      obtain ⟨hnot, hnodup⟩ := List.nodup_cons.1 hnodup
      have hwf := Disk.wf_writeBlock hd l (chainBlock l ls (padTo Config.blockPayload piece))
      obtain ⟨_, _, _, hread⟩ := Disk.writeChain_frame (pieces := pieces) hc hwf hls'
      rw [Disk.writeChain_cons]
      refine ⟨?_, ih hwf hls' hnodup (Nat.succ.inj hlen)⟩
      rw [hread l hl hnot, Disk.readBlock_writeBlock hc hd l (chainBlock_pointer_onGrid hl hls' _)]

/-- A walk ends at a block that points to itself (R126). -/
theorem Disk.walkFrom_of_self {c : Config} {d : Disk} {hops : Nat} {l : DiskLoc} {b : FsBlock} (h : b.pointer = l) :
    d.walkFrom c hops l b = .ok [] := by
  unfold Disk.walkFrom
  simp [h]

/-- A walk goes on to the OCCUPIED block a pointer names. -/
theorem Disk.walkFrom_of_pointer {c : Config} {d : Disk} {hops : Nat} {l : DiskLoc} {b next : FsBlock}
    {ls : List DiskLoc} (hne : b.pointer ≠ l) (hnext : d.readBlock c b.pointer = .ok next)
    (hoccupied : next.isOccupied = true) (hwalk : d.walkFrom c hops b.pointer next = .ok ls) :
    d.walkFrom c (hops + 1) l b = .ok (b.pointer :: ls) := by
  rw [Disk.walkFrom.eq_def]
  simp [hne, hnext, hoccupied, hwalk]

namespace Disk.HoldsPieces

variable {c : Config} {d : Disk} {l : DiskLoc} {ls : List DiskLoc} {pieces : List (List Byte)}

/-- It depends on the disk only by what its own blocks read. -/
theorem of_readBlock {d' : Disk} (h : d.HoldsPieces c ls pieces)
    (hread : ∀ l ∈ ls, d'.readBlock c l = d.readBlock c l) : d'.HoldsPieces c ls pieces := by
  induction ls generalizing pieces with
  | nil =>
    cases pieces with
    | nil => trivial
    | cons piece pieces => exact h.elim
  | cons l ls ih =>
    obtain ⟨hl, hls⟩ := List.forall_mem_cons.1 hread
    cases pieces with
    | nil => exact h.elim
    | cons piece pieces => exact ⟨hl.trans h.1, ih h.2 hls⟩

theorem contents (h : d.HoldsPieces c ls pieces) :
    d.contents c ls = .ok (pieces.flatMap (padTo Config.blockPayload)) := by
  induction ls generalizing pieces with
  | nil =>
    cases pieces with
    | nil => rfl
    | cons piece pieces => exact h.elim
  | cons l ls ih =>
    cases pieces with
    | nil => exact h.elim
    | cons piece pieces =>
      obtain ⟨hblock, hrest⟩ := h
      rw [Disk.contents, hblock]
      simp only [ih hrest, List.flatMap_cons, content_chainBlock]

/-- Walking from a block that points to the head of the chain visits the chain. -/
theorem walkFrom_eq {hops : Nat} {b : FsBlock} (h : d.HoldsPieces c ls pieces) (hb : b.pointer = ls.head?.getD l)
    (hnodup : (l :: ls).Nodup) (hhops : ls.length ≤ hops) : d.walkFrom c hops l b = .ok ls := by
  induction ls generalizing pieces hops l b with
  | nil => exact Disk.walkFrom_of_self hb
  | cons m ls ih =>
    cases pieces with
    | nil => exact h.elim
    | cons piece pieces =>
      obtain ⟨hblock, hrest⟩ := h
      obtain ⟨hnot, hnodup⟩ := List.nodup_cons.1 hnodup
      have hm : m = b.pointer := hb.symm
      subst hm
      have hne : b.pointer ≠ l := fun heq => hnot (heq ▸ List.mem_cons_self)
      cases hops with
      | zero => cases hhops
      | succ hops =>
        exact Disk.walkFrom_of_pointer hne hblock rfl (ih hrest rfl hnodup (Nat.le_of_succ_le_succ hhops))

end Disk.HoldsPieces

/-! ## A new file (R125, R128) -/

/-- A name without 0x00 bytes is what its padded form is cut to. -/
theorem cutAtZero_padTo {n : Nat} {name : List Byte} (h : ∀ b ∈ name, b ≠ 0x00#8) :
    cutAtZero (padTo n name) = name := by
  rw [cutAtZero, padTo, List.takeWhile_append_of_pos (by simpa using h)]
  cases n - name.length <;> simp [List.replicate_succ]

/-- A scan finds a block when no other one of the region satisfies the predicate. -/
theorem Disk.findBlock_of_unique {c : Config} {d : Disk} {p : FsBlock → Bool} {ls : List DiskLoc} {l : DiskLoc}
    {b : FsBlock} (hl : l ∈ ls) (hb : d.readBlock c l = .ok b) (hp : p b = true)
    (hothers : ∀ m ∈ ls, m ≠ l → ∃ b, d.readBlock c m = .ok b ∧ p b = false) :
    d.findBlock c p ls = .ok (some l) := by
  induction ls with
  | nil => cases hl
  | cons m ls ih =>
    by_cases hm : m = l
    · subst hm
      simp [Disk.findBlock, hb, hp]
    · obtain ⟨b', hb', hp'⟩ := hothers m List.mem_cons_self hm
      have hl' : l ∈ ls := (List.mem_cons.1 hl).resolve_left (Ne.symm hm)
      simp [Disk.findBlock, hb', hp', ih hl' fun k hk => hothers k (List.mem_cons_of_mem _ hk)]

/-- The disk holds the file `name`: its directory block is at `l`, no other directory block has the name, and the
content blocks `ls`, none of them twice, hold the `pieces`. -/
structure Disk.HoldsFile (c : Config) (d : Disk) (name : List Byte) (l : DiskLoc) (ls : List DiskLoc)
    (pieces : List (List Byte)) : Prop where
  wf : Sparse.wf unlistedBlock d.blocks = true
  formatted : d.formatted = true
  name_ne : ∀ b ∈ name, b ≠ 0x00#8
  directory : l ∈ directoryRegion c
  block : d.readBlock c l = .ok (chainBlock l ls (padTo Config.blockPayload name))
  others : ∀ m ∈ directoryRegion c, m ≠ l →
    ∃ b, d.readBlock c m = .ok b ∧ (b.isOccupied && cutAtZero b.content == name) = false
  content : ls.Sublist (contentRegion c)
  holds : d.HoldsPieces c ls pieces

namespace Disk.HoldsFile

variable {c : Config} {d : Disk} {name : List Byte} {l : DiskLoc} {ls : List DiskLoc} {pieces : List (List Byte)}

theorem lookupFile (h : d.HoldsFile c name l ls pieces) : d.lookupFile c name = .ok l := by
  have hlookup : d.lookup c name = .ok (some l) :=
    Disk.findBlock_of_unique h.directory h.block (by simp [cutAtZero_padTo h.name_ne]) h.others
  rw [Disk.lookupFile, hlookup]

theorem walk (h : d.HoldsFile c name l ls pieces) : d.walk c l = .ok ls := by
  have hnot : l ∉ ls := fun hl => regions_disjoint h.directory (h.content.subset hl)
  have hlength : ls.length ≤ c.gridBlocks := Nat.le_trans h.content.length_le (length_contentRegion_le c)
  rw [Disk.walk, h.block]
  exact h.holds.walkFrom_eq rfl (List.nodup_cons.2 ⟨hnot, (nodup_contentRegion c).sublist h.content⟩) hlength

/-- The file's contents, block by block (R131). -/
theorem readRaw (h : d.HoldsFile c name l ls pieces) :
    d.readRaw c name = .ok (pieces.flatMap (padTo Config.blockPayload)) := by
  simp [Disk.readRaw, h.formatted, h.lookupFile, h.walk, h.holds.contents]

/-- Its deletion succeeds and resets its blocks (R132). -/
theorem deleteFile (h : d.HoldsFile c name l ls pieces) :
    d.deleteFile c name = .ok ((l :: ls).foldl Disk.resetBlock d) := by
  simp [Disk.deleteFile, h.formatted, h.lookupFile, h.walk]

end Disk.HoldsFile

theorem validFileName_ne_zero {name : List Byte} (h : validFileName name = true) : ∀ b ∈ name, b ≠ 0x00#8 := by
  simp only [validFileName, Bool.and_eq_true, List.all_eq_true, bne_iff_ne] at h
  exact h.2

/-- A file just created is held by the disk, with no content block. -/
theorem Disk.holdsFile_of_createFile {c : Config} (hc : c.legal = true) {d d' : Disk}
    (hd : Sparse.wf unlistedBlock d.blocks = true) {name : List Byte} (h : d.createFile c name = .ok d') :
    ∃ l, d'.HoldsFile c name l [] [] := by
  obtain ⟨hformatted, hvalid, hnone, l, hclaim, rfl⟩ := Disk.createFile_ok h
  obtain ⟨hl, _⟩ := Disk.claimDir_ok hclaim
  have hgrid := directoryRegion_onGrid hc hl
  refine ⟨l, Disk.wf_writeBlock hd l _, hformatted, validFileName_ne_zero hvalid, hl,
    Disk.readBlock_writeBlock hc hd l hgrid, fun m hm hne => ?_, List.nil_sublist _, trivial⟩
  rw [Disk.readBlock_writeBlock_of_ne hc hd hgrid (directoryRegion_onGrid hc hm) hne]
  exact Disk.findBlock_none.1 hnone m hm

/-- The pieces a first append writes: one empty piece for no data (R129). -/
def newFilePieces (data : List Byte) : List (List Byte) := if data.isEmpty then [[]] else payloadChunks data

/-- The first append to a file without content blocks writes the pieces of its data. -/
theorem Disk.holdsFile_of_appendToFile {c : Config} (hc : c.legal = true) {d d' : Disk} {name data : List Byte}
    {l : DiskLoc} (hfile : d.HoldsFile c name l [] []) (h : d.appendToFile c name data = .ok d') :
    d'.swaps = d.swaps ∧ ∃ ls, d'.HoldsFile c name l ls (newFilePieces data) := by
  have hextend : d.extend c l (chainBlock l [] (padTo Config.blockPayload name)) 0 [] (newFilePieces data) =
      .ok d' := by
    rw [← h]
    simp [Disk.appendToFile, hfile.formatted, hfile.lookupFile, hfile.walk, hfile.block, newFilePieces]
  obtain ⟨free, hfree, hlen, rfl⟩ := Disk.extend_ok hextend
  have hsublist : (free.take (newFilePieces data).length).Sublist (contentRegion c) :=
    (List.take_sublist _ _).trans (Disk.filterBlocks_ok hfree).1
  have hlength : (free.take (newFilePieces data).length).length = (newFilePieces data).length :=
    List.length_take_of_le hlen
  generalize free.take (newFilePieces data).length = ls at hsublist hlength
  have hdir := directoryRegion_onGrid hc hfile.directory
  have hls : ∀ m ∈ ls, m.onGrid c = true := fun m hm => contentRegion_onGrid (hsublist.subset hm)
  have houtside : ∀ m ∈ directoryRegion c, m ∉ ls := fun m hm hin => regions_disjoint hm (hsublist.subset hin)
  have hblock : ({ chainBlock l [] (padTo Config.blockPayload name) with
      pointer := ls.head?.getD (chainBlock l [] (padTo Config.blockPayload name)).pointer
      content := patchAt (chainBlock l [] (padTo Config.blockPayload name)).content 0 [] } : FsBlock) =
        chainBlock l ls (padTo Config.blockPayload name) := by
    simp [chainBlock, patchAt]
  rw [hblock]
  have hwf := Disk.wf_writeBlock hfile.wf l (chainBlock l ls (padTo Config.blockPayload name))
  obtain ⟨hwf', hformatted, hswaps, hread⟩ :=
    Disk.writeChain_frame (pieces := newFilePieces data) hc hwf hls
  refine ⟨hswaps, ls, hwf', hformatted.trans hfile.formatted, hfile.name_ne, hfile.directory, ?_, fun m hm hne => ?_,
    hsublist, Disk.holdsPieces_writeChain hc hwf hls ((nodup_contentRegion c).sublist hsublist) hlength⟩
  · rw [hread l hdir (houtside l hfile.directory),
      Disk.readBlock_writeBlock hc hfile.wf l (chainBlock_pointer_onGrid hdir hls _)]
  · have hm' := directoryRegion_onGrid hc hm
    rw [hread m hm' (houtside m hm), Disk.readBlock_writeBlock_of_ne hc hfile.wf hdir hm' hne]
    exact hfile.others m hm hne

/-! ## Pieces and bytes -/

/-- The pieces of a byte string, each padded to a block, are the bytes followed by zeros only. -/
theorem flatMap_padTo_chunksOf {fuel : Nat} {bs : List Byte} (h : bs.length ≤ fuel) :
    ∃ k, (chunksOf fuel bs).flatMap (padTo Config.blockPayload) = bs ++ List.replicate k 0x00#8 := by
  induction fuel generalizing bs with
  | zero => exact ⟨0, by simp [chunksOf, List.length_eq_zero_iff.1 (Nat.le_zero.1 h)]⟩
  | succ fuel ih =>
    rw [chunksOf]
    split
    next hempty => exact ⟨0, by simp [List.isEmpty_iff.1 hempty]⟩
    next hne =>
      have hpos : bs.length ≠ 0 := by simpa [List.isEmpty_iff] using hne
      obtain ⟨k, hk⟩ := ih (bs := bs.drop Config.blockPayload) (by simp [Config.blockPayload]; omega)
      rw [List.flatMap_cons, hk]
      by_cases hlong : Config.blockPayload ≤ bs.length
      · refine ⟨k, ?_⟩
        rw [padTo, List.length_take_of_le hlong, Nat.sub_self, List.replicate_zero, List.append_nil,
          ← List.append_assoc, List.take_append_drop]
      · refine ⟨Config.blockPayload - bs.length + k, ?_⟩
        have hle : bs.length ≤ Config.blockPayload := Nat.le_of_not_le hlong
        rw [List.take_of_length_le hle, List.drop_eq_nil_of_le hle, padTo, List.nil_append, List.append_assoc,
          List.replicate_append_replicate]

theorem flatMap_padTo_newFilePieces (data : List Byte) :
    ∃ k, (newFilePieces data).flatMap (padTo Config.blockPayload) = data ++ List.replicate k 0x00#8 := by
  unfold newFilePieces
  split
  next hempty => exact ⟨Config.blockPayload, by simp [List.isEmpty_iff.1 hempty, padTo]⟩
  next => exact flatMap_padTo_chunksOf (Nat.le_refl _)

/-! ## Swap files (R135, R136) -/

theorem Disk.deleteSwap_of_file {c : Config} {d d' : Disk} {pid : Nat} {img : List Byte} (hf : d.formatted = true)
    (hp : pid ∈ d.swaps) (hread : d.readRaw c (swapName pid) = .ok img)
    (hdelete : d.deleteFile c (swapName pid) = .ok d') :
    d.deleteSwap c pid = .ok (img, { d' with swaps := erasePid pid d'.swaps }) := by
  simp [Disk.deleteSwap, hf, hp, hread, hdelete]

/-- A swap file that was written reads back, and is deleted, as the bytes written followed by zeros only. -/
theorem Disk.deleteSwap_of_swapLoad {c : Config} (hc : c.legal = true) {d d' : Disk}
    (hd : Sparse.wf unlistedBlock d.blocks = true) {program : List Byte} {pid : Nat}
    (h : d.swapLoad c program pid = .ok d') :
    ∃ k d'', d'.deleteSwap c pid = .ok (program ++ List.replicate k 0x00#8, d'') := by
  obtain ⟨d1, d2, hcreate, happend, rfl⟩ := Disk.swapLoad_ok h
  obtain ⟨l, hnew⟩ := Disk.holdsFile_of_createFile hc hd hcreate
  obtain ⟨_, ls, hfile⟩ := Disk.holdsFile_of_appendToFile hc hnew happend
  obtain ⟨k, hk⟩ := flatMap_padTo_newFilePieces program
  have hlisted : Disk.HoldsFile c { d2 with swaps := insertPid pid d2.swaps } (swapName pid) l ls
      (newFilePieces program) := by
    obtain ⟨hwf, hformatted, hname, hdirectory, hblock, hothers, hcontent, hholds⟩ := hfile
    exact ⟨hwf, hformatted, hname, hdirectory, hblock, hothers, hcontent, hholds.of_readBlock fun _ _ => rfl⟩
  have hmem : pid ∈ insertPid pid d2.swaps := mem_insertPid.2 (.inl rfl)
  exact ⟨k, _, Disk.deleteSwap_of_file hlisted.formatted hmem (hk ▸ hlisted.readRaw) hlisted.deleteFile⟩

/-- Settles O48: the roll-out frees a segment, so that the image, read back as the segment's bytes and zeros, can be
placed in the first free one. -/
theorem rollOutRollInKeepsImage : Obligations.RollOutRollInKeepsImage := by
  intro s t v i hmem ⟨_, hdisk, _⟩ hlen hi hroll
  have hlegal := hmem.1
  have hmem' : t.memoryOk := (State.storePath_of_rollOut hroll).keeps (fun _ _ => State.memoryOk_of_storeOp) hmem
  obtain ⟨i', g, d, _, hi', hg, hswap, ht⟩ := State.rollOut_eq hroll
  rw [hi] at hi'
  cases hi'
  obtain ⟨hlt, rfl⟩ := segmentTable_getElem? (hmem.2.1 ▸ hg)
  obtain ⟨n, d', hdelete⟩ := Disk.deleteSwap_of_swapLoad hlegal hdisk hswap
  have hcfg : t.cfg = s.cfg := by rw [ht]
  have hdisk' : t.disk = d := by rw [ht]
  have hdelete' : t.disk.deleteSwap t.cfg v.pid = .ok (Memory.readBytes s.mem (segmentAt s.cfg i).base s.cfg.segSize ++
      List.replicate n 0x00#8, d') := by
    rw [hdisk', hcfg, hdelete]
  have hocc : t.occ = s.occ.set i false := by rw [ht]
  have hlen' : t.occ.length = t.cfg.numSegments := by rw [hocc, List.length_set, hlen, hcfg]
  have hfree : t.isFull = false := by
    refine State.isFull_eq_false ⟨false, ?_, rfl⟩
    rw [hocc]
    exact List.mem_set (hlen ▸ hlt) false
  obtain ⟨j, hj, _⟩ := State.exists_freeSegment hfree hlen'
  obtain ⟨hj, hfirst⟩ := State.freeSegment_some hj
  obtain ⟨u, hrolled, hload⟩ := State.loadImage_of_deleteSwap
    (h := { v with occupiedSegment := none, location := .disk }) hmem' hlen' hdelete' hj hfirst
  obtain ⟨_, _, _, hbytes, _⟩ := hrolled
  refine ⟨_, u, j, hload, rfl, fun k hk => ?_⟩
  rw [hbytes k (by rwa [hcfg]), List.getD_eq_getElem?_getD, List.getElem?_append_left (by simpa using hk),
    Memory.getElem?_readBytes, if_pos hk]
  rfl

end Sys2Proof.Machine
end

section
/-! PROOF. The disk stays canonical (O53): every operation of the file-system controller writes 64-byte blocks to
locations of the grid, and a tick touches the disk by such operations only. -/

namespace Sys2Proof.Machine

/-! ## Canonical disks -/

/-- The disk's part of `State.diskOk`: only locations of the grid are listed, in rising order, each as a 64-byte stored
block that is not the fresh one. -/
def Disk.Canonical (c : Config) (d : Disk) : Prop :=
  Sparse.wf unlistedBlock d.blocks = true ∧
    ∀ e ∈ d.blocks, e.2.length = Config.blockSize ∧
      (DiskLoc.ofKey e.1).onGrid c = true ∧ (DiskLoc.ofKey e.1).key = e.1

theorem State.diskOk_iff {s : State} : s.diskOk ↔ s.cfg.legal = true ∧ s.disk.Canonical s.cfg := Iff.rfl

/-- A key reads as its listed value or, when it is not listed, as the default. -/
theorem Sparse.read_mem_or {α : Type} {dflt : Nat → α} (m : List (Nat × α)) (k : Nat) :
    (k, Sparse.read dflt m k) ∈ m ∨ Sparse.read dflt m k = dflt k := by
  induction m with
  | nil => exact .inr rfl
  | cons e m ih =>
    obtain ⟨a, v⟩ := e
    rw [Sparse.read]
    split
    next h => exact .inl (h ▸ List.mem_cons_self)
    next => exact ih.imp_left (List.mem_cons_of_mem _)

@[simp] theorem length_unlistedBlock (k : Nat) : (unlistedBlock k).length = Config.blockSize := by
  simp [unlistedBlock, freshBlock, Config.blockSize]

/-! ## The blocks of the disk (46_disk_fs.md R120) -/

/-- What a stored form that decodes is like: its pointer is on the grid, and its content is all but four bytes. -/
theorem FsBlock.decode_some {c : Config} {bs : List Byte} {b : FsBlock} (h : FsBlock.decode c bs = some b) :
    b.pointer.onGrid c = true ∧ bs.length = 4 + b.content.length := by
  unfold FsBlock.decode at h
  split at h
  next st t s p content =>
    split at h
    next => cases h
    next state _ =>
      split at h
      next hgrid =>
        cases h
        exact ⟨hgrid, by simp only [List.length_cons]; omega⟩
      next => cases h
  next => cases h

/-- Reading a block decodes its stored form; a corrupt one is `CorruptChain`. -/
theorem Disk.readBlock_ok {c : Config} {d : Disk} {l : DiskLoc} {b : FsBlock} :
    d.readBlock c l = .ok b ↔ FsBlock.decode c (d.stored l) = some b := by
  unfold Disk.readBlock
  cases FsBlock.decode c (d.stored l) <;> simp

theorem Disk.readBlock_pointer_onGrid {c : Config} {d : Disk} {l : DiskLoc} {b : FsBlock}
    (h : d.readBlock c l = .ok b) : b.pointer.onGrid c = true :=
  (FsBlock.decode_some (Disk.readBlock_ok.1 h)).1

/-- Every location a chain walk visits is on the grid: a block read from the disk points there (R120, R126). -/
theorem Disk.walkFrom_onGrid {c : Config} {d : Disk} {hops : Nat} {l : DiskLoc} {b : FsBlock} {ls : List DiskLoc}
    (hb : b.pointer.onGrid c = true) (h : d.walkFrom c hops l b = .ok ls) : ∀ m ∈ ls, m.onGrid c = true := by
  induction hops generalizing l b ls with
  | zero =>
    unfold Disk.walkFrom at h
    split at h <;> cases h
    simp
  | succ hops ih =>
    rw [Disk.walkFrom] at h
    split at h
    next => cases h; simp
    next =>
      split at h
      next => cases h
      next next hnext =>
        split at h
        next =>
          split at h
          next => cases h
          next rest hrest =>
            cases h
            exact List.forall_mem_cons.2 ⟨hb, ih (Disk.readBlock_pointer_onGrid hnext) hrest⟩
        next => cases h

theorem Disk.walk_onGrid {c : Config} {d : Disk} {l : DiskLoc} {ls : List DiskLoc} (h : d.walk c l = .ok ls) :
    ∀ m ∈ ls, m.onGrid c = true := by
  unfold Disk.walk at h
  split at h
  next => cases h
  next b hb => exact Disk.walkFrom_onGrid (Disk.readBlock_pointer_onGrid hb) h

/-- Every piece of a byte string fits a block. -/
theorem length_le_of_mem_chunksOf {fuel : Nat} {bs piece : List Byte} (h : piece ∈ chunksOf fuel bs) :
    piece.length ≤ Config.blockPayload := by
  induction fuel generalizing bs with
  | zero => cases h
  | succ fuel ih =>
    rw [chunksOf] at h
    split at h
    next => cases h
    next =>
      rcases List.mem_cons.1 h with rfl | h
      · exact List.length_take_le _ _
      · exact ih h

/-! ## The operations, inverted -/

/-- The file that `lookupFile` finds is in the directory region (R125). -/
theorem Disk.lookupFile_ok {c : Config} {d : Disk} {name : List Byte} {l : DiskLoc}
    (h : d.lookupFile c name = .ok l) : l ∈ directoryRegion c := by
  unfold Disk.lookupFile at h
  split at h
  next => cases h
  next => cases h
  next m hm =>
    cases h
    exact (Disk.findBlock_some hm).1

/-- What `appendToFile` does when it succeeds (R129): it extends the chain at the directory block of an empty file, or
at the terminus, from its first 0x00 byte on. -/
theorem Disk.appendToFile_ok {c : Config} {d d' : Disk} {name data : List Byte}
    (h : d.appendToFile c name data = .ok d') :
    ∃ l ls, d.lookupFile c name = .ok l ∧ d.walk c l = .ok ls ∧
      ((ls = [] ∧ ∃ b, d.readBlock c l = .ok b ∧ d.extend c l b 0 [] (newFilePieces data) = .ok d') ∨
        ∃ t b, ls.getLast? = some t ∧ d.readBlock c t = .ok b ∧
          d.extend c t b (cutAtZero b.content).length
            (data.take (Config.blockPayload - (cutAtZero b.content).length))
            (payloadChunks (data.drop (Config.blockPayload - (cutAtZero b.content).length))) = .ok d') := by
  unfold Disk.appendToFile at h
  split at h
  next =>
    split at h
    next => cases h
    next l hl =>
      split at h
      next => cases h
      next ls hls =>
        refine ⟨l, ls, hl, hls, ?_⟩
        split at h
        next hlast =>
          split at h
          next => cases h
          next b hb => exact .inl ⟨List.getLast?_eq_none_iff.1 hlast, b, hb, h⟩
        next t hlast =>
          split at h
          next => cases h
          next b hb => exact .inr ⟨t, b, hlast, hb, h⟩
  next => cases h

/-- What `deleteFile` does when it succeeds (R132). -/
theorem Disk.deleteFile_ok {c : Config} {d d' : Disk} {name : List Byte} (h : d.deleteFile c name = .ok d') :
    ∃ l ls, d.lookupFile c name = .ok l ∧ d.walk c l = .ok ls ∧ d' = (l :: ls).foldl Disk.resetBlock d := by
  unfold Disk.deleteFile at h
  split at h
  next =>
    split at h
    next => cases h
    next l hl =>
      split at h
      next => cases h
      next ls hls =>
        cases h
        exact ⟨l, ls, hl, hls, rfl⟩
  next => cases h

/-! ## What the operations keep -/

theorem length_patchAt {content bs : List Byte} {off : Nat} (h : off + bs.length ≤ content.length) :
    (patchAt content off bs).length = content.length := by
  simp only [patchAt, List.length_append, List.length_take, List.length_drop]
  omega

theorem length_cutAtZero_le (bs : List Byte) : (cutAtZero bs).length ≤ bs.length :=
  (List.takeWhile_sublist _).length_le

/-- An empty list of blocks is canonical: it is the disk just formatted (R127). -/
theorem Disk.canonical_format (c : Config) (d : Disk) : d.format.Canonical c := ⟨rfl, by simp [Disk.format]⟩

namespace Disk.Canonical

variable {c : Config} {d d' : Disk}

/-- It speaks of the blocks only. -/
theorem of_blocks (h : d.Canonical c) (hblocks : d'.blocks = d.blocks) : d'.Canonical c := by
  rwa [Disk.Canonical, hblocks]

theorem length_stored (h : d.Canonical c) (l : DiskLoc) : (d.stored l).length = Config.blockSize := by
  rcases Sparse.read_mem_or (dflt := unlistedBlock) d.blocks l.key with hmem | hdflt
  · exact (h.2 _ hmem).1
  · rw [Disk.stored, hdflt, length_unlistedBlock]

/-- Every block read has 60 bytes of content. -/
theorem length_content (h : d.Canonical c) {l : DiskLoc} {b : FsBlock} (hb : d.readBlock c l = .ok b) :
    b.content.length = Config.blockPayload := by
  have hlen := (FsBlock.decode_some (Disk.readBlock_ok.1 hb)).2
  rw [h.length_stored, Config.blockSize] at hlen
  simp only [Config.blockPayload]
  omega

theorem writeBlock (hc : c.legal = true) (h : d.Canonical c) {l : DiskLoc} {b : FsBlock} (hl : l.onGrid c = true)
    (hb : b.content.length = Config.blockPayload) : (d.writeBlock l b).Canonical c := by
  obtain ⟨_, hs, hbl⟩ := DiskLoc.onGrid_lt hc hl
  have hkey : DiskLoc.ofKey l.key = l := DiskLoc.ofKey_key (by omega) (by omega)
  refine ⟨Disk.wf_writeBlock h.1 l b, fun e he => ?_⟩
  rcases Sparse.mem_write he with rfl | he
  · exact ⟨by rw [FsBlock.length_encode, hb]; rfl, by rwa [hkey], by rw [hkey]⟩
  · exact h.2 e he

theorem writeChain (hc : c.legal = true) (h : d.Canonical c) {ls : List DiskLoc} {pieces : List (List Byte)}
    (hls : ∀ l ∈ ls, l.onGrid c = true) (hpieces : ∀ p ∈ pieces, p.length ≤ Config.blockPayload) :
    (d.writeChain ls pieces).Canonical c := by
  induction ls generalizing d pieces with
  | nil => simpa [Disk.writeChain] using h
  | cons l ls ih =>
    cases pieces with
    | nil => simpa [Disk.writeChain] using h
    | cons piece pieces =>
      obtain ⟨hl, hls⟩ := List.forall_mem_cons.1 hls
      obtain ⟨hpiece, hpieces⟩ := List.forall_mem_cons.1 hpieces
      rw [Disk.writeChain_cons]
      exact ih (h.writeBlock hc hl (length_padTo hpiece)) hls hpieces

theorem resetBlocks (hc : c.legal = true) (h : d.Canonical c) {ls : List DiskLoc}
    (hls : ∀ l ∈ ls, l.onGrid c = true) : (ls.foldl Disk.resetBlock d).Canonical c := by
  induction ls generalizing d with
  | nil => exact h
  | cons l ls ih =>
    obtain ⟨hl, hls⟩ := List.forall_mem_cons.1 hls
    exact ih (h.writeBlock hc hl length_zeroContent) hls

/-- An extension whose bytes fit the terminus writes whole blocks: to the terminus and to content blocks (R129). -/
theorem extend (hc : c.legal = true) (h : d.Canonical c) {t : DiskLoc} {b : FsBlock} {off : Nat} {head : List Byte}
    {pieces : List (List Byte)} (ht : t.onGrid c = true) (hb : b.content.length = Config.blockPayload)
    (hfit : off + head.length ≤ Config.blockPayload) (hpieces : ∀ p ∈ pieces, p.length ≤ Config.blockPayload)
    (he : d.extend c t b off head pieces = .ok d') : d'.Canonical c := by
  obtain ⟨free, hfree, _, rfl⟩ := Disk.extend_ok he
  have hcontent : (patchAt b.content off head).length = Config.blockPayload := by
    rw [length_patchAt (by rwa [hb]), hb]
  refine (h.writeBlock hc ht hcontent).writeChain hc (fun m hm => ?_) hpieces
  exact contentRegion_onGrid ((Disk.filterBlocks_ok hfree).1.subset (List.mem_of_mem_take hm))

theorem createFile (hc : c.legal = true) (h : d.Canonical c) {name : List Byte}
    (he : d.createFile c name = .ok d') : d'.Canonical c := by
  obtain ⟨_, hvalid, _, l, hclaim, rfl⟩ := Disk.createFile_ok he
  have hlen : name.length ≤ Config.blockPayload := by
    simp only [validFileName, Bool.and_eq_true, decide_eq_true_eq] at hvalid
    exact hvalid.1.2
  exact h.writeBlock hc (directoryRegion_onGrid hc (Disk.claimDir_ok hclaim).1) (length_padTo hlen)

theorem appendToFile (hc : c.legal = true) (h : d.Canonical c) {name data : List Byte}
    (he : d.appendToFile c name data = .ok d') : d'.Canonical c := by
  obtain ⟨l, ls, hl, hls, ⟨_, b, hb, hext⟩ | ⟨t, b, ht, hb, hext⟩⟩ := Disk.appendToFile_ok he
  · refine h.extend hc (directoryRegion_onGrid hc (Disk.lookupFile_ok hl)) (h.length_content hb) (Nat.zero_le _)
      (fun piece hpiece => ?_) hext
    unfold newFilePieces at hpiece
    split at hpiece
    · rw [List.mem_singleton.1 hpiece]
      exact Nat.zero_le _
    · exact length_le_of_mem_chunksOf hpiece
  · have hcontent := h.length_content hb
    have hoff := length_cutAtZero_le b.content
    have hhead := List.length_take_le (Config.blockPayload - (cutAtZero b.content).length) data
    exact h.extend hc (Disk.walk_onGrid hls t (List.mem_of_getLast? ht)) hcontent (by omega)
      (fun _ => length_le_of_mem_chunksOf) hext

theorem deleteFile (hc : c.legal = true) (h : d.Canonical c) {name : List Byte}
    (he : d.deleteFile c name = .ok d') : d'.Canonical c := by
  obtain ⟨l, ls, hl, hls, rfl⟩ := Disk.deleteFile_ok he
  have hdir := directoryRegion_onGrid hc (Disk.lookupFile_ok hl)
  exact h.resetBlocks hc (List.forall_mem_cons.2 ⟨hdir, Disk.walk_onGrid hls⟩)

/-- Every successful operation of the controller keeps the disk canonical. -/
theorem op (hc : c.legal = true) (h : d.Canonical c) (hop : Disk.Op c d d') : d'.Canonical c := by
  cases hop with
  | format => exact d.canonical_format c
  | create he => exact h.createFile hc he
  | append he => exact h.appendToFile hc he
  | delete he => exact h.deleteFile hc he
  | swapOut he =>
    obtain ⟨d1, d2, hcreate, happend, rfl⟩ := Disk.swapLoad_ok he
    exact ((h.createFile hc hcreate).appendToFile hc happend).of_blocks rfl
  | swapIn he =>
    obtain ⟨_, _, _, d1, hdelete, rfl⟩ := Disk.deleteSwap_ok he
    exact (h.deleteFile hc hdelete).of_blocks rfl

end Disk.Canonical

/-! ## Every step keeps it -/

theorem State.diskOk_of_storeOp {s t : State} (h : s.StoreOp t) (hs : s.diskOk) : t.diskOk := by
  cases h with
  | elsewhere hcfg _ _ _ hdisk => rwa [State.diskOk_iff, hcfg, hdisk]
  | byte _ v => exact hs
  | place hplace =>
    obtain ⟨_, g, _, rfl⟩ := State.place_ok.1 hplace
    exact hs
  | vacate p =>
    rcases s.vacate_cases p with ⟨i, g, _, _, h⟩ | ⟨_, h⟩ <;> rw [h] <;> exact hs
  | disk hop =>
    obtain ⟨hlegal, hcanonical⟩ := State.diskOk_iff.1 hs
    exact State.diskOk_iff.2 ⟨hlegal, hcanonical.op hlegal hop⟩

/-- Settles O53: each single operation keeps the disk canonical, and a tick is a chain of them. -/
theorem diskStaysCanonical : Obligations.DiskStaysCanonical := by
  intro s t hs h
  exact (storePath_of_step h).keeps (fun _ _ => State.diskOk_of_storeOp) hs

end Sys2Proof.Machine
end

section
/-! PROOF. The stored form of a block (O46), the read-back of a swap file (O47), and the deletion of a file that was
written (O50). -/

namespace Sys2Proof.Machine

/-! ## The stored form (46_disk_fs.md R120) -/

/-- A state byte other than 0x00 and 0x01 is corrupt. -/
theorem BlockState.ofByte_eq_none {b : Byte} (h0 : b ≠ 0x00#8) (h1 : b ≠ 0x01#8) : BlockState.ofByte b = none := by
  rw [BlockState.ofByte, if_neg h0, if_neg h1]

theorem FsBlock.decode_of_state {c : Config} {st t s b : Byte} {content : List Byte}
    (h : BlockState.ofByte st = none) : FsBlock.decode c (st :: t :: s :: b :: content) = none := by
  simp only [FsBlock.decode, h]

theorem FsBlock.decode_of_off_grid {c : Config} {st t s b : Byte} {content : List Byte}
    (h : DiskLoc.onGrid c ⟨t.toNat, s.toNat, b.toNat⟩ = false) :
    FsBlock.decode c (st :: t :: s :: b :: content) = none := by
  cases hst : BlockState.ofByte st with
  | none => exact FsBlock.decode_of_state hst
  | some state => simp [FsBlock.decode, hst, h]

theorem Disk.readBlock_of_corrupt {c : Config} {d : Disk} {l : DiskLoc} (h : FsBlock.decode c (d.stored l) = none) :
    d.readBlock c l = .error .corruptChain := by
  simp only [Disk.readBlock, h]

/-- Settles O46: the round trip is `FsBlock.decode_encode`; a corrupt state byte and a pointer off the grid each stop
the decoder. -/
theorem storedBlockRoundTrip : Obligations.StoredBlockRoundTrip := by
  intro c hc
  refine ⟨fun b => FsBlock.decode_encode hc, fun b => ?_, fun b hb => ?_, fun d l => Disk.readBlock_of_corrupt,
    fun st t s b content h0 h1 => FsBlock.decode_of_state (BlockState.ofByte_eq_none h0 h1),
    fun st t s b content hoff => FsBlock.decode_of_off_grid ?_⟩
  · obtain ⟨state, pointer, content⟩ := b
    cases state <;> rfl
  · rw [FsBlock.length_encode, hb]
  · simp only [DiskLoc.onGrid, Bool.and_eq_false_iff, decide_eq_false_iff_not]
    omega

/-! ## Blocks reset (R121, R132) -/

/-- A block just reset reads as the fresh block. -/
theorem Disk.readBlock_resetBlock {c : Config} {d : Disk} (hc : c.legal = true)
    (hd : Sparse.wf unlistedBlock d.blocks = true) {l : DiskLoc} (hl : l.onGrid c = true) :
    (d.resetBlock l).readBlock c l = .ok (freshBlock l) :=
  Disk.readBlock_writeBlock hc hd l hl

/-- What resetting the blocks `ls` leaves: they are fresh, and all other blocks of the grid and the disk's other two
fields are as before. -/
theorem Disk.resetBlocks_frame {c : Config} (hc : c.legal = true) {ls : List DiskLoc} {d : Disk}
    (hd : Sparse.wf unlistedBlock d.blocks = true) (hls : ∀ l ∈ ls, l.onGrid c = true) :
    Sparse.wf unlistedBlock (ls.foldl Disk.resetBlock d).blocks = true ∧
      (ls.foldl Disk.resetBlock d).formatted = d.formatted ∧ (ls.foldl Disk.resetBlock d).swaps = d.swaps ∧
      ∀ m, m.onGrid c = true → (ls.foldl Disk.resetBlock d).readBlock c m =
        if m ∈ ls then .ok (freshBlock m) else d.readBlock c m := by
  induction ls generalizing d with
  | nil => simp [hd]
  | cons l ls ih =>
    obtain ⟨hl, hls⟩ := List.forall_mem_cons.1 hls
    obtain ⟨hwf, hformatted, hswaps, hread⟩ := ih (Disk.wf_writeBlock hd l (freshBlock l)) hls
    refine ⟨hwf, hformatted, hswaps, fun m hm => ?_⟩
    rw [List.foldl_cons, Disk.resetBlock, hread m hm]
    by_cases hml : m = l
    · subst hml
      simp [Disk.readBlock_writeBlock hc hd m (b := freshBlock m) hm]
    · simp [hml, Disk.readBlock_writeBlock_of_ne hc hd hl hm hml]

/-! ## A file deleted (R132, R137 (2)) -/

/-- The file is gone after its deletion, its directory block is AVAILABLE, and the other fields are as before. -/
theorem Disk.HoldsFile.deleted {c : Config} (hc : c.legal = true) {d : Disk} {name : List Byte} {l : DiskLoc}
    {ls : List DiskLoc} {pieces : List (List Byte)} (h : d.HoldsFile c name l ls pieces) :
    ∃ d', d.deleteFile c name = .ok d' ∧ Sparse.wf unlistedBlock d'.blocks = true ∧ d'.formatted = true ∧
      d'.swaps = d.swaps ∧ d'.lookup c name = .ok none ∧ d'.readBlock c l = .ok (freshBlock l) := by
  have hls : ∀ m ∈ l :: ls, m.onGrid c = true := List.forall_mem_cons.2
    ⟨directoryRegion_onGrid hc h.directory, fun m hm => contentRegion_onGrid (h.content.subset hm)⟩
  obtain ⟨hwf, hformatted, hswaps, hread⟩ := Disk.resetBlocks_frame hc h.wf hls
  have hfresh : ((l :: ls).foldl Disk.resetBlock d).readBlock c l = .ok (freshBlock l) := by
    rw [hread l (hls l List.mem_cons_self), if_pos List.mem_cons_self]
  refine ⟨_, h.deleteFile, hwf, hformatted.trans h.formatted, hswaps, Disk.findBlock_none.2 fun m hm => ?_, hfresh⟩
  by_cases hml : m = l
  · subst hml
    exact ⟨freshBlock m, hfresh, rfl⟩
  · have hnot : m ∉ l :: ls := fun hin =>
      (List.mem_cons.1 hin).elim hml fun hin => regions_disjoint hm (h.content.subset hin)
    rw [hread m (directoryRegion_onGrid hc hm), if_neg hnot]
    exact h.others m hm hml

/-- A scan of readable blocks finds one when one of them satisfies the predicate. -/
theorem Disk.findBlock_of_mem {c : Config} {d : Disk} {p : FsBlock → Bool} {ls : List DiskLoc} {l : DiskLoc}
    {b : FsBlock} (hread : ∀ m ∈ ls, ∃ b, d.readBlock c m = .ok b) (hl : l ∈ ls) (hb : d.readBlock c l = .ok b)
    (hp : p b = true) : ∃ m, d.findBlock c p ls = .ok (some m) := by
  induction ls with
  | nil => cases hl
  | cons m ls ih =>
    obtain ⟨⟨b', hb'⟩, hread⟩ := List.forall_mem_cons.1 hread
    rw [Disk.findBlock, hb']
    cases hp' : p b' with
    | true => exact ⟨m, by simp only [hp', if_true]⟩
    | false =>
      have hml : l ≠ m := fun heq => by
        subst heq
        cases hb.symm.trans hb'
        cases hp.symm.trans hp'
      simpa [hp'] using ih hread ((List.mem_cons.1 hl).resolve_left hml)

/-- A name that is no file can be created while a directory block is AVAILABLE (R124, R128). -/
theorem Disk.createFile_of_available {c : Config} {d : Disk} {name : List Byte} {l : DiskLoc} {b : FsBlock}
    (hformatted : d.formatted = true) (hvalid : validFileName name = true) (hgone : d.lookup c name = .ok none)
    (hl : l ∈ directoryRegion c) (hb : d.readBlock c l = .ok b) (hfree : b.isOccupied = false) :
    ∃ d', d.createFile c name = .ok d' := by
  have hread : ∀ m ∈ directoryRegion c, ∃ b, d.readBlock c m = .ok b := fun m hm =>
    (Disk.findBlock_none.1 hgone m hm).imp fun _ h => h.1
  obtain ⟨m, hm⟩ := Disk.findBlock_of_mem (p := fun b => !b.isOccupied) hread hl hb (by simp [hfree])
  simp [Disk.createFile, Disk.claimDir, hformatted, hvalid, hgone, hm]

/-- Settles O50: the deletion leaves the directory block AVAILABLE, so that it, or an earlier one, can be claimed
again; a file just created has no content block. -/
theorem deleteLeavesNoResidue : Obligations.DeleteLeavesNoResidue := by
  intro c d d1 d2 name data hc hd hcreate happend
  obtain ⟨_, hvalid, _⟩ := Disk.createFile_ok hcreate
  obtain ⟨l, hnew⟩ := Disk.holdsFile_of_createFile hc hd hcreate
  obtain ⟨_, ls, hfile⟩ := Disk.holdsFile_of_appendToFile hc hnew happend
  obtain ⟨d3, hdelete, hwf, hformatted, _, hgone, hfresh⟩ := hfile.deleted hc
  obtain ⟨d4, hagain⟩ := Disk.createFile_of_available hformatted hvalid hgone hfile.directory hfresh rfl
  obtain ⟨l', hempty⟩ := Disk.holdsFile_of_createFile hc hwf hagain
  refine ⟨d3, hdelete, hgone, d4, hagain, ?_⟩
  rw [Disk.readFile, hempty.readRaw]
  rfl

/-! ## A swap file read back (R135, R136) -/

/-- What a block reads is a matter of the blocks only. -/
theorem Disk.readBlock_of_blocks {c : Config} {d d' : Disk} (h : d'.blocks = d.blocks) (l : DiskLoc) :
    d'.readBlock c l = d.readBlock c l := by
  rw [Disk.readBlock, Disk.stored, h, Disk.readBlock, Disk.stored]

/-- Whether a file is held depends on the blocks and on the disk being formatted, not on the swaps listed. -/
theorem Disk.HoldsFile.of_blocks {c : Config} {d d' : Disk} {name : List Byte} {l : DiskLoc} {ls : List DiskLoc}
    {pieces : List (List Byte)} (h : d.HoldsFile c name l ls pieces) (hblocks : d'.blocks = d.blocks)
    (hformatted : d'.formatted = d.formatted) : d'.HoldsFile c name l ls pieces := by
  have hread : ∀ m, d'.readBlock c m = d.readBlock c m := Disk.readBlock_of_blocks hblocks
  exact {
    wf := hblocks ▸ h.wf
    formatted := hformatted.trans h.formatted
    name_ne := h.name_ne
    directory := h.directory
    block := (hread l).trans h.block
    others := fun m hm hne => hread m ▸ h.others m hm hne
    content := h.content
    holds := h.holds.of_readBlock fun m _ => hread m }

/-- A swap file that was written is a file of its program's pieces. -/
theorem Disk.holdsFile_of_swapLoad {c : Config} (hc : c.legal = true) {d d' : Disk}
    (hd : Sparse.wf unlistedBlock d.blocks = true) {program : List Byte} {pid : Nat}
    (h : d.swapLoad c program pid = .ok d') :
    ∃ l ls, d'.HoldsFile c (swapName pid) l ls (newFilePieces program) := by
  obtain ⟨d1, d2, hcreate, happend, rfl⟩ := Disk.swapLoad_ok h
  obtain ⟨l, hnew⟩ := Disk.holdsFile_of_createFile hc hd hcreate
  obtain ⟨_, ls, hfile⟩ := Disk.holdsFile_of_appendToFile hc hnew happend
  exact ⟨l, ls, hfile.of_blocks rfl rfl⟩

/-- Settles O47: the read-back deletes the file that holds the program's pieces; these are the program and zeros. -/
theorem swapRoundTrip : Obligations.SwapRoundTrip := by
  intro c d d' program pid hc hd hload
  obtain ⟨k, d'', hback⟩ := Disk.deleteSwap_of_swapLoad hc hd hload
  obtain ⟨_, hlisted, _, d1, hdelete, hd''⟩ := Disk.deleteSwap_ok hback
  obtain ⟨l, ls, hfile⟩ := Disk.holdsFile_of_swapLoad hc hd hload
  obtain ⟨d2, hdelete', _, _, _, hgone, _⟩ := hfile.deleted hc
  cases hdelete.symm.trans hdelete'
  have hblocks : d''.blocks = d1.blocks := by rw [hd'']
  have hgone' : d''.lookup c (swapName pid) = .ok none := Disk.findBlock_none.2 fun m hm =>
    Disk.readBlock_of_blocks hblocks m ▸ Disk.findBlock_none.1 hgone m hm
  refine ⟨hlisted, _, d'', hback, List.take_left, fun b hb => ?_, hgone', Disk.not_mem_swaps_of_deleteSwap hback⟩
  rw [List.drop_left] at hb
  exact List.eq_of_mem_replicate hb

end Sys2Proof.Machine
end

section
/-! PROOF. Two appends to a new file (O49): the second one fills the terminus of the chain that the first one wrote, and
goes on in blocks claimed after it. -/

namespace Sys2Proof.Machine

/-! ## Text and its pieces -/

/-- Text is what its bytes, followed by zeros only, are cut to. -/
theorem cutAtZero_append_zeros {text : List Byte} (h : ∀ b ∈ text, b ≠ 0x00#8) (k : Nat) :
    cutAtZero (text ++ List.replicate k 0x00#8) = text := by
  have hpad := cutAtZero_padTo (n := text.length + k) h
  rwa [padTo, Nat.add_sub_cancel_left] at hpad

theorem padTo_of_length {n : Nat} {bs : List Byte} (h : bs.length = n) : padTo n bs = bs := by
  rw [padTo, h, Nat.sub_self, List.replicate_zero, List.append_nil]

/-- The last piece of a byte string: the pieces before it are whole blocks, and the string ends with it. -/
theorem exists_last_chunksOf {fuel : Nat} {bs : List Byte} (hne : bs ≠ []) (h : bs.length ≤ fuel) :
    ∃ ps q, chunksOf fuel bs = ps ++ [q] ∧ ps.flatMap (padTo Config.blockPayload) ++ q = bs ∧
      q.length ≤ Config.blockPayload := by
  induction fuel generalizing bs with
  | zero => exact absurd (List.length_eq_zero_iff.1 (Nat.le_zero.1 h)) hne
  | succ fuel ih =>
    have hchunks : chunksOf (fuel + 1) bs =
        bs.take Config.blockPayload :: chunksOf fuel (bs.drop Config.blockPayload) := by
      rw [chunksOf, if_neg (by simpa [List.isEmpty_iff] using hne)]
    by_cases hrest : bs.drop Config.blockPayload = []
    · refine ⟨[], bs.take Config.blockPayload, ?_, ?_, List.length_take_le _ _⟩
      · rw [hchunks, hrest]
        cases fuel <;> rfl
      · simpa [hrest] using List.take_append_drop Config.blockPayload bs
    · have hlong : Config.blockPayload < bs.length := by simpa using hrest
      obtain ⟨ps, q, heq, hbytes, hq⟩ := ih hrest (by simp only [List.length_drop, Config.blockPayload]; omega)
      refine ⟨bs.take Config.blockPayload :: ps, q, by rw [hchunks, heq, List.cons_append], ?_, hq⟩
      rw [List.flatMap_cons, padTo_of_length (List.length_take_of_le hlong.le), List.append_assoc, hbytes,
        List.take_append_drop]

/-- The last piece of a new file, empty for a file without data. -/
theorem exists_last_newFilePieces (data : List Byte) :
    ∃ ps q, newFilePieces data = ps ++ [q] ∧ ps.flatMap (padTo Config.blockPayload) ++ q = data ∧
      q.length ≤ Config.blockPayload := by
  unfold newFilePieces
  split
  next hempty => exact ⟨[], [], rfl, by simp [List.isEmpty_iff.1 hempty], Nat.zero_le _⟩
  next hne => exact exists_last_chunksOf (by simpa [List.isEmpty_iff] using hne) (Nat.le_refl _)

/-- Bytes written behind a piece that is padded to a block. -/
theorem patchAt_padTo {n : Nat} {q bs : List Byte} :
    patchAt (padTo n q) q.length bs = padTo n (q ++ bs) := by
  rw [patchAt, padTo, List.take_left, List.drop_append, List.drop_eq_nil_of_le (Nat.le_add_right _ _),
    Nat.add_sub_cancel_left, List.nil_append, List.drop_replicate, padTo, List.length_append, Nat.sub_sub]

/-- The pieces of data appended behind a last piece `q`: the room in the block of `q`, then whole blocks (R129). -/
theorem flatMap_padTo_append (q data : List Byte) (hq : q.length ≤ Config.blockPayload) :
    ∃ k, ((q ++ data.take (Config.blockPayload - q.length)) ::
        payloadChunks (data.drop (Config.blockPayload - q.length))).flatMap (padTo Config.blockPayload) =
      q ++ data ++ List.replicate k 0x00#8 := by
  by_cases hfit : data.length ≤ Config.blockPayload - q.length
  · rw [List.take_of_length_le hfit, List.drop_eq_nil_of_le hfit]
    exact ⟨Config.blockPayload - (q ++ data).length, List.append_nil _⟩
  · obtain ⟨k, hk⟩ := flatMap_padTo_chunksOf (bs := data.drop (Config.blockPayload - q.length)) (Nat.le_refl _)
    have hfull : (q ++ data.take (Config.blockPayload - q.length)).length = Config.blockPayload := by
      rw [List.length_append, List.length_take_of_le (Nat.le_of_not_le hfit), Nat.add_sub_cancel' hq]
    refine ⟨k, ?_⟩
    rw [List.flatMap_cons, padTo_of_length hfull, payloadChunks, hk, List.append_assoc,
      ← List.append_assoc (data.take _), List.take_append_drop, List.append_assoc]

/-! ## A chain extended (R126, R129) -/

/-- A chain's block depends on the blocks after it only by the first of them. -/
theorem chainBlock_congr {l : DiskLoc} {ls ls' : List DiskLoc} {content : List Byte} (h : ls.head? = ls'.head?) :
    chainBlock l ls content = chainBlock l ls' content := by
  rw [chainBlock, chainBlock, h]

namespace Disk.HoldsPieces

variable {c : Config} {d : Disk} {ls : List DiskLoc} {pieces : List (List Byte)}

/-- There is one block for each piece. -/
theorem length_eq (h : d.HoldsPieces c ls pieces) : ls.length = pieces.length := by
  induction ls generalizing pieces with
  | nil =>
    cases pieces with
    | nil => rfl
    | cons piece pieces => exact h.elim
  | cons l ls ih =>
    cases pieces with
    | nil => exact h.elim
    | cons piece pieces => exact congrArg Nat.succ (ih h.2)

/-- Each of its blocks is OCCUPIED. -/
theorem occupied (h : d.HoldsPieces c ls pieces) {l : DiskLoc} (hl : l ∈ ls) :
    ∃ b, d.readBlock c l = .ok b ∧ b.isOccupied = true := by
  induction ls generalizing pieces with
  | nil => cases hl
  | cons m ls ih =>
    cases pieces with
    | nil => exact h.elim
    | cons piece pieces =>
      rcases List.mem_cons.1 hl with rfl | hl
      · exact ⟨_, h.1, rfl⟩
      · exact ih h.2 hl

/-- A chain with a last piece has a terminus. -/
theorem exists_terminus {q : List Byte} (h : d.HoldsPieces c ls (pieces ++ [q])) : ∃ init t, ls = init ++ [t] := by
  refine ls.eq_nil_or_concat'.resolve_left fun hnil => ?_
  have hlen := h.length_eq
  simp [hnil] at hlen

/-- The terminus holds the last piece and points to itself. -/
theorem terminus {t : DiskLoc} {q : List Byte} (h : d.HoldsPieces c (ls ++ [t]) (pieces ++ [q])) :
    d.readBlock c t = .ok (chainBlock t [] (padTo Config.blockPayload q)) := by
  have hlen : ls.length = pieces.length := by simpa using h.length_eq
  induction ls generalizing pieces with
  | nil =>
    cases List.length_eq_zero_iff.1 hlen.symm
    exact h.1
  | cons l ls ih =>
    cases pieces with
    | nil => cases hlen
    | cons piece pieces => exact ih h.2 (Nat.succ.inj hlen)

/-- The chain written again from its terminus `t` on, the blocks before it as they were. -/
theorem extend {d' : Disk} {t : DiskLoc} {q q' : List Byte} {more : List DiskLoc} {morePieces : List (List Byte)}
    (h : d.HoldsPieces c (ls ++ [t]) (pieces ++ [q])) (hread : ∀ l ∈ ls, d'.readBlock c l = d.readBlock c l)
    (hchain : d'.HoldsPieces c (t :: more) (q' :: morePieces)) :
    d'.HoldsPieces c (ls ++ t :: more) (pieces ++ q' :: morePieces) := by
  have hlen : ls.length = pieces.length := by simpa using h.length_eq
  induction ls generalizing pieces with
  | nil =>
    cases List.length_eq_zero_iff.1 hlen.symm
    exact hchain
  | cons l ls ih =>
    cases pieces with
    | nil => cases hlen
    | cons piece pieces =>
      obtain ⟨hl, hread⟩ := List.forall_mem_cons.1 hread
      have hnext : (ls ++ [t]).head? = (ls ++ t :: more).head? := by cases ls <;> rfl
      obtain ⟨hblock, hrest⟩ := h
      exact ⟨hl.trans (hblock.trans (congrArg _ (chainBlock_congr hnext))), ih hrest hread (Nat.succ.inj hlen)⟩

end Disk.HoldsPieces

/-! ## A file whose blocks are in any order -/

/-- The directory's side of `Disk.HoldsFile`: the block at `l`, and no other one, stores `name`; it points to the first of
the content blocks `ls`. Nothing is said of the order of these on the disk, which a second append need not follow. -/
structure Disk.HoldsEntry (c : Config) (d : Disk) (name : List Byte) (l : DiskLoc) (ls : List DiskLoc) : Prop where
  name_ne : ∀ b ∈ name, b ≠ 0x00#8
  directory : l ∈ directoryRegion c
  block : d.readBlock c l = .ok (chainBlock l ls (padTo Config.blockPayload name))
  others : ∀ m ∈ directoryRegion c, m ≠ l →
    ∃ b, d.readBlock c m = .ok b ∧ (b.isOccupied && cutAtZero b.content == name) = false

namespace Disk.HoldsEntry

variable {c : Config} {d : Disk} {name : List Byte} {l : DiskLoc} {ls : List DiskLoc} {pieces : List (List Byte)}

theorem of_holdsFile (h : d.HoldsFile c name l ls pieces) : d.HoldsEntry c name l ls where
  name_ne := h.name_ne
  directory := h.directory
  block := h.block
  others := h.others

/-- It depends on the disk only by what the directory region reads, and on the content blocks by the first. -/
theorem of_readBlock {d' : Disk} {ls' : List DiskLoc} (h : d.HoldsEntry c name l ls) (hhead : ls.head? = ls'.head?)
    (hread : ∀ m ∈ directoryRegion c, d'.readBlock c m = d.readBlock c m) : d'.HoldsEntry c name l ls' where
  name_ne := h.name_ne
  directory := h.directory
  block := (hread l h.directory).trans (h.block.trans (congrArg _ (chainBlock_congr hhead)))
  others := fun m hm hne => hread m hm ▸ h.others m hm hne

theorem lookupFile (h : d.HoldsEntry c name l ls) : d.lookupFile c name = .ok l := by
  have hlookup : d.lookup c name = .ok (some l) :=
    Disk.findBlock_of_unique h.directory h.block (by simp [cutAtZero_padTo h.name_ne]) h.others
  rw [Disk.lookupFile, hlookup]

/-- The contents of the file, whatever the order of its content blocks on the disk (R131). -/
theorem readRaw (h : d.HoldsEntry c name l ls) (hformatted : d.formatted = true) (hholds : d.HoldsPieces c ls pieces)
    (hnodup : ls.Nodup) (hcontent : ∀ m ∈ ls, m ∈ contentRegion c) :
    d.readRaw c name = .ok (pieces.flatMap (padTo Config.blockPayload)) := by
  have hnot : l ∉ ls := fun hl => regions_disjoint h.directory (hcontent l hl)
  have hlength : ls.length ≤ c.gridBlocks :=
    Nat.le_trans (hnodup.subperm hcontent).length_le (length_contentRegion_le c)
  have hwalk : d.walk c l = .ok ls := by
    rw [Disk.walk, h.block]
    exact hholds.walkFrom_eq rfl (List.nodup_cons.2 ⟨hnot, hnodup⟩) hlength
  simp [Disk.readRaw, hformatted, h.lookupFile, hwalk, hholds.contents]

end Disk.HoldsEntry

/-! ## The second append -/

section
variable {c : Config} {d d' : Disk} {name : List Byte} {l t : DiskLoc} {ls : List DiskLoc} {ps : List (List Byte)}
  {q : List Byte}

/-- An append to a file whose last piece `q` is text writes a chain from the terminus on: `q` and the data that fits
behind it, then the other pieces of the data in blocks that were AVAILABLE, so none of the file's own (R129). -/
theorem Disk.append_at_terminus {data : List Byte} (hfile : d.HoldsFile c name l (ls ++ [t]) (ps ++ [q]))
    (htext : ∀ b ∈ q, b ≠ 0x00#8) (h : d.appendToFile c name data = .ok d') :
    ∃ more, more.length = (payloadChunks (data.drop (Config.blockPayload - q.length))).length ∧
      (ls ++ t :: more).Nodup ∧ (∀ m ∈ ls ++ t :: more, m ∈ contentRegion c) ∧
      d' = d.writeChain (t :: more) ((q ++ data.take (Config.blockPayload - q.length)) ::
        payloadChunks (data.drop (Config.blockPayload - q.length))) := by
  have hextend : d.extend c t (chainBlock t [] (padTo Config.blockPayload q)) q.length
      (data.take (Config.blockPayload - q.length)) (payloadChunks (data.drop (Config.blockPayload - q.length))) =
        .ok d' := by
    rw [← h]
    simp [Disk.appendToFile, hfile.formatted, hfile.lookupFile, hfile.walk, hfile.holds.terminus,
      cutAtZero_padTo htext]
  obtain ⟨free, hfree, hlen, rfl⟩ := Disk.extend_ok hextend
  obtain ⟨hsublist, havailable⟩ := Disk.filterBlocks_ok hfree
  have hmore : (free.take (payloadChunks (data.drop (Config.blockPayload - q.length))).length).Sublist
      (contentRegion c) := (List.take_sublist _ _).trans hsublist
  have hnotown : ∀ m ∈ ls ++ [t], m ∉ free := fun m hown hm => by
    obtain ⟨b, hb, hfreeblock, _⟩ := havailable m (hsublist.subset hm)
    obtain ⟨b', hb', hoccupied⟩ := hfile.holds.occupied hown
    cases hb.symm.trans hb'
    simpa [hoccupied] using hfreeblock hm
  refine ⟨free.take _, List.length_take_of_le hlen, ?_, ?_, ?_⟩
  · rw [List.append_cons]
    exact ((nodup_contentRegion c).sublist hfile.content).append ((nodup_contentRegion c).sublist hmore)
      fun m hown hm => hnotown m hown (List.mem_of_mem_take hm)
  · rw [List.append_cons]
    exact List.forall_mem_append.2 ⟨fun m hm => hfile.content.subset hm, fun m hm => hmore.subset hm⟩
  · rw [content_chainBlock, patchAt_padTo, Disk.writeChain_cons]
    rfl

/-- A file whose chain is written again from its terminus on reads as the pieces it then has. -/
theorem Disk.readRaw_of_extended {q' : List Byte} {more : List DiskLoc} {pieces : List (List Byte)}
    (hc : c.legal = true) (hfile : d.HoldsFile c name l (ls ++ [t]) (ps ++ [q])) (hlen : more.length = pieces.length)
    (hnodup : (ls ++ t :: more).Nodup) (hcontent : ∀ m ∈ ls ++ t :: more, m ∈ contentRegion c) :
    (d.writeChain (t :: more) (q' :: pieces)).readRaw c name =
      .ok ((ps ++ q' :: pieces).flatMap (padTo Config.blockPayload)) := by
  obtain ⟨_, hchainNodup, hdisjoint⟩ := List.nodup_append.1 hnodup
  obtain ⟨hown, hchain⟩ := List.forall_mem_append.1 hcontent
  have hgrid : ∀ m ∈ t :: more, m.onGrid c = true := fun m hm => contentRegion_onGrid (hchain m hm)
  obtain ⟨_, hformatted, _, hread⟩ := Disk.writeChain_frame (pieces := q' :: pieces) hc hfile.wf hgrid
  have hholds := hfile.holds.extend
    (fun m hm => hread m (contentRegion_onGrid (hown m hm)) fun hin => hdisjoint m hm m hin rfl)
    (Disk.holdsPieces_writeChain hc hfile.wf hgrid hchainNodup (congrArg Nat.succ hlen))
  have hentry := (Disk.HoldsEntry.of_holdsFile hfile).of_readBlock (ls' := ls ++ t :: more) (by cases ls <;> rfl)
    fun m hm => hread m (directoryRegion_onGrid hc hm) fun hin => regions_disjoint hm (hchain m hin)
  exact hentry.readRaw (hformatted.trans hfile.formatted) hholds hnodup hcontent

end

/-- Settles O49: the file of the first append has a last piece, which the second append fills up before it writes
further ones; the pieces are the text and zeros. -/
theorem appendsConcatenate : Obligations.AppendsConcatenate := by
  intro c d d1 d2 d3 name a b hc hd htext hcreate ha hb
  obtain ⟨hta, _⟩ := List.forall_mem_append.1 htext
  obtain ⟨l, hnew⟩ := Disk.holdsFile_of_createFile hc hd hcreate
  obtain ⟨_, ls, hfile⟩ := Disk.holdsFile_of_appendToFile hc hnew ha
  obtain ⟨k, hk⟩ := flatMap_padTo_newFilePieces a
  have hfirst : d2.readFile c name = .ok a := by
    rw [Disk.readFile, hfile.readRaw, hk, Except.map, cutAtZero_append_zeros hta]
  obtain ⟨ps, q, hpieces, hbytes, hq⟩ := exists_last_newFilePieces a
  rw [hpieces] at hfile
  obtain ⟨init, t, rfl⟩ := hfile.holds.exists_terminus
  obtain ⟨more, hlen, hnodup, hcontent, rfl⟩ :=
    Disk.append_at_terminus hfile (fun x hx => hta x (hbytes ▸ List.mem_append_right _ hx)) hb
  obtain ⟨n, hn⟩ := flatMap_padTo_append q b hq
  refine ⟨hfirst, ?_⟩
  rw [Disk.readFile, Disk.readRaw_of_extended hc hfile hlen hnodup hcontent, List.flatMap_append, hn,
    ← List.append_assoc, ← List.append_assoc, hbytes, Except.map, cutAtZero_append_zeros htext]

end Sys2Proof.Machine
end

section
/-! PROOF. A disk that is not formatted is not read (O51): every operation of a tick but the format does the same with
any two such disks, and leaves each as it is. -/

namespace Sys2Proof.Machine

/-! ## The machine with another disk -/

/-- The machine `s` with the disk `d` in place of its own. -/
def State.setDisk (s : State) (d : Disk) : State := { s with disk := d }

section
variable (s : State) (d : Disk)

theorem State.setDisk_self : s.setDisk s.disk = s := rfl

@[simp] theorem State.setDisk_cfg : (s.setDisk d).cfg = s.cfg := rfl
@[simp] theorem State.setDisk_cpu : (s.setDisk d).cpu = s.cpu := rfl
@[simp] theorem State.setDisk_mem : (s.setDisk d).mem = s.mem := rfl
@[simp] theorem State.setDisk_seg : (s.setDisk d).seg = s.seg := rfl
@[simp] theorem State.setDisk_occ : (s.setDisk d).occ = s.occ := rfl
@[simp] theorem State.setDisk_reg : (s.setDisk d).reg = s.reg := rfl
@[simp] theorem State.setDisk_ready : (s.setDisk d).ready = s.ready := rfl
@[simp] theorem State.setDisk_resident : (s.setDisk d).resident = s.resident := rfl
@[simp] theorem State.setDisk_terminated : (s.setDisk d).terminated = s.terminated := rfl
@[simp] theorem State.setDisk_executing : (s.setDisk d).executing = s.executing := rfl
@[simp] theorem State.setDisk_nextPid : (s.setDisk d).nextPid = s.nextPid := rfl
@[simp] theorem State.setDisk_qPid : (s.setDisk d).qPid = s.qPid := rfl
@[simp] theorem State.setDisk_qCount : (s.setDisk d).qCount = s.qCount := rfl
@[simp] theorem State.setDisk_disk : (s.setDisk d).disk = d := rfl
@[simp] theorem State.setDisk_intq : (s.setDisk d).intq = s.intq := rfl
@[simp] theorem State.setDisk_halted : (s.setDisk d).halted = s.halted := rfl
@[simp] theorem State.setDisk_console : (s.setDisk d).console = s.console := rfl
@[simp] theorem State.setDisk_display : (s.setDisk d).display = s.display := rfl
@[simp] theorem State.setDisk_cycleResult : (s.setDisk d).cycleResult = s.cycleResult := rfl

@[simp] theorem State.isFull_setDisk : (s.setDisk d).isFull = s.isFull := rfl
@[simp] theorem State.freeSegment_setDisk : (s.setDisk d).freeSegment = s.freeSegment := rfl
@[simp] theorem State.executingPid_setDisk : (s.setDisk d).executingPid = s.executingPid := rfl
@[simp] theorem State.quantumCount_setDisk (pid : Nat) : (s.setDisk d).quantumCount pid = s.quantumCount pid := rfl
@[simp] theorem State.memRead_setDisk (k : Nat) : (s.setDisk d).memRead k = s.memRead k := rfl
@[simp] theorem State.readOperand_setDisk (addr : Addr) : (s.setDisk d).readOperand addr = s.readOperand addr := rfl
@[simp] theorem State.fetchArg_setDisk (pc : Nat) : (s.setDisk d).fetchArg pc = s.fetchArg pc := rfl

end

/-- What `step` answers, with the disk `d` in the next state. -/
def withDisk (d : Disk) : Host.Outcome State Fault Refusal → Host.Outcome State Fault Refusal
  | .next t => .next (t.setDisk d)
  | .fault f => .fault f
  | .refused r => .refused r

/-- `f` does the same with any two disks that are not formatted, and leaves each as it is (46_disk_fs.md R122). -/
def DiskUnread (f : State → State) : Prop :=
  ∀ (s : State) (d : Disk), s.disk.formatted = false → d.formatted = false → f (s.setDisk d) = (f s).setDisk d

namespace DiskUnread

variable {f g : State → State}

theorem id : DiskUnread fun s => s := fun _ _ _ _ => rfl

/-- The other disk may be the state's own, which shows that it is left as it is. -/
theorem disk_eq (h : DiskUnread f) {s : State} (hs : s.disk.formatted = false) : (f s).disk = s.disk :=
  (congrArg State.disk (h s s.disk hs hs)).trans ((f s).setDisk_disk s.disk)

theorem comp (hg : DiskUnread g) (hf : DiskUnread f) : DiskUnread fun s => g (f s) := by
  intro s d hs hd
  show g (f (s.setDisk d)) = (g (f s)).setDisk d
  rw [hf s d hs hd, hg (f s) d ((congrArg Disk.formatted (hf.disk_eq hs)).trans hs) hd]

/-- A handler's loop, when each round is such an operation. -/
theorem foldl {α : Type} {f : State → α → State} (hf : ∀ x, DiskUnread fun s => f s x) (xs : List α) :
    DiskUnread fun s => xs.foldl f s := by
  induction xs with
  | nil => exact .id
  | cons x xs ih => exact ih.comp (hf x)

/-- An operation that may have nothing to do. -/
theorem getD {f : State → Option State}
    (h : ∀ (s : State) (d : Disk), s.disk.formatted = false → d.formatted = false →
      f (s.setDisk d) = (f s).map fun t => t.setDisk d) : DiskUnread fun s => (f s).getD s := by
  intro s d hs hd
  simp only [h s d hs hd]
  cases f s <;> rfl

end DiskUnread

/-! ## The cycle, with any disk -/

theorem State.takeTrap_setDisk (s : State) (d : Disk) (record : Nat → Interrupt) (r : CycleResult) :
    (s.setDisk d).takeTrap record r = (s.takeTrap record r).setDisk d := by
  unfold State.takeTrap
  rw [State.executingPid_setDisk]
  cases s.executingPid <;> rfl

theorem State.takeFault_setDisk (s : State) (d : Disk) (c : FaultCause) :
    (s.setDisk d).takeFault c = (s.takeFault c).setDisk d :=
  (s.report (.executionFault c s.executingPid)).takeTrap_setDisk d .errProgram (.fault c)

theorem finish_setDisk (s : State) (d : Disk) (r : Except FaultCause State) :
    finish (s.setDisk d) (r.map fun t => t.setDisk d) = withDisk d (finish s r) := by
  cases r with
  | error c => exact congrArg _ (s.takeFault_setDisk d c)
  | ok t => rfl

/-- An execute step that reads a value and then moves it to a register or a port. -/
theorem finish_map_setDisk {α : Type} (s : State) (d : Disk) (r : Except FaultCause α) {f g : α → State}
    (hfg : ∀ v, g v = (f v).setDisk d) : finish (s.setDisk d) (r.map g) = withDisk d (finish s (r.map f)) := by
  cases r with
  | error c => exact finish_setDisk s d (.error c)
  | ok v => simpa only [Except.map, hfg] using finish_setDisk s d (.ok (f v))

theorem State.readStringFrom_setDisk (s : State) (d : Disk) (fuel k : Nat) :
    (s.setDisk d).readStringFrom fuel k = s.readStringFrom fuel k := by
  induction fuel generalizing k with
  | zero => rfl
  | succ fuel ih => simp only [State.readStringFrom, State.memRead_setDisk, ih]

theorem State.writeOperand_setDisk (s : State) (d : Disk) (addr : Addr) (v : Byte) :
    (s.setDisk d).writeOperand addr v = (s.writeOperand addr v).map fun t => t.setDisk d := by
  rcases s.names_or_none addr.toNat with ⟨a, ha⟩ | hnone
  · rw [State.writeOperand_names ha, State.writeOperand_names (s := s.setDisk d) ha]
    rfl
  · rw [State.writeOperand_none hnone, State.writeOperand_none (s := s.setDisk d) hnone]
    rfl

/-- No instruction touches the disk. -/
theorem exec_setDisk (i : Instr) (s : State) (d : Disk) : exec i (s.setDisk d) = withDisk d (exec i s) := by
  cases i with
  | brk => exact congrArg _ (s.takeTrap_setDisk d .breakProgram .brk)
  | ldaImm v => rfl
  | ldxImm v => rfl
  | ldyImm v => rfl
  | nop => rfl
  | bne rel =>
    rw [exec, execBne, State.setDisk_cpu, exec, execBne]
    split <;> rfl
  | ldaAbs addr => exact finish_map_setDisk s d (s.readOperand addr) fun _ => rfl
  | ldxAbs addr => exact finish_map_setDisk s d (s.readOperand addr) fun _ => rfl
  | ldyAbs addr => exact finish_map_setDisk s d (s.readOperand addr) fun _ => rfl
  | adc addr => exact finish_map_setDisk s d (s.readOperand addr) fun _ => rfl
  | cpx addr => exact finish_map_setDisk s d (s.readOperand addr) fun _ => rfl
  | sta addr =>
    simp only [exec, execSta, s.writeOperand_setDisk]
    exact finish_setDisk s d _
  | inc addr =>
    simp only [exec, execInc, s.writeOperand_setDisk, State.readOperand_setDisk]
    cases s.readOperand addr with
    | error c => exact finish_setDisk s d (.error c)
    | ok v => exact finish_setDisk s d _
  | sys =>
    rw [exec, execSys, State.setDisk_cpu, exec, execSys]
    split
    · rfl
    · split
      · rw [State.readString, State.readStringFrom_setDisk]
        exact finish_map_setDisk s d _ fun _ => rfl
      · exact finish_setDisk s d (.error .invalidSysArg)

theorem State.restoreIfFresh_setDisk (s : State) (d : Disk) :
    (s.setDisk d).restoreIfFresh = s.restoreIfFresh.setDisk d := by
  rcases s.restoreIfFresh_cases with ⟨h, hold⟩ | ⟨p, he, hfresh, h⟩ <;> rw [h]
  · rcases (s.setDisk d).restoreIfFresh_cases with ⟨h', _⟩ | ⟨p, he, hfresh, _⟩
    · exact h'
    · rw [hold p he] at hfresh
      cases hfresh
  · exact State.restoreIfFresh_of_fresh (s := s.setDisk d) he hfresh

theorem State.fetchArgs_setDisk (s : State) (d : Disk) (n pc : Nat) :
    (s.setDisk d).fetchArgs n pc = s.fetchArgs n pc := by
  induction n generalizing pc with
  | zero => rfl
  | succ n ih =>
    simp only [State.fetchArgs, ih, State.setDisk_cfg, State.fetchArg_setDisk]

theorem State.fetch_setDisk (s : State) (d : Disk) :
    (s.setDisk d).fetch = s.fetch.map fun r => (r.1, r.2.setDisk d) := by
  simp only [State.fetch, State.memRead_setDisk, s.fetchArgs_setDisk, State.setDisk_cpu]
  cases s.memRead s.cpu.pc.toNat with
  | error e => rfl
  | ok op =>
    cases hop : decodeOpcode op with
    | none => simp only [hop, Except.map]
    | some o =>
      cases hargs : s.fetchArgs o.argCount s.cpu.pc.toNat with
      | error c => simp only [hop, hargs, Except.map]
      | ok r =>
        simp only [hop, hargs, Except.map]
        rfl

theorem cycle_setDisk (s : State) (d : Disk) : cycle (s.setDisk d) = withDisk d (cycle s) := by
  simp only [cycle, s.restoreIfFresh_setDisk, State.fetch_setDisk]
  cases s.restoreIfFresh.fetch with
  | error c => exact congrArg _ (s.restoreIfFresh.takeFault_setDisk d c)
  | ok r => exact exec_setDisk r.1 r.2 d

theorem State.policyAfterInstruction_setDisk (s : State) (d : Disk) (pid : Nat) :
    (s.setDisk d).policyAfterInstruction pid = (s.policyAfterInstruction pid).setDisk d := by
  rw [State.policyAfterInstruction, State.policyAfterInstruction, State.setDisk_cfg, State.quantumCount_setDisk]
  cases s.cfg.policy with
  | rr =>
    dsimp only
    split <;> rfl
  | fcfs => rfl
  | priority => rfl

theorem State.afterCycle_setDisk (s : State) (d : Disk) (pid : Nat) :
    (s.setDisk d).afterCycle pid = (s.afterCycle pid).setDisk d := by
  rw [State.afterCycle, State.afterCycle, State.setDisk_cycleResult]
  split
  · exact s.updateStats.policyAfterInstruction_setDisk d pid
  · rfl

theorem instructionTick_setDisk (s : State) (d : Disk) (pid : Nat) :
    instructionTick (s.setDisk d) pid = withDisk d (instructionTick s pid) := by
  simp only [instructionTick, cycle_setDisk]
  cases cycle s with
  | next t => exact congrArg _ (t.afterCycle_setDisk d pid)
  | fault f => rfl
  | refused r => rfl

/-! ## What a disk that is not formatted answers (46_disk_fs.md R122) -/

section
variable {d : Disk} (hd : d.formatted = false) (c : Config)
include hd

theorem Disk.createFile_of_unformatted (name : List Byte) : d.createFile c name = .error .notFormatted := by
  obtain ⟨h, _⟩ := Disk.notFormatted hd c name [] 0
  exact h

theorem Disk.appendToFile_of_unformatted (name data : List Byte) :
    d.appendToFile c name data = .error .notFormatted := by
  obtain ⟨_, h, _⟩ := Disk.notFormatted hd c name data 0
  exact h

theorem Disk.readFile_of_unformatted (name : List Byte) : d.readFile c name = .error .notFormatted := by
  obtain ⟨_, _, _, h, _⟩ := Disk.notFormatted hd c name [] 0
  exact h

theorem Disk.deleteFile_of_unformatted (name : List Byte) : d.deleteFile c name = .error .notFormatted := by
  obtain ⟨_, _, _, _, h, _⟩ := Disk.notFormatted hd c name [] 0
  exact h

theorem Disk.swapLoad_of_unformatted (image : List Byte) (pid : Nat) :
    d.swapLoad c image pid = .error .notFormatted := by
  obtain ⟨_, _, _, _, _, _, h, _⟩ := Disk.notFormatted hd c [] image pid
  exact h

end

/-! ## Memory and termination, with any disk that is not formatted -/

theorem State.vacate_setDisk (s : State) (d : Disk) (p : Pcb) : (s.setDisk d).vacate p = (s.vacate p).setDisk d := by
  simp only [State.vacate]
  cases p.occupiedSegment with
  | none => rfl
  | some i =>
    simp only [State.releaseSegment, State.setDisk_seg]
    cases s.seg[i]? <;> rfl

theorem State.evacuate_setDisk (s : State) (d : Disk) (p : Pcb) :
    (s.setDisk d).evacuate p = ((s.evacuate p).1, (s.evacuate p).2.setDisk d) := by
  simp only [State.evacuate, State.setDisk_reg, s.vacate_setDisk]
  split <;> rfl

theorem State.place_setDisk (s : State) (d : Disk) (program : List Byte) :
    (s.setDisk d).place program = (s.place program).map fun r => (r.1, r.2.setDisk d) := by
  simp only [State.place, State.freeSegment_setDisk, State.setDisk_seg]
  cases s.freeSegment with
  | none => rfl
  | some i =>
    cases hg : s.seg[i]? with
    | none => simp only [hg, Except.map]
    | some g =>
      simp only [hg, Except.map]
      rfl

theorem State.load_setDisk (s : State) (d : Disk) (program : List Byte) (pid : Nat) :
    (s.setDisk d).load program pid = (s.load program pid).map fun r => (r.1, r.2.setDisk d) := by
  simp only [State.load, s.place_setDisk]
  cases s.place program <;> rfl

theorem State.requestCpuExecution_setDisk (s : State) (d : Disk) (pid : Nat) :
    (s.setDisk d).requestCpuExecution pid = (s.requestCpuExecution pid).map fun t => t.setDisk d := by
  simp only [State.requestCpuExecution, State.setDisk_resident]
  cases findPid pid s.resident <;> rfl

section
variable {s : State} {d : Disk} (hs : s.disk.formatted = false) (hd : d.formatted = false)
include hs

theorem State.reclaimSwap_of_unformatted (pid : Nat) : s.reclaimSwap pid = s :=
  State.reclaimSwap_of_absent (State.swapFilePresent_of_gone (.inl hs))

/-- A roll-in finds the image lost (45_context_switch.md R110). -/
theorem State.rollIn_of_unformatted (h : Pcb) : s.rollIn h = s.rollInDrop h := by
  rw [State.rollIn, State.imageLost_of_gone (.inl hs), if_pos rfl]

include hd

theorem State.reclaim_setDisk (p : Pcb) :
    (s.setDisk d).reclaim p = ((s.reclaim p).1, (s.reclaim p).2.setDisk d) := by
  simp only [State.reclaim]
  cases p.location with
  | memory => exact s.evacuate_setDisk d p
  | disk =>
    simp only [State.reclaimSwap_of_unformatted hs, State.reclaimSwap_of_unformatted (s := s.setDisk d) hd]
  | undefined => rfl

theorem State.finishTermination_setDisk (p : Pcb) (wasExec : Bool) :
    (s.setDisk d).finishTermination p wasExec = (s.finishTermination p wasExec).setDisk d := by
  have hreclaim := State.reclaim_setDisk (s := s.setCpu { s.cpu with isExecuting := false }) hs hd
    { p with status := .terminated }
  rw [State.finishTermination_of_reclaim (s := s.setDisk d) hreclaim, State.finishTermination_of_reclaim rfl]
  rfl

theorem State.terminate_setDisk (pid : Nat) :
    (s.setDisk d).terminate pid = (s.terminate pid).map fun t => t.setDisk d := by
  cases ht : s.terminate pid with
  | none => exact State.terminate_none.2 (State.terminate_none.1 ht :)
  | some t =>
    rcases State.terminate_some ht with ⟨p, he, rfl, rfl⟩ | ⟨hne, p, hp, rfl⟩
    · rw [State.terminate_of_executing (s := s.setDisk d) he]
      exact congrArg some (State.finishTermination_setDisk (s := { s with executing := none }) hs hd p true)
    · rw [State.terminate_of_ready (s := s.setDisk d) hne hp]
      exact congrArg some
        (State.finishTermination_setDisk (s := { s with ready := removePid pid s.ready }) hs hd p false)

/-- Memory has room, or the swap file is refused (46_disk_fs.md R122). -/
theorem State.placeProgram_setDisk (program : List Byte) (pid : Nat) :
    (s.setDisk d).placeProgram program pid = (s.placeProgram program pid).map fun r => (r.1, r.2.setDisk d) := by
  cases hfull : s.isFull with
  | true =>
    rw [State.placeProgram_of_full_error hfull (Disk.swapLoad_of_unformatted hs _ _ pid),
      State.placeProgram_of_full_error (s := s.setDisk d) hfull (Disk.swapLoad_of_unformatted hd _ _ pid)]
    rfl
  | false =>
    simp only [State.placeProgram, hfull, State.isFull_setDisk, s.load_setDisk]
    cases s.load program pid <;> rfl

end

/-! ## The handlers -/

theorem diskUnread_handleLoad (program : List Byte) (priority : Option Int) :
    DiskUnread fun s => s.handleLoad program priority := by
  intro s d hs hd
  simp only [State.handleLoad, State.requestResidency, State.placeProgram_setDisk hs hd, State.setDisk_nextPid]
  cases s.placeProgram program s.nextPid <;> rfl

theorem diskUnread_handleRun (pid : Nat) : DiskUnread fun s => s.handleRun pid := by
  intro s d _ _
  simp only [State.handleRun, s.requestCpuExecution_setDisk]
  cases s.requestCpuExecution pid <;> rfl

theorem diskUnread_handleRunAll : DiskUnread State.handleRunAll := by
  intro s d hs hd
  exact DiskUnread.foldl
    (fun pid => .getD fun s d _ _ => s.requestCpuExecution_setDisk d pid) (ascendingPids s.resident) s d hs hd

theorem diskUnread_handleTerminate (pid : Nat) : DiskUnread fun s => s.handleTerminate pid := by
  intro s d hs hd
  simp only [State.handleTerminate, State.terminate_setDisk hs hd]
  cases s.terminate pid <;> rfl

theorem diskUnread_clearOne (pid : Nat) : DiskUnread fun s => s.clearOne pid := by
  intro s d hs hd
  simp only [State.clearOne, State.terminate_setDisk hs hd, State.setDisk_resident]
  cases s.terminate pid with
  | some t => rfl
  | none =>
    cases findPid pid s.resident with
    | none => rfl
    | some p =>
      have hevacuate := State.evacuate_setDisk { s with resident := removePid pid s.resident } d
        { p with status := .terminated }
      exact congrArg (fun r : Pcb × State => { r.2 with terminated := r.2.terminated ++ [r.1] }) hevacuate

theorem diskUnread_handleClearMemory : DiskUnread State.handleClearMemory := by
  intro s d hs hd
  exact DiskUnread.foldl diskUnread_clearOne _ s d hs hd

/-! ## Dispatch and the context switch -/

/-- The termination of a head whose image is lost. -/
theorem State.rollInDrop_setDisk {s : State} {d : Disk} (hs : s.disk.formatted = false) (hd : d.formatted = false)
    (h : Pcb) : (s.setDisk d).rollInDrop h = .failDrop ((s.rollInDrop h).state.setDisk d) := by
  have hdrop : DiskUnread fun t => (t.terminate h.pid).getD t :=
    .getD fun _ _ ht hd => State.terminate_setDisk ht hd h.pid
  exact congrArg _ (hdrop (s.report (.rollInFailed h.pid .imageLost)) d hs hd)

theorem diskUnread_nextProcess : DiskUnread State.nextProcess := by
  intro s d hs hd
  simp only [State.nextProcess, State.rollIn_of_unformatted hs, State.rollIn_of_unformatted (s := s.setDisk d) hd,
    State.rollInDrop_setDisk hs hd, State.setDisk_executing, State.setDisk_ready]
  cases s.executing with
  | some p => rfl
  | none =>
    cases s.ready with
    | nil => rfl
    | cons h rest => by_cases hl : h.location = .disk <;> simp only [hl] <;> rfl

theorem diskUnread_switchToHead (c : Pcb) : DiskUnread fun s => s.switchToHead c := by
  intro s d hs hd
  simp only [State.switchToHead, State.rollIn_of_unformatted hs, State.rollIn_of_unformatted (s := s.setDisk d) hd,
    State.rollInDrop_setDisk hs hd, State.setDisk_ready]
  cases s.ready with
  | nil => rfl
  | cons h rest => by_cases hl : h.location = .disk <;> simp only [hl] <;> rfl

theorem diskUnread_contextSwitch : DiskUnread State.contextSwitch := by
  intro s d hs hd
  simp only [State.contextSwitch, State.setDisk_executing, State.setDisk_ready]
  cases s.executing with
  | none => rfl
  | some p =>
    by_cases hr : s.ready.isEmpty = true
    · simp only [hr]
      rfl
    · simp only [hr]
      exact diskUnread_switchToHead (p.serialized s.cpu) (s.requeue (p.serialized s.cpu)) d hs hd

/-! ## The tick -/

theorem State.finishFs_setDisk (s : State) (d : Disk) (request : FsRequest) {r r' : Except FsError Disk}
    (h : r = .error .notFormatted) (h' : r' = .error .notFormatted) :
    (s.setDisk d).finishFs request r' = (s.finishFs request r).setDisk d := by
  subst h h'
  rfl

/-- Every file-system request but the format is refused (46_disk_fs.md R122). -/
theorem diskUnread_handleFileSystem {request : FsRequest} (h : request ≠ .format) :
    DiskUnread fun s => s.handleFileSystem request := by
  intro s d hs hd
  cases request with
  | format => exact absurd rfl h
  | create name =>
    exact s.finishFs_setDisk d _ (Disk.createFile_of_unformatted hs _ name) (Disk.createFile_of_unformatted hd _ name)
  | write name data =>
    exact s.finishFs_setDisk d _ (Disk.appendToFile_of_unformatted hs _ name data)
      (Disk.appendToFile_of_unformatted hd _ name data)
  | read name =>
    simp only [State.handleFileSystem, State.setDisk_disk, Disk.readFile_of_unformatted hs,
      Disk.readFile_of_unformatted hd]
    rfl
  | delete name =>
    exact s.finishFs_setDisk d _ (Disk.deleteFile_of_unformatted hs _ name) (Disk.deleteFile_of_unformatted hd _ name)
  | unrecognized n => rfl

theorem diskUnread_handle {r : Interrupt} (h : r ≠ .fileSystem .format) : DiskUnread fun s => s.handle r := by
  cases r with
  | timer => exact .id
  | keyboard data => exact .id
  | loadProgram program priority => exact diskUnread_handleLoad program priority
  | runProgram pid => exact diskUnread_handleRun pid
  | breakProgram pid => exact diskUnread_handleTerminate pid
  | errProgram pid => exact diskUnread_handleTerminate pid
  | killProgram pid => exact diskUnread_handleTerminate pid
  | requestClearMemory => exact diskUnread_handleClearMemory
  | contextSwitch => exact diskUnread_contextSwitch
  | runAllPrograms => exact diskUnread_handleRunAll
  | fileSystem request => exact diskUnread_handleFileSystem fun hr => h (congrArg _ hr)
  | unrecognized code => exact fun _ _ _ _ => rfl

theorem step_of_halted {s : State} (hh : s.halted = true) : step s = .next s := by
  simp [step, tickStep, hh]

theorem step_of_idle {s : State} (hh : s.halted = false) (hq : s.intq = []) (he : s.nextProcess.executing = none) :
    step s = .next s.nextProcess := by
  obtain ⟨_, hidle⟩ := step_nextProcess hh hq
  exact hidle he

theorem step_of_dispatched {s : State} {p : Pcb} (hh : s.halted = false) (hq : s.intq = [])
    (he : s.nextProcess.executing = some p) : step s = instructionTick s.nextProcess p.pid := by
  simp [step, tickStep, hh, hq, he]

/-- A tick that is not that of a FORMAT record does the same with another disk that is not formatted. -/
theorem step_setDisk {s : State} {d : Disk} (hs : s.disk.formatted = false) (hd : d.formatted = false)
    (hformat : s.halted = false → s.intq.head? ≠ some (.fileSystem .format)) :
    step (s.setDisk d) = withDisk d (step s) := by
  have hnext := diskUnread_nextProcess s d hs hd
  cases hh : s.halted with
  | true =>
    rw [step_of_halted hh, step_of_halted (s := s.setDisk d) hh]
    rfl
  | false =>
    cases hq : s.intq with
    | cons r rest =>
      have hr : r ≠ .fileSystem .format := by simpa [hq] using hformat hh
      rw [step_of_record hh hq, step_of_record (s := s.setDisk d) hh hq]
      exact congrArg _ (diskUnread_handle hr { s with intq := rest } d hs hd)
    | nil =>
      cases he : s.nextProcess.executing with
      | none =>
        have he' : (s.setDisk d).nextProcess.executing = none := hnext ▸ he
        rw [step_of_idle hh hq he, step_of_idle (s := s.setDisk d) hh hq he', hnext]
        rfl
      | some p =>
        have he' : (s.setDisk d).nextProcess.executing = some p := hnext ▸ he
        rw [step_of_dispatched hh hq he, step_of_dispatched (s := s.setDisk d) hh hq he', hnext,
          instructionTick_setDisk]

/-- A tick of a machine whose disk is not formatted: the format gives the same disk whatever was there before, and any
other tick leaves the disk as it is. -/
theorem step_of_unformatted {s t : State} {d : Disk} (hs : s.disk.formatted = false) (hd : d.formatted = false)
    (h : step s = .next t) :
    step (s.setDisk d) = .next t ∨ (t.disk = s.disk ∧ step (s.setDisk d) = .next (t.setDisk d)) := by
  by_cases hformat : s.halted = false ∧ s.intq.head? = some (.fileSystem .format)
  · obtain ⟨hh, hq⟩ := hformat
    obtain ⟨records, hq⟩ := List.head?_eq_some_iff.1 hq
    rw [← h, step_of_record hh hq, step_of_record (s := s.setDisk d) hh hq]
    exact .inl rfl
  · have hother := step_setDisk hs hd fun hh hq => hformat ⟨hh, hq⟩
    have hown := step_setDisk hs hs fun hh hq => hformat ⟨hh, hq⟩
    rw [s.setDisk_self, h] at hown
    rw [h] at hother
    have hkept : t = t.setDisk s.disk := Host.Outcome.next.inj hown
    exact .inr ⟨(congrArg State.disk hkept).trans (t.setDisk_disk s.disk), hother⟩

/-- Settles O51: the tick with other raw blocks is that of a machine with another disk, also not formatted. -/
theorem unformattedDiskIsUnread : Obligations.UnformattedDiskIsUnread := by
  intro s t raw hs h
  rcases step_of_unformatted (d := { s.disk with blocks := raw }) hs hs h with hsame | ⟨hdisk, hother⟩
  · exact .inl hsame
  · refine .inr ⟨hdisk ▸ hs, congrArg Disk.blocks hdisk, ?_⟩
    rw [hdisk]
    exact hother

end Sys2Proof.Machine
end

section
/-! PROOF. Ticks and their records: every tick has a next state (O20), an instruction that faults leaves the rest of the
machine (O23), a tick enqueues at most one record (O24), and the records that do nothing (O18) or are the file
system's (O17). -/

namespace Sys2Proof.Machine

/-! ## Every tick has a next state -/

theorem exec_next (i : Instr) (s : State) : ∃ t, exec i s = .next t := by
  rcases exec_cases i s with ⟨r, k, he, _⟩ | ⟨addr, a, v, _, _, he⟩ | ⟨c, he⟩ | ⟨_, he⟩
  all_goals exact ⟨_, he⟩

theorem cycle_next (s : State) : ∃ t, cycle s = .next t := by
  rcases cycle_cases s with ⟨c, _, hc⟩ | ⟨i, op, last, _, hc⟩
  · exact ⟨_, hc⟩
  · obtain ⟨t, he⟩ := exec_next i (s.restoreIfFresh.atExecute op last)
    exact ⟨t, hc.trans he⟩

/-- Settles O20: of the four kinds of tick only the instruction tick could stop, and its cycle does not. -/
theorem stepAlwaysAnswersNext : Obligations.StepAlwaysAnswersNext := by
  intro s
  rcases tickStep_cases s with ⟨_, hs⟩ | ⟨r, rest, _, _, hs⟩ | ⟨_, _, _, hs⟩ | ⟨p, _, _, _, hs⟩
  · exact ⟨_, hs⟩
  · exact ⟨_, hs⟩
  · exact ⟨_, hs⟩
  · obtain ⟨u, hu⟩ := cycle_next s.nextProcess
    refine ⟨u.afterCycle p.pid, hs.trans ?_⟩
    rw [instructionTick, hu]

/-! ## What an execute step enqueues and reports -/

/-- An instruction that ends in a fault has taken the fault path (40_cycle.md R75). -/
theorem exec_fault {i : Instr} {s t : State} {p : Pcb} {c : FaultCause} (he : s.executing = some p)
    (h : exec i s = .next t) (hc : t.cycleResult = some (.fault c)) : t = Faulted s p c := by
  rcases exec_next_cases h with ⟨r, k, rfl, _⟩ | ⟨addr, a, v, _, _, rfl⟩ | ⟨c', rfl⟩ | ⟨_, rfl⟩
  · cases hc
  · cases hc
  · rw [State.takeFault_eq he] at hc ⊢
    cases hc
    rfl
  · rw [State.takeBreak_eq he] at hc
    cases hc

/-- Settles O23: the fault state is the old one but for the CPU, the two ports, the queue's tail and the result. -/
theorem faultsArePrecise : Obligations.FaultsArePrecise := by
  intro i s t p c he h hc
  rw [exec_fault he h hc]
  exact ⟨rfl, he, by simp [SameEngine, Faulted], rfl, rfl, rfl⟩

/-- The queue after a cycle: as it was, or, after a cycle that was not OK, with one record of the process that ran. -/
theorem cycle_intq_cases {s u : State} {p : Pcb} (he : s.executing = some p) (h : cycle s = .next u) :
    (u.intq = s.intq) ∨ (u.cycleResult ≠ some .ok ∧
      (u.intq = s.intq ++ [.breakProgram p.pid] ∨ u.intq = s.intq ++ [.errProgram p.pid])) := by
  have hrestored := State.executing_restoreIfFresh he
  have hintq : s.restoreIfFresh.intq = s.intq := by
    rcases s.restoreIfFresh_cases with ⟨hr, _⟩ | ⟨q, _, _, hr⟩ <;> rw [hr]
  rw [← hintq]
  rcases cycle_cases s with ⟨c, _, hc⟩ | ⟨i, op, last, _, hc⟩ <;> rw [hc] at h
  · cases h
    rw [State.takeFault_eq hrestored]
    exact .inr ⟨by simp [Faulted], .inr rfl⟩
  · rcases exec_next_cases h with ⟨r, k, rfl, _⟩ | ⟨addr, a, v, _, _, rfl⟩ | ⟨c, rfl⟩ | ⟨_, rfl⟩
    · exact .inl rfl
    · exact .inl rfl
    · rw [State.takeFault_eq (s := s.restoreIfFresh.atExecute op last) hrestored]
      exact .inr ⟨by simp [Faulted], .inr rfl⟩
    · rw [State.takeBreak_eq (s := s.restoreIfFresh.atExecute op last) hrestored]
      exact .inr ⟨by simp [Broken], .inl rfl⟩

/-- The accounting after a cycle enqueues at most a switch request, and that only after OK (60_exceptions.md R147). -/
theorem State.afterCycle_intq_cases (s : State) (pid : Nat) :
    (s.afterCycle pid).intq = s.intq ∨
      (s.cycleResult = some .ok ∧ (s.afterCycle pid).intq = s.intq ++ [.contextSwitch]) := by
  rcases s.afterCycle_cases pid with ⟨hok, h⟩ | ⟨_, h⟩ <;> rw [h]
  · rcases s.updateStats.policyAfterInstruction_cases pid with ⟨_, hp⟩ | ⟨_, _, hp⟩ | ⟨_, _, hp⟩ <;> rw [hp]
    · exact .inl rfl
    · exact .inl rfl
    · exact .inr ⟨hok, rfl⟩
  · exact .inl rfl

/-- Settles O24: a trap record and a switch request exclude each other by the cycle's result. -/
theorem atMostOneRecordPerTick : Obligations.AtMostOneRecordPerTick := by
  intro s t hq h
  obtain ⟨_, hnext⟩ := s.nextProcess_inputs
  rw [hq] at hnext
  rw [step] at h
  rcases tickStep_cases s with ⟨_, hs⟩ | ⟨r, rest, _, hr, _⟩ | ⟨_, _, _, hs⟩ | ⟨p, _, _, he, hs⟩
  · cases hs.symm.trans h
    exact .inl hq
  · cases hq.symm.trans hr
  · cases hs.symm.trans h
    exact .inl hnext
  obtain ⟨u, hcycle, rfl⟩ := instructionTick_next (hs.symm.trans h)
  obtain ⟨_, ⟨c, hexec⟩, _⟩ := cycle_frame he hcycle
  have hpid : ∃ q, (u.afterCycle p.pid).executing = some q ∧ q.pid = p.pid := by
    obtain ⟨_, _, _, hafter⟩ := u.afterCycle_eq p.pid
    rw [hafter, State.updateStats, hexec]
    exact ⟨_, rfl, rfl⟩
  obtain ⟨q, hq, hpid⟩ := hpid
  have hrecords := cycle_intq_cases he hcycle
  rw [hnext, ← hpid, List.nil_append, List.nil_append] at hrecords
  rcases u.afterCycle_intq_cases p.pid with hafter | ⟨hok, hafter⟩ <;> rw [hafter]
  · exact hrecords.imp_right fun ⟨_, htrap⟩ => .inr ⟨q, hq, htrap⟩
  · rcases hrecords with hnone | ⟨hnot, _⟩
    · exact .inr (.inl (by rw [hnone, List.nil_append]))
    · exact absurd hok hnot

/-! ## Ticks that do nothing (60_exceptions.md R152, R172) -/

theorem State.nextProcess_of_nothing {s : State} (he : s.executing = none) (hr : s.ready = []) : s.nextProcess = s := by
  simp [State.nextProcess, he, hr]

/-- Settles O18: the two handlers do nothing, and with nothing to dispatch neither does `next()`. -/
theorem ticksWithoutEffect : Obligations.TicksWithoutEffect := by
  refine ⟨fun s r rest data hh hq hr => ?_, fun s hq he hr => ?_⟩
  · rw [step_of_record hh hq]
    rcases hr with rfl | rfl <;> rfl
  · have hnext := State.nextProcess_of_nothing he hr
    cases hh : s.halted with
    | true => exact step_of_halted hh
    | false => rw [step_of_idle hh hq (hnext.symm ▸ he), hnext]

/-! ## File-system records and the fatal trap (60_exceptions.md R161, R162) -/

/-- After the format every block of the grid reads as fresh (46_disk_fs.md R127). -/
theorem Disk.readBlock_format {c : Config} (hc : c.legal = true) (d : Disk) {l : DiskLoc} (hl : l.onGrid c = true) :
    d.format.readBlock c l = .ok (freshBlock l) := by
  obtain ⟨_, hs, hb⟩ := DiskLoc.onGrid_lt hc hl
  have hstored : d.format.stored l = (freshBlock l).encode :=
    congrArg (fun m => (freshBlock m).encode) (DiskLoc.ofKey_key (by omega) (by omega))
  have hdecode : FsBlock.decode c (freshBlock l).encode = some (freshBlock l) := FsBlock.decode_encode hc hl
  rw [Disk.readBlock, hstored, hdecode]

/-- The tick of a request that answers a disk or an error. -/
theorem step_of_fsRequest {s : State} {q : FsRequest} {result : Except FsError Disk} {records : List Interrupt}
    (hh : s.halted = false) (hq : s.intq = .fileSystem q :: records)
    (hresult : (∃ name, q = .create name ∧ result = s.disk.createFile s.cfg name) ∨
      (∃ name data, q = .write name data ∧ result = s.disk.appendToFile s.cfg name data) ∨
      (∃ name, q = .delete name ∧ result = s.disk.deleteFile s.cfg name)) :
    step s = .next (State.finishFs { s with intq := records } q result) := by
  rw [step_of_record hh hq]
  rcases hresult with ⟨name, rfl, rfl⟩ | ⟨name, data, rfl, rfl⟩ | ⟨name, rfl, rfl⟩ <;> rfl

/-- Settles O17, one clause for each kind of record. -/
theorem fileSystemRecordsAndFatalTrap : Obligations.FileSystemRecordsAndFatalTrap := by
  refine ⟨fun s hh => step_of_halted hh, fun s r rest n hh hq hr => ?_, fun s records hh hq => ?_,
    fun s q result records hh hq hresult => ?_, fun s name records hh hq => ?_⟩
  · rw [step_of_record hh hq]
    rcases hr with rfl | rfl <;> rfl
  · refine ⟨s.disk.format, ?_, rfl, rfl, fun l hc hl => s.disk.readBlock_format hc hl⟩
    rw [step_of_record hh hq]
    rfl
  · rw [step_of_fsRequest hh hq hresult]
    refine ⟨fun d hd => ?_, fun e he => ?_⟩
    · rw [hd]
      rfl
    · rw [he]
      rfl
  · rw [step_of_record hh hq]
    refine ⟨fun text htext => ?_, fun e he => ?_⟩
    · simp [State.handle, State.handleFileSystem, htext, State.report, State.emit]
    · simp [State.handle, State.handleFileSystem, he, State.report, State.emit]

end Sys2Proof.Machine
end

section
/-! PROOF. No handler enqueues a record (O19). -/

namespace Sys2Proof.Machine

/-! ## The scheduler leaves the interrupt queue -/

theorem State.intq_finishTermination (s : State) (p : Pcb) (wasExec : Bool) :
    (s.finishTermination p wasExec).intq = s.intq := by
  obtain ⟨q, mem, occ, reg, disk, console, cpu, display, h⟩ := s.finishTermination_eq p wasExec
  rw [h]

theorem State.intq_of_terminate {s t : State} {pid : Nat} (h : s.terminate pid = some t) : t.intq = s.intq := by
  rcases State.terminate_some h with ⟨p, _, _, rfl⟩ | ⟨_, p, _, rfl⟩
  · exact State.intq_finishTermination { s with executing := none } p true
  · exact State.intq_finishTermination { s with ready := removePid pid s.ready } p false

theorem State.intq_rollIn (s : State) (h : Pcb) : (s.rollIn h).state.intq = s.intq := by
  rcases s.rollIn_cases h with ⟨_, hr⟩ | ⟨_, why, hr⟩ | ⟨_, t, h', u, hroom, himage, hr⟩ <;> rw [hr]
  · show (((s.report (.rollInFailed h.pid .imageLost)).terminate h.pid).getD _).intq = s.intq
    cases ht : (s.report (.rollInFailed h.pid .imageLost)).terminate h.pid with
    | none => rfl
    | some t => exact (State.intq_of_terminate ht :)
  · rfl
  · obtain ⟨_, _, hintq, _⟩ := State.makeRoom_frame hroom
    obtain ⟨i, g, img, d, _, _, _, _, rfl⟩ := State.loadImage_eq himage
    exact hintq

theorem State.intq_switchToHead {s : State} {q : Pcb} {rest : List Pcb} (hq : s.ready = q :: rest) (c : Pcb) :
    (s.switchToHead c).intq = s.intq := by
  have hroll := s.intq_rollIn q
  rcases State.switchToHead_cases hq c with ⟨_, h⟩ | ⟨_, t, hr | hr, h⟩ | ⟨_, q', t, hr, h⟩ <;> rw [h]
  · rfl
  all_goals
    rw [hr] at hroll
    exact hroll

theorem State.intq_contextSwitch (s : State) : s.contextSwitch.intq = s.intq := by
  rcases s.contextSwitch_cases with ⟨_, h⟩ | ⟨p, _, _, h⟩ | ⟨p, _, _, h⟩ <;> rw [h]
  · rfl
  · obtain ⟨q, rest, hq⟩ := s.requeue_ready (p.serialized s.cpu)
    exact State.intq_switchToHead hq _

theorem State.intq_of_requestCpuExecution {s t : State} {pid : Nat} (h : s.requestCpuExecution pid = some t) :
    t.intq = s.intq := by
  obtain ⟨p, _, rfl⟩ := State.requestCpuExecution_some h
  rfl

theorem State.intq_of_requestResidency {s t : State} {program : List Byte} {priority : Option Int} {pid : Nat}
    (h : s.requestResidency program priority = .ok (pid, t)) : t.intq = s.intq := by
  obtain ⟨_, p, u, hplace, rfl⟩ := State.requestResidency_ok h
  rcases State.placeProgram_ok hplace with ⟨_, d, _, _, rfl⟩ | ⟨_, hload⟩
  · rfl
  · obtain ⟨i, v, hv, _, rfl⟩ := State.load_ok hload
    obtain ⟨_, g, _, rfl⟩ := State.place_ok.1 hv
    rfl

/-! ## The kernel's handlers leave it -/

/-- A handler's loop leaves what each round leaves. -/
theorem State.intq_foldl {α : Type} {f : State → α → State} (hf : ∀ (s : State) (x : α), (f s x).intq = s.intq)
    (xs : List α) (s : State) : (xs.foldl f s).intq = s.intq := by
  induction xs generalizing s with
  | nil => rfl
  | cons x xs ih => exact (ih (f s x)).trans (hf s x)

theorem State.intq_handleLoad (s : State) (program : List Byte) (priority : Option Int) :
    (s.handleLoad program priority).intq = s.intq := by
  unfold State.handleLoad
  split
  next => rfl
  next pid t ht => exact (State.intq_of_requestResidency ht :)

theorem State.intq_handleRun (s : State) (pid : Nat) : (s.handleRun pid).intq = s.intq := by
  unfold State.handleRun
  split
  next => rfl
  next t ht => exact State.intq_of_requestCpuExecution ht

theorem State.intq_handleTerminate (s : State) (pid : Nat) : (s.handleTerminate pid).intq = s.intq := by
  unfold State.handleTerminate
  split
  next => rfl
  next t ht => exact State.intq_of_terminate ht

theorem State.intq_clearOne (s : State) (pid : Nat) : (s.clearOne pid).intq = s.intq := by
  unfold State.clearOne
  split
  next t ht => exact State.intq_of_terminate ht
  next =>
    split
    next => rfl
    next p _ =>
      obtain ⟨q, mem, occ, reg, h⟩ :=
        State.evacuate_eq { s with resident := removePid pid s.resident } { p with status := .terminated }
      rw [h]

theorem State.intq_handleRunAll (s : State) : s.handleRunAll.intq = s.intq := by
  refine State.intq_foldl (fun t pid => ?_) _ s
  cases ht : t.requestCpuExecution pid with
  | none => rfl
  | some u => exact State.intq_of_requestCpuExecution ht

theorem State.intq_handleFileSystem (s : State) (request : FsRequest) : (s.handleFileSystem request).intq = s.intq := by
  have hfinish : ∀ r : Except FsError Disk, (s.finishFs request r).intq = s.intq := fun r => by cases r <;> rfl
  cases request with
  | read name =>
    simp only [State.handleFileSystem]
    split <;> rfl
  | unrecognized n => rfl
  | format => rfl
  | create name => exact hfinish _
  | write name data => exact hfinish _
  | delete name => exact hfinish _

theorem State.intq_handle (s : State) (r : Interrupt) : (s.handle r).intq = s.intq := by
  cases r with
  | timer => rfl
  | keyboard data => rfl
  | loadProgram program priority => exact s.intq_handleLoad program priority
  | runProgram pid => exact s.intq_handleRun pid
  | breakProgram pid => exact s.intq_handleTerminate pid
  | errProgram pid => exact s.intq_handleTerminate pid
  | killProgram pid => exact s.intq_handleTerminate pid
  | requestClearMemory => exact State.intq_foldl State.intq_clearOne _ s
  | contextSwitch => exact s.intq_contextSwitch
  | runAllPrograms => exact s.intq_handleRunAll
  | fileSystem request => exact s.intq_handleFileSystem request
  | unrecognized code => rfl

/-- Settles O19: the head is taken before its handler runs, and no handler writes the queue. -/
theorem interruptTickTakesTheHead : Obligations.InterruptTickTakesTheHead := by
  intro s t r rest hh hq h
  rw [step_of_record hh hq] at h
  cases h
  exact State.intq_handle { s with intq := rest } r

end Sys2Proof.Machine
end

section
/-! PROOF. REQUEST_CLEAR_MEMORY leaves memory empty (O58): each round of the handler takes one process out of memory,
and a machine in order without one has every segment free and the store zero. -/

namespace Sys2Proof.Machine

/-! ## What one round leaves -/

/-- The PCBs of a queue that are on disk, in their order. -/
def onDisk (ps : List Pcb) : List Pcb := ps.filter fun p => p.location == .disk

/-- From `s` to `t` only processes in memory have gone: the disk, and the PCBs of READY and RESIDENT that are on disk,
are as they were. -/
structure State.OnlyMemoryCleared (s t : State) : Prop where
  disk : t.disk = s.disk
  ready : onDisk t.ready = onDisk s.ready
  resident : onDisk t.resident = onDisk s.resident
  live : ∀ p ∈ t.live, p ∈ s.live

theorem State.OnlyMemoryCleared.trans {s t u : State} (h : s.OnlyMemoryCleared t) (h' : t.OnlyMemoryCleared u) :
    s.OnlyMemoryCleared u :=
  ⟨h'.disk.trans h.disk, h'.ready.trans h.ready, h'.resident.trans h.resident, fun p hp => h.live p (h'.live p hp)⟩

/-- Taking out a PCB in memory leaves those on disk, in their order. -/
theorem onDisk_removePid {pid : Nat} {ps : List Pcb} {p : Pcb} (h : findPid pid ps = some p)
    (hl : p.location = .memory) : onDisk (removePid pid ps) = onDisk ps := by
  obtain ⟨rfl, before, after, rfl, hbefore⟩ := findPid_split h
  rw [removePid_append hbefore]
  simp [onDisk, hl]

/-- Terminating a process in memory touches neither the disk nor the places of the others (R116). -/
theorem State.finishTermination_frame {s : State} {p : Pcb} (hl : p.location = .memory) (wasExec : Bool) :
    (s.finishTermination p wasExec).disk = s.disk ∧ (s.finishTermination p wasExec).executing = s.executing ∧
      (s.finishTermination p wasExec).ready = s.ready ∧ (s.finishTermination p wasExec).resident = s.resident := by
  have hreclaim : (s.setCpu { s.cpu with isExecuting := false }).reclaim { p with status := .terminated } =
      (s.setCpu { s.cpu with isExecuting := false }).evacuate { p with status := .terminated } := by
    simp [State.reclaim, hl]
  obtain ⟨q, mem, occ, reg, hevacuate⟩ :=
    (s.setCpu { s.cpu with isExecuting := false }).evacuate_eq { p with status := .terminated }
  rw [State.finishTermination_of_reclaim (hreclaim.trans hevacuate)]
  exact ⟨rfl, rfl, rfl, rfl⟩

/-- In `u` the process `p` has been taken out of its place; `t` is `u` after `p` has been terminated. -/
theorem State.TableOkBut.cleared {s t u : State} {p : Pcb} (hu : u.TableOkBut p) (h : s.OnlyMemoryCleared u)
    (hframe : t.disk = u.disk ∧ t.executing = u.executing ∧ t.ready = u.ready ∧ t.resident = u.resident) :
    s.OnlyMemoryCleared t ∧ ∀ q ∈ t.live, q.pid ≠ p.pid := by
  obtain ⟨hdisk, hexec, hready, hresident⟩ := hframe
  have hlive : t.live = u.live := by rw [State.live, hexec, hready, hresident, State.live]
  exact ⟨⟨hdisk.trans h.disk, hready ▸ h.ready, hresident ▸ h.resident, hlive ▸ h.live⟩,
    fun q hq => hu.pid_ne (hlive ▸ hq)⟩

section
variable {s : State} {p : Pcb}

theorem State.onlyMemoryCleared_executing : s.OnlyMemoryCleared { s with executing := none } :=
  ⟨rfl, rfl, rfl, fun q hq => by
    rcases State.mem_live.1 hq with hq | hq
    · cases hq
    · exact State.mem_live.2 (.inr hq)⟩

theorem State.onlyMemoryCleared_ready {pid : Nat} (hp : findPid pid s.ready = some p) (hl : p.location = .memory) :
    s.OnlyMemoryCleared { s with ready := removePid pid s.ready } :=
  ⟨rfl, onDisk_removePid hp hl, rfl, fun _ hq =>
    State.mem_live.2 ((State.mem_live.1 hq).imp_right (Or.imp_left mem_removePid))⟩

theorem State.onlyMemoryCleared_resident {pid : Nat} (hp : findPid pid s.resident = some p)
    (hl : p.location = .memory) : s.OnlyMemoryCleared { s with resident := removePid pid s.resident } :=
  ⟨rfl, rfl, onDisk_removePid hp hl, fun _ hq =>
    State.mem_live.2 ((State.mem_live.1 hq).imp_right (Or.imp_right mem_removePid))⟩

end

/-- A round of the handler, for a pid of a process in memory or of none: it leaves no process of that pid, and clears
memory only. -/
theorem State.clearOne_clears {s : State} {pid : Nat} (hs : s.TableOk)
    (hpid : ∀ p ∈ s.live, p.pid = pid → p.location = .memory) :
    s.OnlyMemoryCleared (s.clearOne pid) ∧ ∀ p ∈ (s.clearOne pid).live, p.pid ≠ pid := by
  unfold State.clearOne
  cases ht : s.terminate pid with
  | some t =>
    rcases State.terminate_some ht with ⟨p, he, rfl, rfl⟩ | ⟨_, p, hp, rfl⟩
    · have hl := hpid p (State.mem_live.2 (.inl he)) rfl
      exact (hs.takeExecuting he).cleared State.onlyMemoryCleared_executing (State.finishTermination_frame hl true)
    · obtain ⟨hmem, rfl⟩ := findPid_some hp
      have hl := hpid p (State.mem_live.2 (.inr (.inl hmem))) rfl
      exact (hs.takeReady (perm_removePid hp)).cleared (State.onlyMemoryCleared_ready hp hl)
        (State.finishTermination_frame hl false)
  | none =>
    obtain ⟨hexec, hready⟩ := State.terminate_none.1 ht
    cases hp : findPid pid s.resident with
    | none =>
      refine ⟨⟨rfl, rfl, rfl, fun _ hq => hq⟩, fun q hq => ?_⟩
      rcases State.mem_live.1 hq with hq | hq | hq
      · exact hexec q hq
      · exact findPid_none.1 hready q hq
      · exact findPid_none.1 hp q hq
    | some p =>
      obtain ⟨hmem, rfl⟩ := findPid_some hp
      have hl := hpid p (State.mem_live.2 (.inr (.inr hmem))) rfl
      obtain ⟨q, mem, occ, reg, hevacuate⟩ :=
        State.evacuate_eq { s with resident := removePid p.pid s.resident } { p with status := .terminated }
      refine (hs.takeResident (perm_removePid hp)).cleared (State.onlyMemoryCleared_resident hp hl) ?_
      simp [hevacuate]

/-- The whole loop, for pids of processes in memory or of none. -/
theorem State.foldl_clearOne {pids : List Nat} {s : State} (hs : s.TableOk)
    (hpids : ∀ p ∈ s.live, p.pid ∈ pids → p.location = .memory) :
    s.OnlyMemoryCleared (pids.foldl State.clearOne s) ∧ ∀ p ∈ (pids.foldl State.clearOne s).live, p.pid ∉ pids := by
  induction pids generalizing s with
  | nil => exact ⟨⟨rfl, rfl, rfl, fun _ hp => hp⟩, fun _ _ => List.not_mem_nil⟩
  | cons pid pids ih =>
    obtain ⟨hround, hgone⟩ := State.clearOne_clears (pid := pid) hs fun p hp hpid =>
      hpids p hp (hpid ▸ List.mem_cons_self)
    obtain ⟨hrest, hgone'⟩ := ih ((s.keeps_clearOne pid).table hs) fun p hp hpid =>
      hpids p (hround.live p hp) (List.mem_cons_of_mem _ hpid)
    exact ⟨hround.trans hrest, fun p hp hpid =>
      (List.mem_cons.1 hpid).elim (hgone p (hrest.live p hp)) (hgone' p hp)⟩

theorem State.TableOk.live_nodup {s : State} (hs : s.TableOk) : (s.live.map (·.pid)).Nodup := by
  have hall : (s.allPcbs.map (·.pid)).Nodup := s.pids_seats ▸ hs.ledger.pids_nodup
  exact hall.sublist ((List.sublist_append_left s.live s.terminated).map _)

/-- The handler clears memory of every process in it (60_exceptions.md R157). -/
theorem State.handleClearMemory_clears {s : State} (hs : s.TableOk) :
    s.OnlyMemoryCleared s.handleClearMemory ∧ ∀ p ∈ s.handleClearMemory.live, p.location ≠ .memory := by
  have hlisted : ∀ p ∈ s.live, p.location = .memory → p.pid ∈ ascendingPids (s.live.filter Pcb.inMemory) :=
    fun p hp hl => mem_ascendingPids.2
      (List.mem_map_of_mem (List.mem_filter.2 ⟨hp, by simp [Pcb.inMemory, hl]⟩))
  have hmemory : ∀ p ∈ s.live, p.pid ∈ ascendingPids (s.live.filter Pcb.inMemory) → p.location = .memory := by
    intro p hp hpid
    obtain ⟨q, hq, hqp⟩ := List.mem_map.1 (mem_ascendingPids.1 hpid)
    obtain ⟨hq, hl⟩ := List.mem_filter.1 hq
    rw [← List.inj_on_of_nodup_map hs.live_nodup hq hp hqp]
    simpa [Pcb.inMemory] using hl
  obtain ⟨hcleared, hgone⟩ := State.foldl_clearOne hs hmemory
  exact ⟨hcleared, fun p hp hl => hgone p hp (hlisted p (hcleared.live p hp) hl)⟩

/-! ## A machine in order without a process in memory -/

section
variable {s : State} (hs : s.TableOk)
include hs

theorem State.TableOk.seated {p : Pcb} (hp : p ∈ s.live) : p.Seated := by
  obtain ⟨_, ⟨_, _, _, _, _, _, hseated, _⟩, _⟩ := hs.invariants
  exact hseated p hp

/-- An occupied segment is that of a live process, which is in memory. -/
theorem State.TableOk.allFree (hl : ∀ p ∈ s.live, p.location ≠ .memory) : ∀ o ∈ s.occ, o = false := by
  intro o ho
  obtain ⟨i, hi⟩ := List.mem_iff_getElem?.1 ho
  cases o with
  | false => rfl
  | true =>
    obtain ⟨pid, hseat⟩ := (hs.ledger.occ_iff i).1 hi
    obtain ⟨p, hp, _, hsegment⟩ := State.mem_seats.1 hseat
    exact absurd ((hs.seated hp).2.2 (by simp [hsegment])) (hl p hp)

/-- Every byte is in some segment, and free segments are zero (20_memory.md R37, R46). -/
theorem State.TableOk.mem_eq_nil (hfree : ∀ o ∈ s.occ, o = false) : s.mem = [] := by
  obtain ⟨hlegal, hseg, hwf, hbound⟩ := hs.ledger.memory
  refine Sparse.ext hwf rfl fun a => ?_
  rcases Sparse.read_mem_or s.mem a with hlisted | hdefault
  · obtain ⟨_, hpartition, _⟩ := segmentsPartitionTheStore s.cfg hlegal
    obtain ⟨i, g, hg, hbase, hlimit, _⟩ := hpartition a (hbound _ hlisted)
    have hi : i < s.occ.length := hs.ledger.occ_length ▸ (segmentTable_getElem? hg).1
    have hocc : s.occ[i]? = some false := by
      rw [List.getElem?_eq_getElem hi, hfree _ (List.getElem_mem hi)]
    exact hs.ledger.zero i g hocc (hseg ▸ hg) a hbase hlimit
  · exact hdefault

theorem State.TableOk.executing_eq_none (hl : ∀ p ∈ s.live, p.location ≠ .memory) : s.executing = none := by
  cases he : s.executing with
  | none => rfl
  | some p =>
    obtain ⟨_, hmemory, _⟩ := hs.queues.executing p he
    exact absurd hmemory (hl p (State.mem_live.2 (.inl he)))

theorem State.TableOk.onDisk_eq_self {ps : List Pcb} (hps : ∀ p ∈ ps, p ∈ s.live)
    (hl : ∀ p ∈ s.live, p.location ≠ .memory) : onDisk ps = ps := by
  refine List.filter_eq_self.2 fun p hp => ?_
  by_contra hdisk
  exact hl p (hps p hp) ((hs.seated (hps p hp)).memory (by simpa using hdisk))

end

/-- Settles O58: after the loop no process is in memory, and the table is still in order. -/
theorem clearMemoryFreesEverything : Obligations.ClearMemoryFreesEverything := by
  intro s t records hmemory hprocesses hzero hh hq h
  have hs : State.TableOk { s with intq := records } := (State.TableOk.of_invariants hmemory hprocesses hzero).of_eq
  rw [step_of_record hh hq] at h
  cases h
  have ht := (State.keeps_handle _ .requestClearMemory).table hs
  obtain ⟨hcleared, hgone⟩ := State.handleClearMemory_clears hs
  have hfree := ht.allFree hgone
  refine ⟨hfree, ht.mem_eq_nil hfree, ht.executing_eq_none hgone, hcleared.disk, ?_, ?_⟩
  · exact (ht.onDisk_eq_self (fun p hp => State.mem_live.2 (.inr (.inl hp))) hgone).symm.trans hcleared.ready
  · exact (ht.onDisk_eq_self (fun p hp => State.mem_live.2 (.inr (.inr hp))) hgone).symm.trans hcleared.resident

end Sys2Proof.Machine
end
